-- ==== Sys2Proof/Word.lean ====
section
/-! DEFINITION. The word types of qiic-bme: 32-bit registers and addresses, 8-bit data bytes, line levels
(spec/00_scope.md R8, R11). -/

namespace Sys2Proof

/-- A 32-bit host register or system address (R8). -/
abbrev Word := BitVec 32

/-- A data byte, a device address byte or a register offset (R8). -/
abbrev Byte := BitVec 8

/-- The level of a line: `true` is HIGH = 1, `false` is LOW = 0 (R11). -/
abbrev Level := Bool

/-- The line level HIGH (R11). -/
abbrev HIGH : Level := true

/-- The line level LOW (R11). -/
abbrev LOW : Level := false

end Sys2Proof
end

