-- ==== Sys2Proof/Syntax.lean ====
section
/-! DEFINITION. The instructions: one constructor of `Instr` for each row of spec/opcode_table.json
(spec/30_encoding.md R101, R103, R109). -/

namespace Sys2Proof

/-- The fields of a command word besides OP (R100). The reserved fields are kept: a command whose reserved
bits are not zero is accepted, and finishes with E_INVALID_ARGUMENT (R102). -/
structure CmdFields where
  /-- RES1, bits 31:24. -/
  res1 : Byte
  /-- REGOFF, bits 23:16. -/
  reg : Byte
  /-- DEV, bits 15:8. -/
  dev : Byte
  /-- RES0, bits 7:4. -/
  res0 : BitVec 4
  deriving DecidableEq, Repr

/-- `L.res != 0`: some reserved bit of the command word is set (R48, R102). -/
abbrev CmdFields.reserved (f : CmdFields) : Bool :=
  f.res0 != 0 || f.res1 != 0

/-- The seven micro-operations of the sequencer (R107, R109). -/
inductive MicroOp where
  | start
  | stop
  | ack
  | nak
  | waitAck
  | sendByte (v : Byte)
  | recvByte
  deriving DecidableEq, Repr

/-- The instructions: five commands and three rows of reserved OP values, written to CMD (R101, R103), and the
seven micro-operations, internal to the engine (R107). -/
inductive Instr where
  /-- INIT, OP 0x1 (R130). -/
  | init (f : CmdFields)
  /-- SEND, OP 0x2 (R204). -/
  | send (f : CmdFields)
  /-- RECV, OP 0x3 (R209). -/
  | recv (f : CmdFields)
  /-- MEM_WRITE, OP 0x4 (R214). -/
  | memWrite (f : CmdFields)
  /-- MEM_READ, OP 0x5 (R219). -/
  | memRead (f : CmdFields)
  /-- RESERVED_OP_0, OP 0x0 (R103). -/
  | reservedOp0 (f : CmdFields)
  /-- RESERVED_OP_6_7, OP 0x6 and 0x7, `low` is OP bit 0 (R103). -/
  | reservedOp67 (low : BitVec 1) (f : CmdFields)
  /-- RESERVED_OP_8_F, OP 0x8 to 0xF, `low` is OP bits 2:0 (R103). -/
  | reservedOp8F (low : BitVec 3) (f : CmdFields)
  /-- START, UOP 0b000 (R151). -/
  | start
  /-- STOP, UOP 0b001 (R153). -/
  | stop
  /-- ACK, UOP 0b010 (R155). -/
  | ack
  /-- NAK, UOP 0b011 (R157). -/
  | nak
  /-- WAIT_ACK, UOP 0b100 (R160). -/
  | waitAck
  /-- SEND_BYTE of `v`, UOP 0b101 with IMM8 = `v` (R180). -/
  | sendByte (v : Byte)
  /-- RECV_BYTE, UOP 0b110 (R182). -/
  | recvByte
  deriving DecidableEq, Repr

/-- A micro-operation as an instruction. -/
def MicroOp.toInstr : MicroOp → Instr
  | .start => .start
  | .stop => .stop
  | .ack => .ack
  | .nak => .nak
  | .waitAck => .waitAck
  | .sendByte v => .sendByte v
  | .recvByte => .recvByte

/-- The two formats of R100 and R108. -/
inductive Format where
  /-- The 32-bit command word written to CMD (R100). -/
  | cmd32
  /-- The 11-bit internal micro-operation word (R108). -/
  | uop11
  deriving DecidableEq, Repr

/-- The format an instruction is encoded in. -/
def Instr.format : Instr → Format
  | .init _ => .cmd32
  | .send _ => .cmd32
  | .recv _ => .cmd32
  | .memWrite _ => .cmd32
  | .memRead _ => .cmd32
  | .reservedOp0 _ => .cmd32
  | .reservedOp67 _ _ => .cmd32
  | .reservedOp8F _ _ => .cmd32
  | .start => .uop11
  | .stop => .uop11
  | .ack => .uop11
  | .nak => .uop11
  | .waitAck => .uop11
  | .sendByte _ => .uop11
  | .recvByte => .uop11

end Sys2Proof
end

