-- ==== Sys2Proof/WellFormed.lean ====
section
/-! DEFINITION. Which instructions the spec calls well formed: the reserved fields are zero (spec/30_encoding.md
R100) and the OP value is not reserved (R103). An instruction that is not well formed still decodes and still
runs: it finishes with E_INVALID_ARGUMENT (R102, R103). -/

namespace Sys2Proof

/-- RES0 of a command must be zero (R100). -/
def CmdFields.res0Zero (f : CmdFields) : Bool := f.res0 == 0

/-- RES1 of a command must be zero (R100). -/
def CmdFields.res1Zero (f : CmdFields) : Bool := f.res1 == 0

/-- Both reserved fields are zero. -/
def CmdFields.wf (f : CmdFields) : Bool := f.res0Zero && f.res1Zero

/-- Well-formed instructions: commands with zero reserved fields and an OP of R101, and the micro-operations,
whose fields admit every value (R108). -/
def Instr.wf : Instr → Bool
  | .init f => f.wf
  | .send f => f.wf
  | .recv f => f.wf
  | .memWrite f => f.wf
  | .memRead f => f.wf
  | .reservedOp0 _ => false
  | .reservedOp67 _ _ => false
  | .reservedOp8F _ _ => false
  | .start => true
  | .stop => true
  | .ack => true
  | .nak => true
  | .waitAck => true
  | .sendByte _ => true
  | .recvByte => true

end Sys2Proof
end

