-- ==== Sys2Proof/Decode.lean ====
section
/-! DEFINITION. The decoder of command words and micro-operation words, total on any bytes, and the encoder
(spec/30_encoding.md R100 to R109). -/

namespace Sys2Proof

/-- Why a word or a run of bytes is no instruction. -/
inductive DecodeError where
  /-- Fewer bytes than the format has. -/
  | truncated
  /-- UOP 0b111, reserved and never generated by the sequencer (R109). -/
  | reservedUop
  /-- IMM8 is zero for every micro-operation but SEND_BYTE (R108). -/
  | immediateNotZero
  /-- A bit above the 11 bits of a micro-operation word is set (R108). -/
  | beyondUopWord
  deriving DecidableEq, Repr

/-- The fields of a command word (R100). -/
def cmdFieldsOf (w : Word) : CmdFields :=
  { res1 := w.extractLsb' 24 8
    reg := w.extractLsb' 16 8
    dev := w.extractLsb' 8 8
    res0 := w.extractLsb' 4 4 }

/-- OP, bits 3:0 (R100). -/
def opOf (w : Word) : BitVec 4 := w.extractLsb' 0 4

/-- The command an OP value selects (R101, R103). -/
def decodeOp (op : BitVec 4) (f : CmdFields) : Instr :=
  if op = 0x0 then .reservedOp0 f
  else if op = 0x1 then .init f
  else if op = 0x2 then .send f
  else if op = 0x3 then .recv f
  else if op = 0x4 then .memWrite f
  else if op = 0x5 then .memRead f
  else if op.extractLsb' 1 3 = 0b011 then .reservedOp67 (op.extractLsb' 0 1) f
  else .reservedOp8F (op.extractLsb' 0 3) f

/-- The command a 32-bit word is: OP alone selects it (R101), so every word is a command. -/
def decodeCmd (w : Word) : Instr := decodeOp (opOf w) (cmdFieldsOf w)

/-- The micro-operation an 11-bit internal word is (R108, R109). -/
def decodeUop (w : BitVec 11) : Except DecodeError MicroOp :=
  let imm : Byte := w.extractLsb' 3 8
  let uop : BitVec 3 := w.extractLsb' 0 3
  if uop = 0b101 then .ok (.sendByte imm)
  else if uop = 0b111 then .error .reservedUop
  else if imm ≠ 0 then .error .immediateNotZero
  else if uop = 0b000 then .ok .start
  else if uop = 0b001 then .ok .stop
  else if uop = 0b010 then .ok .ack
  else if uop = 0b011 then .ok .nak
  else if uop = 0b100 then .ok .waitAck
  else .ok .recvByte

/-- Four bytes as a word, the first the least significant (R71). -/
def wordOfBytes (b0 b1 b2 b3 : Byte) : Word := b3 ++ b2 ++ b1 ++ b0

/-- Two bytes as a 16-bit number, the first the least significant. -/
def halfOfBytes (b0 b1 : Byte) : BitVec 16 := b1 ++ b0

/-- The decoder on bytes: the instruction and the bytes after it. A command word has four bytes (R71, R100); the
11-bit micro-operation word is laid out in two (DESIGN CHOICE, unsafe for nothing the spec observes,
assumption log 12). -/
def decode : Format → List Byte → Except DecodeError (Instr × List Byte)
  | .cmd32, b0 :: b1 :: b2 :: b3 :: rest => .ok (decodeCmd (wordOfBytes b0 b1 b2 b3), rest)
  | .cmd32, _ => .error .truncated
  | .uop11, b0 :: b1 :: rest =>
    let h := halfOfBytes b0 b1
    if h.extractLsb' 11 5 ≠ 0 then .error .beyondUopWord
    else match decodeUop (h.extractLsb' 0 11) with
      | .ok u => .ok (u.toInstr, rest)
      | .error e => .error e
  | .uop11, _ => .error .truncated

/-- A command word from its fields (R100). -/
def cmdWord (op : BitVec 4) (f : CmdFields) : Word :=
  f.res1 ++ f.reg ++ f.dev ++ f.res0 ++ op

/-- A micro-operation's internal word: IMM8 in bits 10:3, UOP in bits 2:0 (R108, R109). -/
def encodeUop : MicroOp → BitVec 11
  | .start => (0 : Byte) ++ 0b000#3
  | .stop => (0 : Byte) ++ 0b001#3
  | .ack => (0 : Byte) ++ 0b010#3
  | .nak => (0 : Byte) ++ 0b011#3
  | .waitAck => (0 : Byte) ++ 0b100#3
  | .sendByte v => v ++ 0b101#3
  | .recvByte => (0 : Byte) ++ 0b110#3

/-- An instruction's encoding as one number, bit 0 the least significant (R101, R103, R109). -/
def encodeNat : Instr → Nat
  | .init f => (cmdWord 0x1 f).toNat
  | .send f => (cmdWord 0x2 f).toNat
  | .recv f => (cmdWord 0x3 f).toNat
  | .memWrite f => (cmdWord 0x4 f).toNat
  | .memRead f => (cmdWord 0x5 f).toNat
  | .reservedOp0 f => (cmdWord 0x0 f).toNat
  | .reservedOp67 low f => (cmdWord (0b011#3 ++ low) f).toNat
  | .reservedOp8F low f => (cmdWord (0b1#1 ++ low) f).toNat
  | .start => (encodeUop .start).toNat
  | .stop => (encodeUop .stop).toNat
  | .ack => (encodeUop .ack).toNat
  | .nak => (encodeUop .nak).toNat
  | .waitAck => (encodeUop .waitAck).toNat
  | .sendByte v => (encodeUop (.sendByte v)).toNat
  | .recvByte => (encodeUop .recvByte).toNat

/-- `n` as `k` bytes, the least significant first (R71). -/
def bytesOfNat : Nat → Nat → List Byte
  | 0, _ => []
  | k + 1, n => BitVec.ofNat 8 n :: bytesOfNat k (n / 256)

/-- How many bytes a format's word is laid out in. -/
def Format.bytes : Format → Nat
  | .cmd32 => 4
  | .uop11 => 2

/-- The encoder: the bytes of an instruction. -/
def encode (i : Instr) : List Byte := bytesOfNat i.format.bytes (encodeNat i)

/-- Which format a row of the opcode table has, from the number of bits the table gives it: the
micro-operation rows are the ones of 9 to 16 bits (11 bits in whole bytes); every other row is a command word
(assumption log 18). -/
def tableFormat (nbits : Nat) : Format :=
  if 8 < nbits ∧ nbits ≤ 16 then .uop11 else .cmd32

/-- What the decoder reads from a table row's word `w`, laid out in bytes as R71 has it. -/
def decodeTableWord (nbits w : Nat) : Option Instr :=
  let fmt := tableFormat nbits
  match decode fmt (bytesOfNat fmt.bytes w) with
  | .ok (i, _) => some i
  | .error _ => none

end Sys2Proof
end

