-- ==== Sys2Proof/Config.lean ====
section
/-! DEFINITION. What the platform fixes (spec/00_scope.md R9) and the free values the spec leaves open
(spec/93_implementation_defined.md). -/

namespace Sys2Proof.Config

/-- A run of byte addresses, `base` up to `base + size - 1`. -/
structure Region where
  base : Nat
  size : Nat
  deriving DecidableEq, Repr

/-- The open parameters of R9. Plain data that no step writes: a statement about every state is a statement
about every platform (assumption log 4). -/
structure Platform where
  /-- `P_BASE`: host address of the register window, 32-byte aligned. -/
  base : Word
  /-- `P_MEM_ADMIT`: the byte addresses the engine's memory port admits, as a list of regions. -/
  admits : List Region
  /-- `P_REFCLK_HZ`: the tick timer's reference clock. Durations are not modelled, so no rule reads it (R9, R264). -/
  refclkHz : Nat
  deriving DecidableEq, Repr

/-- The free value of the `n`-th `Sample()` when the environment has queued no answer for it
(R45: a free draw of the bus environment; 93 P1; assumption log 3). -/
opaque sampleOracle : Nat → Bool

/-- The free choice among the values that the `n`-th race admits (R88; 93 P2; assumption log 10). -/
opaque raceChoice : Nat → Nat

end Sys2Proof.Config
end

