-- ==== Sys2Proof/Machine/State.lean ====
section
/-! DEFINITION. The state of qiic-bme as plain data (spec/10_state.md), the host's accesses and the schedule as
inputs held in it, the faults and refusals, and the state after reset (R56). -/

namespace Sys2Proof.Machine

/-- One event of the bus trace (spec/00_scope.md R13, R15). -/
inductive Event where
  /-- `C<b>`: `SetSCL(b)`. -/
  | setSCL (b : Level)
  /-- `D<b>`: `SetSDA(b)`. -/
  | setSDA (b : Level)
  /-- `w`: `Delay()`, one tick. It carries no duration (R264). -/
  | delay
  /-- `S<b>`: `Sample()` drew `b`. -/
  | sample (b : Level)
  /-- `R[a]=v`: `MemRead(a, 1)` returned `v`. -/
  | memRead (a : Nat) (v : Byte)
  /-- `W[a]=v`: `MemWrite(a, 1, v)`. -/
  | memWrite (a : Nat) (v : Byte)
  deriving DecidableEq, Repr

/-- The outcome of a WAIT_ACK (R43, R160). -/
inductive AckFlag where
  | acknowledged
  | notAcknowledged
  deriving DecidableEq, Repr

/-- MEM_READ's phase (R49): the write phase, or the delegated read. The write-direction transactions run in
`write`, and RECV_BODY in `read`, whether RECV or MEM_READ runs it (DEDUCED, assumption log 22). -/
inductive Phase where
  | write
  | read
  deriving DecidableEq, Repr

/-- The latched command `L` (R48). -/
structure Latched where
  /-- `L.op`, `CMD[3:0]`. -/
  op : BitVec 4
  /-- `L.res` (as `res0` and `res1`), `L.dev`, `L.reg`. -/
  f : CmdFields
  /-- `L.freq`, from FREQ. -/
  freq : Word
  /-- `L.buf`, from BUF. -/
  buf : Word
  /-- `L.count`, from COUNT. -/
  count : Word
  deriving DecidableEq, Repr

/-- Where in the transaction procedures a micro-operation is called from (R205, R210, R215, R220). -/
inductive CallSite where
  /-- `START()` that opens the current phase. -/
  | start
  /-- `SEND_BYTE` of the address byte. -/
  | addr
  /-- `WAIT_ACK()` after the address byte. -/
  | addrAck
  /-- `SEND_BYTE(L.reg)`. -/
  | reg
  /-- `WAIT_ACK()` after the register-offset byte. -/
  | regAck
  /-- `SEND_BYTE` of data byte `i`. -/
  | data
  /-- `WAIT_ACK()` after data byte `i`. -/
  | dataAck
  /-- `RECV_BYTE()` of data byte `i`. -/
  | recv
  /-- `ACK()` after received byte `i`. -/
  | ackSig
  /-- `NAK()` after the last received byte. -/
  | nakSig
  /-- The `STOP()` that ends MEM_READ's write phase (R225). -/
  | midStop
  /-- The `STOP()` before `return ret`. -/
  | lastStop (ret : Word)
  /-- No procedure: a lone micro-operation, which the spec lets no host write issue (R107). Only
  `State.withFetchWord` makes this position (assumption log 12). -/
  | bare
  deriving DecidableEq, Repr

/-- The sequencer position (R49, R50): which step runs next. -/
inductive Pos where
  /-- The engine is idle. -/
  | idle
  /-- A command is accepted and has taken no step (R252). -/
  | dispatch
  /-- INIT's configuration step (R132). -/
  | initConfig
  /-- INIT's `SetSCL(1)` (R133). -/
  | initSCL
  /-- INIT's `SetSDA(1)` (R133). -/
  | initSDA
  /-- Step `sub` of the current bit (working register `k`) of the micro-operation with internal word `w`,
  called from `site`. -/
  | micro (w : BitVec 11) (sub : Nat) (site : CallSite)
  /-- `MemRead(L.buf + i, 1)`. -/
  | memRead
  /-- `MemWrite(L.buf + i, 1, acc)`. -/
  | memWrite
  /-- `finish(ret)` (R14). -/
  | finish (ret : Word)
  deriving DecidableEq, Repr

/-- One access of the host agent (R42, R51, R110). -/
inductive HostAct where
  /-- `WR`: a store of `width` bytes at host address `a` into the register window. -/
  | store (a : Word) (width : Nat) (v : Word)
  /-- `RD`: a load of `width` bytes at host address `a` from the register window. -/
  | load (a : Word) (width : Nat)
  /-- A store of one byte to system memory (DESIGN CHOICE byte-wide, assumption log 14). -/
  | memStore (a : Word) (v : Byte)
  /-- A load of one byte from system memory. -/
  | memLoad (a : Word)
  /-- `POLL`: repeat `RD STATUS` until BUSY = 0 (R110, assumption log 16). -/
  | poll
  deriving DecidableEq, Repr

/-- Who moves next. The list of turns is the single total order of R84 as plain data (assumption log 1). -/
inductive Turn where
  /-- The host agent makes one access. -/
  | host (act : HostAct)
  /-- The engine takes one engine step (R50). -/
  | engine
  /-- The engine runs the whole instruction it stands at, with no host step between (assumption log 2). -/
  | instr
  /-- The platform asserts reset (R280). -/
  | reset
  deriving DecidableEq, Repr

/-- Why the machine stops with a fault. -/
inductive Fault where
  /-- A host write to CMD while BUSY = 1 (R290, 93 U1): raised by the host's register store. Safe: the run is
  refuted, and no claim covers what follows. -/
  | cmdWriteWhileBusy
  /-- The sequencer holds a word that is no micro-operation (UOP 0b111, or IMM8 on another micro-operation than
  SEND_BYTE): raised by the engine's step (93 P10). Safe: no run from reset reaches it. -/
  | malformedMicroOp
  deriving DecidableEq, Repr

/-- Why a step has no meaning in the model. -/
inductive Refusal where
  /-- An instruction without a meaning yet: raised by no arm, since every instruction has one. Safe. -/
  | notModelled (mnemonic : String)
  deriving DecidableEq, Repr

/-- The state of the machine (spec/10_state.md), with the inputs of the other agents as plain data. -/
structure State where
  /-- CMD (R32). -/
  cmd : Word
  /-- STATUS.BUSY (R34). -/
  busy : Bool
  /-- STATUS.READY (R34). -/
  ready : Bool
  /-- FREQ (R35). -/
  freq : Word
  /-- TICK (R36). -/
  tick : Word
  /-- BUF (R37). -/
  buf : Word
  /-- COUNT (R38). -/
  count : Word
  /-- RESULT (R39). -/
  result : Word
  /-- `scl_o` (R44, R46). -/
  sclO : Level
  /-- `sda_o` (R44, R46). -/
  sdaO : Level
  /-- The latched command `L` (R48). -/
  latch : Latched
  /-- The sequencer position (R49, R50). -/
  pos : Pos
  /-- The bit index (R49). -/
  k : Nat
  /-- The byte index (R49). -/
  i : Nat
  /-- The receive accumulator (R49, R182). -/
  acc : Byte
  /-- The outcome of the most recent WAIT_ACK (R43). -/
  ack : AckFlag
  /-- MEM_READ's phase (R49). -/
  phase : Phase
  /-- The inner result of MEM_READ's delegated read (R49, R220). -/
  r : Word
  /-- System memory (R51), in canonical form. -/
  mem : List Host.Cell
  /-- The bus trace, oldest event first (R13). -/
  trace : List Event
  /-- The environment's answers to the samples to come, in order (R45, assumption log 3). -/
  sdaIn : List Level
  /-- How many samples were taken. -/
  drawn : Nat
  /-- Earlier values of buffer bytes written while the command runs, newest first (R88, assumption log 10). -/
  raced : List Host.Cell
  /-- How many races were resolved. -/
  races : Nat
  /-- The schedule: whose turn it is (R84, assumption log 1). -/
  turns : List Turn
  /-- The words the host's loads returned, oldest first. -/
  reads : List Word
  /-- The host agent is stuck at an access that is not admitted (R72, assumption log 9). -/
  hostStuck : Bool
  /-- The platform's parameters (R9). -/
  plat : Config.Platform
  deriving DecidableEq, Repr

/-- No command is latched: L holds no value (R56); the model names zero (DESIGN CHOICE, unsafe, assumption log 6). -/
def Latched.none : Latched :=
  { op := 0, f := { res1 := 0, reg := 0, dev := 0, res0 := 0 }, freq := 0, buf := 0, count := 0 }

/-- A platform for the state after reset: the whole 32-bit space is admitted (DESIGN CHOICE, unsafe, assumption
log 4). -/
def defaultPlatform : Config.Platform :=
  { base := 0x40000000, admits := [{ base := 0, size := 2 ^ 32 }], refclkHz := 1000000 }

/-- The machine right after reset (R54, R56): every register 0, both lines HIGH, the engine idle, the trace
empty. The working registers hold no value after reset (R56); the model names one (assumption log 6). -/
def State.reset : State :=
  { cmd := 0, busy := false, ready := false, freq := 0, tick := 0, buf := 0, count := 0, result := 0
    sclO := HIGH, sdaO := HIGH
    latch := Latched.none, pos := .idle, k := 0, i := 0, acc := 0, ack := .notAcknowledged
    phase := .write, r := 0
    mem := [], trace := []
    sdaIn := [], drawn := 0, raced := [], races := 0
    turns := [], reads := [], hostStuck := false
    plat := defaultPlatform }

end Sys2Proof.Machine
end

