-- ==== Sys2Proof/Machine/Flags.lean ====
section
/-! DEFINITION. The flags: the outcome of WAIT_ACK (spec/10_state.md R43) and the STATUS word (R34). No command has
a carry, zero or overflow flag (R43). -/

namespace Sys2Proof.Machine

/-- WAIT_ACK's outcome from its sample: 0 is ACKNOWLEDGED, 1 is NOT-ACKNOWLEDGED (R160). -/
def ackOf (b : Level) : AckFlag :=
  if b = LOW then .acknowledged else .notAcknowledged

/-- The STATUS word: BUSY in bit 0, READY in bit 1, bits 31:2 zero (R34). -/
def statusWord (busy ready : Bool) : Word :=
  (0 : BitVec 30) ++ BitVec.ofBool ready ++ BitVec.ofBool busy

end Sys2Proof.Machine
end

