-- ==== Sys2Proof/Machine/Operands.lean ====
section
/-! DEFINITION. Operand assembly: OP values, address bytes, the tick formula, the argument check, effective
addresses and result codes (spec/30_encoding.md R104 to R106, spec/40_init.md, spec/43_transactions.md R200). -/

namespace Sys2Proof.Machine

/-! ### OP values (R101) -/

/-- OP of INIT. -/
def opInit : BitVec 4 := 0x1
/-- OP of SEND. -/
def opSend : BitVec 4 := 0x2
/-- OP of RECV. -/
def opRecv : BitVec 4 := 0x3
/-- OP of MEM_WRITE. -/
def opMemWrite : BitVec 4 := 0x4
/-- OP of MEM_READ. -/
def opMemRead : BitVec 4 := 0x5

/-! ### Result codes (R250) -/

/-- -1: malformed command. -/
def eInvalidArgument : Word := 0xFFFFFFFF
/-- -2: address byte not acknowledged (fail A). -/
def eNoAckAddr : Word := 0xFFFFFFFE
/-- -3: register-offset byte not acknowledged (fail B). -/
def eNoAckReg : Word := 0xFFFFFFFD
/-- -4: a data byte not acknowledged (SEND data phase, MEM_WRITE fail C). -/
def eNoAckData : Word := 0xFFFFFFFC
/-- -5: MEM_READ fail C. -/
def eShortRead : Word := 0xFFFFFFFB

/-! ### Address bytes (R104) -/

/-- `addr_w = L.dev & 0xFE`. -/
def addrW (dev : Byte) : Byte := dev &&& 0xFE

/-- `addr_r = L.dev | 0x01`. -/
def addrR (dev : Byte) : Byte := dev ||| 0x01

/-- The address byte of a phase: write direction or read direction (R104). -/
def addressByte : Phase → Byte → Byte
  | .write, dev => addrW dev
  | .read, dev => addrR dev

/-! ### INIT (R131, R132) -/

/-- `1 <= L.freq <= 250000` (R131). -/
def freqLegal (f : Word) : Bool := f != 0 && decide (f.toNat ≤ 250000)

/-- `(1000000 div f) div 4`, unsigned, truncated toward zero (R132). -/
def tickOf (f : Word) : Word := (1000000#32 / f) / 4#32

/-! ### The argument check (R200) -/

/-- CHECK_ARGS: the sum is exact, so the buffer may not wrap (R200). -/
def argsOk (ready : Bool) (buf count : Word) : Bool :=
  if ready = false then false
  else if buf = 0 then false
  else if count = 0 then false
  else if count.toNat > 0x7FFFFFFF then false
  else if buf.toNat + count.toNat > 2 ^ 32 then false
  else true

/-! ### Effective addresses (R74, R75, R81) -/

/-- The address of buffer byte `i`: `L.buf + i`, without wrap-around (R75). -/
def effAddr (buf : Word) (i : Nat) : Nat := buf.toNat + i

/-- The address lies in the region. -/
def inRegion (g : Config.Region) (a : Nat) : Bool :=
  decide (g.base ≤ a) && decide (a < g.base + g.size)

/-- `P_MEM_ADMIT`: whether the memory port admits an access at the byte address; addresses have 32 bits
(R9, R51, R81). -/
def portAdmits (p : Config.Platform) (a : Nat) : Bool :=
  decide (a < 2 ^ 32) && p.admits.any (fun g => inRegion g a)

end Sys2Proof.Machine
end

