-- ==== Sys2Proof/Machine/Ops.lean ====
section
/-! DEFINITION. The named operations over memory, pins, samples and the command lifecycle, and the bus sequences
every instruction is built from (spec/00_scope.md R13, R14, spec/41_primitives.md, spec/42_byte_shift.md,
spec/60_exceptions.md R252, R255). -/

namespace Sys2Proof.Machine

/-! ### Bytes of system memory -/

/-- What a byte that nothing has written reads as (DESIGN CHOICE, unsafe: the spec gives no contents; assumption
log 5). -/
def unlistedByte : Byte := 0

/-- The byte at address `a`. -/
def Memory.read : List Host.Cell → Nat → Byte
  | [], _ => unlistedByte
  | (b, v) :: rest, a => if b = a then v else Memory.read rest a

/-- Put byte `v` at address `a`, keeping the addresses rising and no entry at the unlisted value. -/
def Memory.write : List Host.Cell → Nat → Byte → List Host.Cell
  | [], a, v => if v = unlistedByte then [] else [(a, v)]
  | (b, w) :: rest, a, v =>
    if a < b then (if v = unlistedByte then (b, w) :: rest else (a, v) :: (b, w) :: rest)
    else if a = b then (if v = unlistedByte then rest else (a, v) :: rest)
    else (b, w) :: Memory.write rest a v

/-- The canonical form above a lower bound: addresses strictly rising from `lo` on, below 2^32 (R51), and no entry
at the unlisted value. -/
def Memory.wfFrom (lo : Nat) : List Host.Cell → Bool
  | [] => true
  | (a, v) :: rest =>
    decide (lo ≤ a) && decide (a < 2 ^ 32) && (v != unlistedByte) && Memory.wfFrom (a + 1) rest

/-- The canonical form of memory. -/
def Memory.wf (m : List Host.Cell) : Bool := Memory.wfFrom 0 m

/-! ### Event primitives (R13): each appends exactly one event to the bus trace -/

/-- Append one event to the bus trace. -/
def emit (e : Event) (s : State) : State := { s with trace := s.trace ++ [e] }

/-- `SetSCL(b)`. -/
def setSCL (b : Level) (s : State) : State := emit (.setSCL b) { s with sclO := b }

/-- `SetSDA(b)`. -/
def setSDA (b : Level) (s : State) : State := emit (.setSDA b) { s with sdaO := b }

/-- `Delay()`: one tick, an event without a duration (R264). -/
def delay (s : State) : State := emit .delay s

/-- The bit the environment answers to the next sample but `j`: its queued answer, or the free value (R45). -/
def drawAt (s : State) (j : Nat) : Level :=
  (s.sdaIn[j]?).getD (Config.sampleOracle (s.drawn + j))

/-- The environment's answers move on by one. -/
def takeDraw (s : State) : State := { s with sdaIn := s.sdaIn.tail, drawn := s.drawn + 1 }

/-- `Sample()`: read `sda_i` once (R45). -/
def sample (s : State) : Level × State :=
  (drawAt s 0, emit (.sample (drawAt s 0)) (takeDraw s))

/-- The earlier values of byte `a` since the running command was accepted (R88). -/
def racedValues (a : Nat) (s : State) : List Byte :=
  (s.raced.filter (fun c => c.1 == a)).map (fun c => c.2)

/-- One of the values a race admits, by a free choice (R88). -/
def pickRaced (n : Nat) (now : Byte) (others : List Byte) : Byte :=
  ((now :: others)[Config.raceChoice n % (others.length + 1)]?).getD now

/-- The byte an access sees and the state after resolving the race, if there is one: `others` are the other
values admitted (R88, assumption log 10). -/
def resolveRace (now : Byte) (others : List Byte) (s : State) : Byte × State :=
  match others with
  | [] => (now, s)
  | v :: vs => (pickRaced s.races now (v :: vs), { s with races := s.races + 1 })

/-- `MemRead(a, 1)` at an admitted address (R13, R70). -/
def memReadByte (a : Nat) (s : State) : Byte × State :=
  let (v, t) := resolveRace (Memory.read s.mem a) (racedValues a s) s
  (v, emit (.memRead a v) t)

/-- `MemWrite(a, 1, v)` at an admitted address (R13, R70). The byte's earlier value is kept for a racing host read
(R88). -/
def memWriteByte (a : Nat) (v : Byte) (s : State) : State :=
  emit (.memWrite a v)
    { s with mem := Memory.write s.mem a v, raced := (a, Memory.read s.mem a) :: s.raced }

/-! ### Steps of the micro-operations -/

/-- One step of a micro-operation: one event, with what happens in the same step. -/
inductive Prim where
  | scl (b : Level)
  | sda (b : Level)
  | delay
  /-- WAIT_ACK's `b <- Sample()`, and `ack` from it (R160; DEDUCED: no step stands between, assumption log 13). -/
  | sampleAck
  /-- RECV_BYTE's `b <- Sample()`, and `acc <- ((acc << 1) | b)[7:0]` (R182). -/
  | sampleBit
  deriving DecidableEq, Repr

/-- `((acc << 1) | b)[7:0]` (R182). -/
def shiftIn (acc : Byte) (b : Level) : Byte := (acc <<< 1) ||| (BitVec.ofBool b).setWidth 8

/-- Run one step. -/
def Prim.run : Prim → State → State
  | .scl b, s => setSCL b s
  | .sda b, s => setSDA b s
  | .delay, s => Machine.delay s
  | .sampleAck, s => let (b, t) := sample s; { t with ack := ackOf b }
  | .sampleBit, s => let (b, t) := sample s; { t with acc := shiftIn t.acc b }

/-- Run steps in order. -/
def runPrims : List Prim → State → State
  | [], s => s
  | p :: ps, s => runPrims ps (p.run s)

/-- START (R151). -/
def startSteps : List Prim :=
  [.scl HIGH, .delay, .sda HIGH, .delay, .sda LOW, .delay, .scl LOW, .delay]

/-- STOP (R153). -/
def stopSteps : List Prim :=
  [.scl LOW, .delay, .sda LOW, .delay, .scl HIGH, .delay, .sda HIGH, .delay]

/-- ACK (R155). -/
def ackSteps : List Prim :=
  [.scl LOW, .delay, .sda LOW, .delay, .scl HIGH, .delay, .scl LOW, .delay]

/-- NAK (R157). -/
def nakSteps : List Prim :=
  [.scl LOW, .delay, .sda HIGH, .delay, .scl HIGH, .delay, .scl LOW, .delay]

/-- WAIT_ACK (R160). -/
def waitAckSteps : List Prim :=
  [.sda HIGH, .delay, .scl HIGH, .delay, .sampleAck, .delay, .scl LOW, .delay]

/-- SEND_BYTE's steps for bit `k` of `v` (R180). -/
def sendBitSteps (v : Byte) (k : Nat) : List Prim :=
  [.sda (v.getLsbD k), .delay, .scl HIGH, .delay, .scl LOW, .delay]

/-- RECV_BYTE's steps for one bit (R182). -/
def recvBitSteps : List Prim :=
  [.scl LOW, .delay, .scl HIGH, .sampleBit, .delay]

/-- The steps of a micro-operation at bit index `k`; the bus signals have one pass (R150, R180, R182). -/
def bitSteps : MicroOp → Nat → List Prim
  | .start, _ => startSteps
  | .stop, _ => stopSteps
  | .ack, _ => ackSteps
  | .nak, _ => nakSteps
  | .waitAck, _ => waitAckSteps
  | .sendByte v, k => sendBitSteps v k
  | .recvByte, _ => recvBitSteps

/-- The bit index a micro-operation starts from: 7 down to 0 for the byte operations (R180, R182). -/
def topBit : MicroOp → Nat
  | .start => 0
  | .stop => 0
  | .ack => 0
  | .nak => 0
  | .waitAck => 0
  | .sendByte _ => 7
  | .recvByte => 7

/-! ### The micro-operations as wholes -/

/-- `START()` (R151). -/
def busStart (s : State) : State := runPrims startSteps s

/-- `STOP()` (R153). -/
def busStop (s : State) : State := runPrims stopSteps s

/-- `ACK()` (R155). -/
def busAck (s : State) : State := runPrims ackSteps s

/-- `NAK()` (R157). -/
def busNak (s : State) : State := runPrims nakSteps s

/-- `WAIT_ACK()` (R160). -/
def busWaitAck (s : State) : State := runPrims waitAckSteps s

/-- SEND_BYTE's loop from bit `k` down to bit 0 (R180). -/
def sendBits (v : Byte) : Nat → State → State
  | 0, s => runPrims (sendBitSteps v 0) s
  | k + 1, s => sendBits v k (runPrims (sendBitSteps v (k + 1)) s)

/-- `SEND_BYTE(v)`, most-significant bit first (R180). -/
def busSendByte (v : Byte) (s : State) : State := sendBits v 7 s

/-- RECV_BYTE's loop from bit `k` down to bit 0 (R182). -/
def recvBits : Nat → State → State
  | 0, s => runPrims recvBitSteps s
  | k + 1, s => recvBits k (runPrims recvBitSteps s)

/-- `RECV_BYTE()`, most-significant bit first; the byte is left in `acc` (R182). -/
def busRecvByte (s : State) : State := recvBits 7 { s with acc := 0 }

/-! ### The command lifecycle (R252) -/

/-- The latched command a CMD write captures (R48). -/
def latchOf (w freq buf count : Word) : Latched :=
  { op := opOf w, f := cmdFieldsOf w, freq := freq, buf := buf, count := count }

/-- Acceptance: `CMD <- w`, `L` latched, `STATUS.BUSY <- 1`, in one step with no bus event (R252). -/
def acceptCommand (w : Word) (s : State) : State :=
  { s with cmd := w, latch := latchOf w s.freq s.buf s.count, busy := true, pos := .dispatch, raced := [] }

/-- `finish(r)`: `RESULT <- r` and `STATUS.BUSY <- 0` in one step (R14, R252). The working state is not live from
then on (R49); the model clears it (DESIGN CHOICE, not observable, assumption log 7). -/
def finishCommand (res : Word) (s : State) : State :=
  { s with result := res, busy := false, pos := .idle, k := 0, i := 0, phase := .write, r := 0, raced := [] }

/-- How a procedure ends: it returns a result (R14), or the engine has no step at a memory access its port does not
admit (R81). -/
inductive Flow where
  | ret (res : Word) (s : State)
  | stuck (s : State)
  deriving DecidableEq, Repr

/-- The engine stands at the access that is not admitted: BUSY stays 1 and no `finish` happens (R81, assumption
log 8). -/
def stuckAt (p : Pos) (ph : Phase) (i : Nat) (s : State) : Flow :=
  .stuck { s with pos := p, k := 0, i := i, phase := ph }

/-- The abort, the analogue of taking an exception (R255): exactly one STOP right after the failing WAIT_ACK, then
`code` is returned (R14), which the dispatcher's `finish` writes to RESULT. -/
def abortNoAck (code : Word) (s : State) : Flow := .ret code (busStop s)

/-- The dispatcher's `finish` of what a procedure returned (R253). -/
def finishFlow : Flow → State
  | .ret res s => finishCommand res s
  | .stuck s => s

/-- The dispatcher (R253): a command with a reserved bit set finishes at once (R102), before every other check
(R254). -/
def dispatchCommand (f : CmdFields) (proc : State → Flow) (s : State) : State :=
  if f.reserved then finishCommand eInvalidArgument s else finishFlow (proc s)

/-- Reset (R54, R280): every register and pin at its value of R56, the engine idle, the trace empty, a running
command abandoned with no `finish`. System memory, the environment, the platform and the host agent are not the
block's (DEDUCED, assumption log 15). -/
def resetBlock (s : State) : State :=
  { State.reset with
    mem := s.mem, sdaIn := s.sdaIn, drawn := s.drawn, races := s.races
    turns := s.turns, reads := s.reads, hostStuck := s.hostStuck, plat := s.plat }

end Sys2Proof.Machine
end

