-- ==== Sys2Proof/Machine/Init.lean ====
section
/-! DEFINITION. INIT (spec/40_init.md). -/

namespace Sys2Proof.Machine

/-- INIT's configuration step: TICK and READY in one step, with no bus event (R132). -/
def initConfigure (s : State) : State := { s with tick := tickOf s.latch.freq, ready := true }

/-- INIT's procedure (R130): the frequency check (R131), the configuration step (R132), then both lines HIGH, the
clock first, with no delay (R133). -/
def initProc (s : State) : Flow :=
  if freqLegal s.latch.freq then .ret 0 (setSDA HIGH (setSCL HIGH (initConfigure s)))
  else .ret eInvalidArgument s

/-- INIT (R130). -/
def execInit (f : CmdFields) (s : State) : Host.Outcome State Fault Refusal :=
  .next (dispatchCommand f initProc s)

end Sys2Proof.Machine
end

