-- ==== Sys2Proof/Machine/Micro.lean ====
section
/-! DEFINITION. The meanings of the seven micro-operations (spec/41_primitives.md, spec/42_byte_shift.md): each
runs all its steps; where control goes next is the sequencer's (Machine/Engine.lean). -/

namespace Sys2Proof.Machine

/-- START (R151). -/
def execStart (s : State) : Host.Outcome State Fault Refusal := .next (busStart s)

/-- STOP (R153). -/
def execStop (s : State) : Host.Outcome State Fault Refusal := .next (busStop s)

/-- ACK (R155). -/
def execAck (s : State) : Host.Outcome State Fault Refusal := .next (busAck s)

/-- NAK (R157). -/
def execNak (s : State) : Host.Outcome State Fault Refusal := .next (busNak s)

/-- WAIT_ACK (R160). -/
def execWaitAck (s : State) : Host.Outcome State Fault Refusal := .next (busWaitAck s)

/-- SEND_BYTE (R180). -/
def execSendByte (v : Byte) (s : State) : Host.Outcome State Fault Refusal := .next (busSendByte v s)

/-- RECV_BYTE (R182). -/
def execRecvByte (s : State) : Host.Outcome State Fault Refusal := .next (busRecvByte s)

end Sys2Proof.Machine
end

