-- ==== Sys2Proof/Machine/Reserved.lean ====
section
/-! DEFINITION. The reserved OP values (spec/30_encoding.md R103): accepted like any other command, they finish
with E_INVALID_ARGUMENT, with no event. -/

namespace Sys2Proof.Machine

/-- The procedure of every reserved OP (R103, R253). -/
def reservedProc (s : State) : Flow := .ret eInvalidArgument s

/-- OP 0x0 (R103). -/
def execReservedOp0 (f : CmdFields) (s : State) : Host.Outcome State Fault Refusal :=
  .next (dispatchCommand f reservedProc s)

/-- OP 0x6 and 0x7 (R103). -/
def execReservedOp67 (_low : BitVec 1) (f : CmdFields) (s : State) : Host.Outcome State Fault Refusal :=
  .next (dispatchCommand f reservedProc s)

/-- OP 0x8 to 0xF (R103). -/
def execReservedOp8F (_low : BitVec 3) (f : CmdFields) (s : State) : Host.Outcome State Fault Refusal :=
  .next (dispatchCommand f reservedProc s)

end Sys2Proof.Machine
end

