-- ==== Sys2Proof/Machine/Transactions.lean ====
section
/-! DEFINITION. The four transactions SEND, RECV, MEM_WRITE and MEM_READ (spec/43_transactions.md). -/

namespace Sys2Proof.Machine

/-- CHECK_ARGS, then the rest (R200): a failing check returns E_INVALID_ARGUMENT with no event (R201). -/
def checked (body : State → Flow) (s : State) : Flow :=
  if argsOk s.ready s.latch.buf s.latch.count then body s else .ret eInvalidArgument s

/-- `SEND_BYTE(v)` and its `WAIT_ACK()` (R161): abort with `code` on NOT-ACKNOWLEDGED (R255), else the rest. -/
def handshake (v : Byte) (code : Word) (rest : State → Flow) (s : State) : Flow :=
  let t := busWaitAck (busSendByte v s)
  match t.ack with
  | .notAcknowledged => abortNoAck code t
  | .acknowledged => rest t

/-- The data bytes `i`, `i + 1`, … of SEND and MEM_WRITE, `n` of them, then STOP (R205, R215). -/
def sendLoop : Nat → Nat → State → Flow
  | 0, _, s => .ret s.latch.count (busStop s)
  | n + 1, i, s =>
    if portAdmits s.plat (effAddr s.latch.buf i) then
      let (v, t) := memReadByte (effAddr s.latch.buf i) s
      handshake v eNoAckData (sendLoop n (i + 1)) t
    else stuckAt .memRead .write i s

/-- The data bytes `i`, `i + 1`, … of RECV, `n` of them, then STOP: ACK after every byte but the last, NAK after
the last (R210). -/
def recvLoop : Nat → Nat → State → Flow
  | 0, _, s => .ret s.latch.count (busStop s)
  | n + 1, i, s =>
    let t := busRecvByte s
    if portAdmits t.plat (effAddr t.latch.buf i) then
      let u := memWriteByte (effAddr t.latch.buf i) t.acc t
      recvLoop n (i + 1) (if i + 1 < u.latch.count.toNat then busAck u else busNak u)
    else stuckAt .memWrite .read i t

/-- SEND (R205). -/
def sendProc (f : CmdFields) : State → Flow :=
  checked fun s =>
    handshake (addressByte .write f.dev) eNoAckAddr (sendLoop s.latch.count.toNat 0) (busStart s)

/-- RECV_BODY (R210). -/
def recvBody (f : CmdFields) (s : State) : Flow :=
  handshake (addressByte .read f.dev) eNoAckAddr (recvLoop s.latch.count.toNat 0) (busStart s)

/-- RECV (R210). -/
def recvProc (f : CmdFields) : State → Flow := checked (recvBody f)

/-- MEM_WRITE (R215). -/
def memWriteProc (f : CmdFields) : State → Flow :=
  checked fun s =>
    handshake (addressByte .write f.dev) eNoAckAddr
      (handshake f.reg eNoAckReg (sendLoop s.latch.count.toNat 0)) (busStart s)

/-- `if r != L.count: return E_SHORT_READ` (R220). -/
def shortReadResult (r count : Word) : Word := if r = count then count else eShortRead

/-- What MEM_READ returns from its delegated read (R220, R222). -/
def afterDelegated : Flow → Flow
  | .ret r s => .ret (shortReadResult r s.latch.count) s
  | .stuck s => .stuck s

/-- MEM_READ (R220): the write phase with its own STOP (R225), then a full RECV, its CHECK_ARGS included (R221). -/
def memReadProc (f : CmdFields) : State → Flow :=
  checked fun s =>
    handshake (addressByte .write f.dev) eNoAckAddr
      (handshake f.reg eNoAckReg (fun t => afterDelegated (recvProc f (busStop t)))) (busStart s)

/-- SEND (R204). -/
def execSend (f : CmdFields) (s : State) : Host.Outcome State Fault Refusal :=
  .next (dispatchCommand f (sendProc f) s)

/-- RECV (R209). -/
def execRecv (f : CmdFields) (s : State) : Host.Outcome State Fault Refusal :=
  .next (dispatchCommand f (recvProc f) s)

/-- MEM_WRITE (R214). -/
def execMemWrite (f : CmdFields) (s : State) : Host.Outcome State Fault Refusal :=
  .next (dispatchCommand f (memWriteProc f) s)

/-- MEM_READ (R219). -/
def execMemRead (f : CmdFields) (s : State) : Host.Outcome State Fault Refusal :=
  .next (dispatchCommand f (memReadProc f) s)

end Sys2Proof.Machine
end

