-- ==== Sys2Proof/Machine/Dispatch.lean ====
section
/-! DEFINITION. What each instruction does, one arm per constructor (spec/60_exceptions.md R253). A command's arm
runs its execution and completion (R252) from the accepted state; a micro-operation's arm runs its steps. -/

namespace Sys2Proof.Machine

def exec (i : Instr) (s : State) : Host.Outcome State Fault Refusal :=
  match i with
  | .init f => Sys2Proof.Machine.execInit f s
  | .send f => Sys2Proof.Machine.execSend f s
  | .recv f => Sys2Proof.Machine.execRecv f s
  | .memWrite f => Sys2Proof.Machine.execMemWrite f s
  | .memRead f => Sys2Proof.Machine.execMemRead f s
  | .reservedOp0 f => Sys2Proof.Machine.execReservedOp0 f s
  | .reservedOp67 low f => Sys2Proof.Machine.execReservedOp67 low f s
  | .reservedOp8F low f => Sys2Proof.Machine.execReservedOp8F low f s
  | .start => Sys2Proof.Machine.execStart s
  | .stop => Sys2Proof.Machine.execStop s
  | .ack => Sys2Proof.Machine.execAck s
  | .nak => Sys2Proof.Machine.execNak s
  | .waitAck => Sys2Proof.Machine.execWaitAck s
  | .sendByte v => Sys2Proof.Machine.execSendByte v s
  | .recvByte => Sys2Proof.Machine.execRecvByte s

end Sys2Proof.Machine
end

