-- ==== Sys2Proof/Machine/Engine.lean ====
section
/-! DEFINITION. The sequencer event by event: one engine step is one event of spec/00_scope.md R13, INIT's
configuration step, or `finish` (spec/10_state.md R50). Host steps may stand between any two (spec/60_exceptions.md
R252). -/

namespace Sys2Proof.Machine

/-- The engine goes to a position outside a micro-operation. -/
def goto (p : Pos) (s : State) : State := { s with pos := p, k := 0 }

/-- A procedure calls a micro-operation from `site`: its steps run next, in place (R14). -/
def issue (u : MicroOp) (site : CallSite) (s : State) : State :=
  { s with pos := .micro (encodeUop u) 0 site, k := topBit u }

/-- A transaction's first call: START in phase `ph`, byte index 0 (R205, R210, R215, R220). -/
def beginTransaction (ph : Phase) (s : State) : State :=
  issue .start .start { s with phase := ph, i := 0 }

/-- After CHECK_ARGS: the first call, or `finish` with E_INVALID_ARGUMENT (R200, R201). -/
def enterTransaction (ph : Phase) (s : State) : State :=
  if argsOk s.ready s.latch.buf s.latch.count then beginTransaction ph s
  else goto (.finish eInvalidArgument) s

/-- The dispatcher's checks, which take no step of their own (R253, R254): where the engine stands for the first
step of the accepted command. -/
def dispatchPos (s : State) : State :=
  if s.latch.f.reserved then goto (.finish eInvalidArgument) s
  else match decodeOp s.latch.op s.latch.f with
    | .init _ => if freqLegal s.latch.freq then goto .initConfig s else goto (.finish eInvalidArgument) s
    | .send _ => enterTransaction .write s
    | .recv _ => enterTransaction .read s
    | .memWrite _ => enterTransaction .write s
    | .memRead _ => enterTransaction .write s
    | .reservedOp0 _ => goto (.finish eInvalidArgument) s
    | .reservedOp67 _ _ => goto (.finish eInvalidArgument) s
    | .reservedOp8F _ _ => goto (.finish eInvalidArgument) s
    | .start => goto (.finish eInvalidArgument) s
    | .stop => goto (.finish eInvalidArgument) s
    | .ack => goto (.finish eInvalidArgument) s
    | .nak => goto (.finish eInvalidArgument) s
    | .waitAck => goto (.finish eInvalidArgument) s
    | .sendByte _ => goto (.finish eInvalidArgument) s
    | .recvByte => goto (.finish eInvalidArgument) s

/-- A handshake that failed: exactly one STOP, then return `code` (R255). -/
def enterAbort (code : Word) (s : State) : State := issue .stop (.lastStop code) s

/-- The address byte was acknowledged (R205, R210, R215, R220). -/
def afterAddress (s : State) : State :=
  match s.phase with
  | .read => issue .recvByte .recv s
  | .write => if s.latch.op = opSend then goto .memRead s else issue (.sendByte s.latch.f.reg) .reg s

/-- The register-offset byte was acknowledged (R215, R220). -/
def afterRegister (s : State) : State :=
  if s.latch.op = opMemRead then issue .stop .midStop s else goto .memRead s

/-- Data byte `i` was sent and acknowledged (R205, R215). -/
def afterDataSent (s : State) : State :=
  if s.i + 1 < s.latch.count.toNat then goto .memRead { s with i := s.i + 1 }
  else issue .stop (.lastStop s.latch.count) { s with i := s.i + 1 }

/-- A transaction procedure returns `ret` after its STOP: to the dispatcher, or, for the delegated read, to
MEM_READ, which compares it with the count (R220). -/
def afterReturn (ret : Word) (s : State) : State :=
  if s.latch.op = opMemRead ∧ s.phase = .read then
    goto (.finish (shortReadResult ret s.latch.count)) { s with r := ret }
  else goto (.finish ret) s

/-- MEM_READ's write phase has ended with its own STOP: the delegated RECV with its CHECK_ARGS (R220, R221, R225). -/
def afterMidStop (s : State) : State :=
  if argsOk s.ready s.latch.buf s.latch.count then beginTransaction .read s
  else goto (.finish (shortReadResult eInvalidArgument s.latch.count)) { s with phase := .read, r := eInvalidArgument }

/-- Where control goes when the micro-operation called from `site` is done: the transaction sequences branch on
`ack` at once (R43), and no step is taken. -/
def advance (site : CallSite) (s : State) : State :=
  match site with
  | .start => issue (.sendByte (addressByte s.phase s.latch.f.dev)) .addr s
  | .addr => issue .waitAck .addrAck s
  | .addrAck =>
    match s.ack with
    | .notAcknowledged => enterAbort eNoAckAddr s
    | .acknowledged => afterAddress s
  | .reg => issue .waitAck .regAck s
  | .regAck =>
    match s.ack with
    | .notAcknowledged => enterAbort eNoAckReg s
    | .acknowledged => afterRegister s
  | .data => issue .waitAck .dataAck s
  | .dataAck =>
    match s.ack with
    | .notAcknowledged => enterAbort eNoAckData s
    | .acknowledged => afterDataSent s
  | .recv => goto .memWrite s
  | .ackSig => issue .recvByte .recv { s with i := s.i + 1 }
  | .nakSig => issue .stop (.lastStop s.latch.count) { s with i := s.i + 1 }
  | .midStop => afterMidStop s
  | .lastStop ret => afterReturn ret s
  | .bare => goto .idle s

/-- RECV_BYTE's `acc <- 0x00`, taken with its first step (R182, assumption log 13). -/
def clearAccAtEntry (u : MicroOp) (sub : Nat) (s : State) : State :=
  if u = .recvByte ∧ sub = 0 ∧ s.k = topBit u then { s with acc := 0 } else s

/-- The position after step `sub` of bit `k`: the next step of the bit, the next bit down, or out of the
micro-operation. -/
def nextMicro (u : MicroOp) (w : BitVec 11) (sub : Nat) (site : CallSite) (s : State) : State :=
  if sub + 1 < (bitSteps u s.k).length then { s with pos := .micro w (sub + 1) site }
  else if 0 < s.k then { s with pos := .micro w 0 site, k := s.k - 1 }
  else advance site s

/-- One step of a micro-operation: one event (R150, R180, R182). -/
def microStep (u : MicroOp) (w : BitVec 11) (sub : Nat) (site : CallSite) (s : State) : State :=
  match (bitSteps u s.k)[sub]? with
  | some p => nextMicro u w sub site (p.run (clearAccAtEntry u sub s))
  | none => s

/-- MemRead of buffer byte `i`, then its SEND_BYTE; no step where the port does not admit the address (R81). -/
def bufferReadStep (s : State) : State :=
  if portAdmits s.plat (effAddr s.latch.buf s.i) then
    let (v, t) := memReadByte (effAddr s.latch.buf s.i) s
    issue (.sendByte v) .data t
  else s

/-- MemWrite of received byte `i`, then ACK or NAK; no step where the port does not admit the address (R81, R210). -/
def bufferWriteStep (s : State) : State :=
  if portAdmits s.plat (effAddr s.latch.buf s.i) then
    let t := memWriteByte (effAddr s.latch.buf s.i) s.acc s
    if t.i + 1 < t.latch.count.toNat then issue .ack .ackSig t else issue .nak .nakSig t
  else s

/-- The step at the position the engine stands at. -/
def positionStep (s : State) : Host.Outcome State Fault Refusal :=
  match s.pos with
  | .idle => .next s
  | .dispatch => .next s
  | .initConfig => .next (goto .initSCL (initConfigure s))
  | .initSCL => .next (goto .initSDA (setSCL HIGH s))
  | .initSDA => .next (goto (.finish 0) (setSDA HIGH s))
  | .micro w sub site =>
    match decodeUop w with
    | .ok u => .next (microStep u w sub site s)
    | .error _ => .fault .malformedMicroOp
  | .memRead => .next (bufferReadStep s)
  | .memWrite => .next (bufferWriteStep s)
  | .finish ret => .next (finishCommand ret s)

/-- One engine step (R50): from `dispatch` the checks take no step of their own, so the first event of the command,
or its `finish`, comes in the same step (R253). An idle engine has no step (R252): the state stays as it is. -/
def engineStep (s : State) : Host.Outcome State Fault Refusal :=
  match s.pos with
  | .dispatch => positionStep (dispatchPos s)
  | .idle => .next s
  | .initConfig => positionStep s
  | .initSCL => positionStep s
  | .initSDA => positionStep s
  | .micro _ _ _ => positionStep s
  | .memRead => positionStep s
  | .memWrite => positionStep s
  | .finish _ => positionStep s

/-- `n` engine steps with no other step between. -/
def engineRun : Nat → State → Host.Outcome State Fault Refusal
  | 0, s => .next s
  | n + 1, s =>
    match engineStep s with
    | .next t => engineRun n t
    | .fault e => .fault e
    | .refused e => .refused e

/-! ### The byte to come (R88) -/

/-- The engine has no step: it is idle (R252), or it is stuck at an access its port does not admit (R81). -/
def hasNoStep (s : State) : Bool :=
  match s.pos with
  | .idle => true
  | .memRead => !portAdmits s.plat (effAddr s.latch.buf s.i)
  | .memWrite => !portAdmits s.plat (effAddr s.latch.buf s.i)
  | .dispatch => false
  | .initConfig => false
  | .initSCL => false
  | .initSDA => false
  | .micro _ _ _ => false
  | .finish _ => false

/-- The byte that the engine's next step writes to address `a`, if it writes one there. -/
def writesNow (a : Nat) (s : State) : Option Byte :=
  if s.pos = .memWrite ∧ effAddr s.latch.buf s.i = a ∧ hasNoStep s = false then some s.acc else none

/-- The byte that the engine, left to itself, writes to address `a` within `n` engine steps. None if it writes none: a
check or a handshake fails, or the port does not admit an access before it. The samples to come are the environment's
(R45), so the byte is the one that the command itself stores later. -/
def byteToCome (a : Nat) : Nat → State → Option Byte
  | 0, _ => none
  | n + 1, s =>
    match writesNow a s with
    | some v => some v
    | none =>
      if hasNoStep s then none
      else match engineStep s with
        | .next t => byteToCome a n t
        | .fault _ => none
        | .refused _ => none

/-- No command of the latched count takes more engine steps than MEM_READ's success: `200 + 49 N` events and its
`finish` (R297). -/
def stepsToFinish (s : State) : Nat := 201 + 49 * s.latch.count.toNat

end Sys2Proof.Machine
end

