-- ==== Sys2Proof/Machine/Fetch.lean ====
section
/-! DEFINITION. The instruction the engine stands at, a turn that runs it whole, and words placed before the engine
(spec/10_state.md R50, spec/60_exceptions.md R252). -/

namespace Sys2Proof.Machine

/-- The instruction the engine stands at, if it stands at one: an accepted command before its first step, or a
micro-operation before its first step. -/
def fetch (s : State) : Option (Except DecodeError Instr) :=
  match s.pos with
  | .dispatch => some (.ok (decodeOp s.latch.op s.latch.f))
  | .micro w 0 _ =>
    match decodeUop w with
    | .ok u => if s.k = topBit u then some (.ok u.toInstr) else none
    | .error e => some (.error e)
  | .micro _ (_ + 1) _ => none
  | .idle => none
  | .initConfig => none
  | .initSCL => none
  | .initSDA => none
  | .memRead => none
  | .memWrite => none
  | .finish _ => none

/-- What the sequencer does after the instruction it stood at: a micro-operation returns to the procedure that
called it; a command has finished. -/
def afterInstr (p : Pos) (s : State) : State :=
  match p with
  | .micro _ _ site => advance site s
  | .dispatch => s
  | .idle => s
  | .initConfig => s
  | .initSCL => s
  | .initSDA => s
  | .memRead => s
  | .memWrite => s
  | .finish _ => s

/-- The engine runs the whole instruction it stands at; where it stands inside one, it takes one engine step. -/
def instrStep (s : State) : Host.Outcome State Fault Refusal :=
  match fetch s with
  | none => engineStep s
  | some (.error _) => .fault .malformedMicroOp
  | some (.ok i) =>
    match exec i s with
    | .next t => .next (afterInstr s.pos t)
    | .fault e => .fault e
    | .refused e => .refused e

/-- Command word `w` is accepted as a CMD write would accept it (R252), and the next turn runs the command whole
(assumption log 17). -/
def placeCommand (w : Word) (s : State) : State :=
  { acceptCommand w s with turns := .instr :: s.turns }

/-- The bit index the sequencer starts the micro-operation of word `w` from. -/
def topBitOf (w : BitVec 11) : Nat :=
  match decodeUop w with
  | .ok u => topBit u
  | .error _ => 0

/-- Micro-operation word `w` is put before the sequencer, and the next turn runs it whole (assumption log 12). -/
def placeUop (w : BitVec 11) (s : State) : State :=
  { s with pos := .micro w 0 .bare, k := topBitOf w, turns := .instr :: s.turns }

end Sys2Proof.Machine
end

