-- ==== Sys2Proof/Machine/HostPort.lean ====
section
/-! DEFINITION. The host's side: the register window (spec/10_state.md R31 to R42, spec/20_memory.md R72), host
accesses to system memory and their races (R84, R88), POLL and the pseudo-instructions (spec/30_encoding.md R110,
R111). -/

namespace Sys2Proof.Machine

/-! ### Register offsets (R31) -/

/-- CMD. -/
def offCmd : Word := 0x00
/-- STATUS. -/
def offStatus : Word := 0x04
/-- FREQ. -/
def offFreq : Word := 0x08
/-- TICK. -/
def offTick : Word := 0x0C
/-- BUF. -/
def offBuf : Word := 0x10
/-- COUNT. -/
def offCount : Word := 0x14
/-- RESULT. -/
def offResult : Word := 0x18
/-- The reserved word. -/
def offReserved : Word := 0x1C

/-- The byte offset of a host address from P_BASE. -/
def windowOffset (s : State) (a : Word) : Word := a - s.plat.base

/-- The host address lies in the 32-byte window at P_BASE (R31, R51). -/
def inWindow (s : State) (a : Word) : Bool := decide ((windowOffset s a).toNat < 0x20)

/-- A window access that R72 admits: 32 bits wide, at a 4-byte-aligned offset from 0x00 to 0x1C. -/
def windowAdmits (s : State) (a : Word) (width : Nat) : Bool :=
  decide (width = 4) && inWindow s a && decide ((windowOffset s a).toNat % 4 = 0)

/-- What a register reads as; a read has no side effect (R41). -/
def readReg (off : Word) (s : State) : Word :=
  if off = offCmd then s.cmd
  else if off = offStatus then statusWord s.busy s.ready
  else if off = offFreq then s.freq
  else if off = offTick then s.tick
  else if off = offBuf then s.buf
  else if off = offCount then s.count
  else if off = offResult then s.result
  else 0

/-- A host write to a register: CMD starts a command, or faults while BUSY = 1 (R32, R290); FREQ, BUF and COUNT
take the word at any time; a write to STATUS, TICK, RESULT or the reserved word is ignored (R41). -/
def writeReg (off v : Word) (s : State) : Host.Outcome State Fault Refusal :=
  if off = offCmd then
    if s.busy then .fault .cmdWriteWhileBusy else .next (acceptCommand v s)
  else if off = offFreq then .next { s with freq := v }
  else if off = offBuf then .next { s with buf := v }
  else if off = offCount then .next { s with count := v }
  else .next s

/-- The host's load returned `v`. -/
def hostSees (v : Word) (s : State) : State := { s with reads := s.reads ++ [v] }

/-- The host agent is stuck at an access that is not admitted: it has no step from now on (R72). -/
def hostStops (s : State) : State := { s with hostStuck := true }

/-! ### Races (R88) -/

/-- The OP is a transaction. -/
def isTransaction (op : BitVec 4) : Bool :=
  op == opSend || op == opRecv || op == opMemWrite || op == opMemRead

/-- The OP is RECV or MEM_READ. -/
def isReceive (op : BitVec 4) : Bool := op == opRecv || op == opMemRead

/-- The byte lies in the running command's buffer `[L.buf, L.buf + L.count - 1]` (R88). -/
def activeByte (s : State) (a : Nat) : Bool :=
  s.busy && isTransaction s.latch.op && decide (s.latch.buf.toNat ≤ a)
    && decide (a < s.latch.buf.toNat + s.latch.count.toNat)

/-- A host store of one byte. In the running command's buffer it is a race: the engine's MemRead may still see the
old value (R88). -/
def hostStoreByte (a : Nat) (v : Byte) (s : State) : State :=
  let t := { s with mem := Memory.write s.mem a v }
  if activeByte s a then { t with raced := (a, Memory.read s.mem a) :: s.raced } else t

/-- How many bytes RECV_BODY has written so far: byte `i` is written just before its ACK or NAK (R210). -/
def bytesReceived (s : State) : Nat :=
  match s.pos with
  | .micro _ _ .ackSig => s.i + 1
  | .micro _ _ .nakSig => s.i + 1
  | _ => s.i

/-- The other values a host load of byte `a` may see: during RECV and MEM_READ, the old values of a buffer byte, and
for a byte the engine has not received yet the new value, which is the byte it writes there later (R88). -/
def otherValues (a : Nat) (s : State) : List Byte :=
  if activeByte s a && isReceive s.latch.op then
    racedValues a s ++
      (if effAddr s.latch.buf (bytesReceived s) ≤ a then (byteToCome a (stepsToFinish s) s).toList else [])
  else []

/-- A host load of one byte (R84, R88). -/
def hostLoadByte (a : Nat) (s : State) : State :=
  let (v, t) := resolveRace (Memory.read s.mem a) (otherValues a s) s
  hostSees (v.setWidth 32) t

/-! ### Host steps -/

/-- One access of the host agent; the turn is already taken off the schedule. A byte access that falls into the
window is not a 32-bit access, so it is not admitted (R72). -/
def hostAccess (act : HostAct) (s : State) : Host.Outcome State Fault Refusal :=
  match act with
  | .store a width v =>
    if windowAdmits s a width then writeReg (windowOffset s a) v s else .next (hostStops s)
  | .load a width =>
    if windowAdmits s a width then .next (hostSees (readReg (windowOffset s a) s) s) else .next (hostStops s)
  | .memStore a v => .next (if inWindow s a then hostStops s else hostStoreByte a.toNat v s)
  | .memLoad a => .next (if inWindow s a then hostStops s else hostLoadByte a.toNat s)
  | .poll =>
    let t := hostSees (readReg offStatus s) s
    .next (if s.busy then { t with turns := .engine :: .host .poll :: t.turns } else t)

/-- A turn of the host agent: a stuck host has no step (R72). -/
def hostStep (act : HostAct) (s : State) : Host.Outcome State Fault Refusal :=
  if s.hostStuck then .next s else hostAccess act s

/-! ### Host programs (R110, R111) -/

/-- `WR <REG>, v`. -/
def wr (base off v : Word) : Turn := .host (.store (base + off) 4 v)

/-- `RD <REG>`. -/
def rd (base off : Word) : Turn := .host (.load (base + off) 4)

/-- `POLL`. -/
def poll : Turn := .host .poll

/-- The CMD word of a pseudo-instruction: `(reg << 16) | (dev << 8) | op` (R111). -/
def pseudoWord (op : BitVec 4) (dev reg : Byte) : Word :=
  ((reg.setWidth 32) <<< 16) ||| ((dev.setWidth 32) <<< 8) ||| (op.setWidth 32)

/-- `INIT freq` (R111). -/
def pseudoInit (base freq : Word) : List Turn :=
  [wr base offFreq freq, wr base offCmd 0x00000001, poll]

/-- A transaction's pseudo-instruction: `WR BUF; WR COUNT; WR CMD; POLL` (R111). -/
def pseudoTransaction (base w buf n : Word) : List Turn :=
  [wr base offBuf buf, wr base offCount n, wr base offCmd w, poll]

/-- `SEND dev, buf, n` (R111). -/
def pseudoSend (base : Word) (dev : Byte) (buf n : Word) : List Turn :=
  pseudoTransaction base (pseudoWord opSend dev 0) buf n

/-- `RECV dev, buf, n` (R111). -/
def pseudoRecv (base : Word) (dev : Byte) (buf n : Word) : List Turn :=
  pseudoTransaction base (pseudoWord opRecv dev 0) buf n

/-- `MEM_WRITE dev, reg, buf, n` (R111). -/
def pseudoMemWrite (base : Word) (dev reg : Byte) (buf n : Word) : List Turn :=
  pseudoTransaction base (pseudoWord opMemWrite dev reg) buf n

/-- `MEM_READ dev, reg, buf, n` (R111). -/
def pseudoMemRead (base : Word) (dev reg : Byte) (buf n : Word) : List Turn :=
  pseudoTransaction base (pseudoWord opMemRead dev reg) buf n

end Sys2Proof.Machine
end

