-- ==== Sys2Proof/Machine/Step.lean ====
section
/-! DEFINITION. One step of the machine: the next turn of the schedule (spec/20_memory.md R84). -/

namespace Sys2Proof.Machine

/-- One step: the next turn's agent moves. With no turn scheduled the engine moves by itself, and an idle engine
waits for a CMD write (R280). -/
def step (s : State) : Host.Outcome State Fault Refusal :=
  match s.turns with
  | [] => engineStep s
  | .host act :: rest => hostStep act { s with turns := rest }
  | .engine :: rest => engineStep { s with turns := rest }
  | .instr :: rest => instrStep { s with turns := rest }
  | .reset :: rest => .next (resetBlock { s with turns := rest })

/-- `s` with a table row's word placed where the next step runs it. A command word is accepted as a CMD write
would accept it (R252); a micro-operation word is put before the sequencer with no procedure around it (the spec
lets no host write do this, R107; assumption logs 12 and 17). The next turn runs the instruction whole. -/
def State.withFetchWord (s : State) (nbits w : Nat) : State :=
  match tableFormat nbits with
  | .cmd32 => placeCommand (BitVec.ofNat 32 w) s
  | .uop11 => placeUop (BitVec.ofNat 11 w) s

end Sys2Proof.Machine
end

