-- ==== Sys2Proof/Safety.lean ====
section
/-! DEFINITION. The terms the statements use: traces in the notation of spec/00_scope.md R15, draws of the
environment, line states (spec/41_primitives.md R159), the invariant of the machine, and what it is for a run to
have ended well (spec/70_reset_and_hazards.md R300). -/

namespace Sys2Proof.Machine

/-! ### Traces (R15) -/

namespace Trace

/-- `START` (R151). -/
def start : List Event :=
  [.setSCL true, .delay, .setSDA true, .delay, .setSDA false, .delay, .setSCL false, .delay]

/-- `STOP` (R153). -/
def stop : List Event :=
  [.setSCL false, .delay, .setSDA false, .delay, .setSCL true, .delay, .setSDA true, .delay]

/-- `ACK` (R155). -/
def ack : List Event :=
  [.setSCL false, .delay, .setSDA false, .delay, .setSCL true, .delay, .setSCL false, .delay]

/-- `NAK` (R157). -/
def nak : List Event :=
  [.setSCL false, .delay, .setSDA true, .delay, .setSCL true, .delay, .setSCL false, .delay]

/-- `WA(b)` (R160). -/
def wa (b : Level) : List Event :=
  [.setSDA true, .delay, .setSCL true, .delay, .sample b, .delay, .setSCL false, .delay]

/-- `SB(v)`: bits 7 down to 0 (R180). -/
def sb (v : Byte) : List Event :=
  [7, 6, 5, 4, 3, 2, 1, 0].flatMap fun k =>
    [.setSDA (v.getLsbD k), .delay, .setSCL true, .delay, .setSCL false, .delay]

/-- `RB(v)`: bits 7 down to 0 (R182). -/
def rb (v : Byte) : List Event :=
  [7, 6, 5, 4, 3, 2, 1, 0].flatMap fun k =>
    [.setSCL false, .delay, .setSCL true, .sample (v.getLsbD k), .delay]

/-- `START SB(v) WA(b)`: the address phase. -/
def address (v : Byte) (b : Level) : List Event := start ++ (sb v ++ wa b)

/-- One data byte of SEND or MEM_WRITE: `R[a]=v SB(v) WA(b)`. -/
def sent (a : Nat) (v : Byte) (b : Level) : List Event := .memRead a v :: (sb v ++ wa b)

/-- Data bytes sent from address `a` on, each acknowledged. -/
def sentAll : Nat → List Byte → List Event
  | _, [] => []
  | a, v :: vs => sent a v false ++ sentAll (a + 1) vs

/-- Data bytes received to address `a` on: `RB(v) W[a]=v`, ACK after each but the last, NAK after the last (R210). -/
def receivedAll : Nat → List Byte → List Event
  | _, [] => []
  | a, [v] => rb v ++ .memWrite a v :: nak
  | a, v :: w :: vs => rb v ++ .memWrite a v :: (ack ++ receivedAll (a + 1) (w :: vs))

/-- How many events of a trace are delays: its ticks (R297). -/
def ticks (t : List Event) : Nat := t.countP (fun e => e == .delay)

/-- How many events of a trace are samples (R297). -/
def samples (t : List Event) : Nat := t.countP (fun e => e == .sample true || e == .sample false)

/-- What one event leaves on (scl_o, sda_o). -/
def lines : Event → Level × Level → Level × Level
  | .setSCL b, l => (b, l.2)
  | .setSDA b, l => (l.1, b)
  | .delay, l => l
  | .sample _, l => l
  | .memRead _ _, l => l
  | .memWrite _ _, l => l

/-- What the events of a trace leave on (scl_o, sda_o). -/
def replay : List Event → Level × Level → Level × Level
  | [], l => l
  | e :: es, l => replay es (lines e l)

/-- The levels a trace sets the data line to, in order. -/
def dataSets : List Event → List Level
  | [] => []
  | .setSDA b :: es => b :: dataSets es
  | .setSCL _ :: es => dataSets es
  | .delay :: es => dataSets es
  | .sample _ :: es => dataSets es
  | .memRead _ _ :: es => dataSets es
  | .memWrite _ _ :: es => dataSets es

/-- `SB(v) WA(b)`: a byte and its handshake. -/
def byte (v : Byte) (b : Level) : List Event := sb v ++ wa b

end Trace

/-! ### Draws of the environment and bytes of memory -/

/-- The environment's answers have moved on by `n`. -/
def skipDraws (n : Nat) (s : State) : State := { s with sdaIn := s.sdaIn.drop n, drawn := s.drawn + n }

/-- The byte whose bits, most significant first, are the eight draws from draw `j` on: `sum b_t << (7 - t)` (R183). -/
def drawnByte (s : State) (j : Nat) : Byte :=
  BitVec.ofNat 8 (((List.range 8).map fun t => (drawAt s (j + t)).toNat <<< (7 - t)).sum)

/-- The `n` bytes that the draws from draw `j` on make. -/
def drawnBytes (s : State) (j n : Nat) : List Byte := (List.range n).map fun t => drawnByte s (j + 8 * t)

/-- The `n` bytes of memory from address `a` on. -/
def loadBytes (m : List Host.Cell) (a n : Nat) : List Byte := (List.range n).map fun t => Memory.read m (a + t)

/-- Memory after storing bytes from address `a` on, in ascending order (R74). -/
def storeBytes : List Host.Cell → Nat → List Byte → List Host.Cell
  | m, _, [] => m
  | m, a, v :: vs => storeBytes (Memory.write m a v) (a + 1) vs

/-- The buffer of the latched command, as a number of bytes. -/
def bytesWanted (s : State) : Nat := s.latch.count.toNat

/-- The memory port admits every byte of the latched command's buffer (R81). -/
def bufferAdmitted (s : State) : Prop :=
  ∀ i, i < bytesWanted s → portAdmits s.plat (effAddr s.latch.buf i) = true

/-- The latched command passes the reserved-bit check and CHECK_ARGS, and no host access has raced it (R102, R200,
R88). -/
def readyToRun (f : CmdFields) (s : State) : Prop :=
  f.reserved = false ∧ argsOk s.ready s.latch.buf s.latch.count = true ∧ s.raced = []

/-! ### Line states (R159) -/

/-- What a step does to the pair (scl_o, sda_o); `none` is a level not fixed. -/
def Prim.lines : Prim → Level × Option Level → Level × Option Level
  | .scl b, l => (b, l.2)
  | .sda b, l => (l.1, some b)
  | .delay, l => l
  | .sampleAck, l => l
  | .sampleBit, l => l

/-- The lines after steps. -/
def linesAfter : List Prim → Level × Option Level → Level × Option Level
  | [], l => l
  | p :: ps, l => linesAfter ps (p.lines l)

/-- The lines when a micro-operation starts on bit `k`, while byte `i` of a transfer is handled: R159's entry
column, and within a byte operation what the bit before left. During a receive `sda_o` is 1 before the first ACK and
0 after it (R183, R292). -/
def entryLines (u : MicroOp) (k i : Nat) : Level × Option Level :=
  match u with
  | .start => (true, some true)
  | .stop => (false, some true)
  | .ack => (true, some (i == 0))
  | .nak => (true, some (i == 0))
  | .waitAck => (false, none)
  | .sendByte _ => (false, none)
  | .recvByte => (k != 7, some (i == 0))

/-- The line levels the spec's step lists give at the engine's position. -/
def expectedLines (s : State) : Level × Option Level :=
  match s.pos with
  | .idle => (true, some true)
  | .dispatch => (true, some true)
  | .initConfig => (true, some true)
  | .initSCL => (true, some true)
  | .initSDA => (true, some true)
  | .micro w sub _ =>
    match decodeUop w with
    | .ok u => linesAfter ((bitSteps u s.k).take sub) (entryLines u s.k s.i)
    | .error _ => (true, some true)
  | .memRead => (false, some true)
  | .memWrite => (true, some (s.i == 0))
  | .finish _ => (true, some true)

/-- The pins are what the step lists give (R46, R47, R159). -/
def LinesOk (s : State) : Prop :=
  s.sclO = (expectedLines s).1 ∧ ∀ b, (expectedLines s).2 = some b → s.sdaO = b

/-! ### The invariant -/

/-- RESULT holds 0, a count of at most 2^31 - 1, or a code of R250. -/
def LegalResult (w : Word) : Prop := w.toNat ≤ 0x7FFFFFFF ∨ 0xFFFFFFFB ≤ w.toNat

/-- The micro-operation a call site runs (R205, R210, R215, R220). -/
def siteRuns (s : State) : CallSite → MicroOp → Prop
  | .start, u => u = .start
  | .addr, u => u = .sendByte (addressByte s.phase s.latch.f.dev)
  | .addrAck, u => u = .waitAck
  | .reg, u => u = .sendByte s.latch.f.reg
  | .regAck, u => u = .waitAck
  | .data, u => ∃ v, u = .sendByte v
  | .dataAck, u => u = .waitAck
  | .recv, u => u = .recvByte
  | .ackSig, u => u = .ack
  | .nakSig, u => u = .nak
  | .midStop, u => u = .stop
  | .lastStop _, u => u = .stop
  | .bare, _ => False

/-- A transaction is running: its checks have passed, and the phase is one its procedure has. -/
def InTransaction (s : State) : Prop :=
  s.latch.f.reserved = false ∧ argsOk s.ready s.latch.buf s.latch.count = true ∧
    (s.phase = .write → s.latch.op = opSend ∨ s.latch.op = opMemWrite ∨ s.latch.op = opMemRead) ∧
    (s.phase = .read → s.latch.op = opRecv ∨ s.latch.op = opMemRead)

/-- The engine is in the byte loop of SEND or MEM_WRITE. -/
def InSendLoop (s : State) : Prop :=
  s.phase = .write ∧ (s.latch.op = opSend ∨ s.latch.op = opMemWrite) ∧ s.i < bytesWanted s

/-- The engine is in the byte loop of RECV_BODY. -/
def InRecvLoop (s : State) : Prop := s.phase = .read ∧ s.i < bytesWanted s

/-- What holds of the working state at a call site of the transaction procedures. -/
def siteOk (s : State) : CallSite → Prop
  | .start => s.i = 0
  | .addr => s.i = 0
  | .addrAck => s.i = 0
  | .reg => s.i = 0 ∧ s.phase = .write ∧ (s.latch.op = opMemWrite ∨ s.latch.op = opMemRead)
  | .regAck => s.i = 0 ∧ s.phase = .write ∧ (s.latch.op = opMemWrite ∨ s.latch.op = opMemRead)
  | .data => InSendLoop s
  | .dataAck => InSendLoop s
  | .recv => InRecvLoop s
  | .ackSig => InRecvLoop s ∧ s.i + 1 < bytesWanted s
  | .nakSig => InRecvLoop s ∧ s.i + 1 = bytesWanted s
  | .midStop => s.i = 0 ∧ s.phase = .write ∧ s.latch.op = opMemRead
  | .lastStop ret => LegalResult ret
  | .bare => False

/-- What holds of the working state at a position of the sequencer. -/
def posOk (s : State) : Prop :=
  match s.pos with
  | .idle => True
  | .dispatch => True
  | .initConfig => s.latch.f.reserved = false ∧ s.latch.op = opInit ∧ freqLegal s.latch.freq = true
  | .initSCL => s.latch.f.reserved = false ∧ s.latch.op = opInit ∧ s.ready = true
  | .initSDA => s.latch.f.reserved = false ∧ s.latch.op = opInit ∧ s.ready = true
  | .micro w sub site =>
    InTransaction s ∧ siteOk s site ∧
      ∃ u, decodeUop w = .ok u ∧ siteRuns s site u ∧ s.k ≤ topBit u ∧ sub < (bitSteps u s.k).length
  | .memRead => InTransaction s ∧ InSendLoop s
  | .memWrite => InTransaction s ∧ InRecvLoop s
  | .finish ret => LegalResult ret

/-- The invariant of the machine: what every step keeps. -/
structure State.Inv (s : State) : Prop where
  /-- READY = 1 means TICK is a legal tick; READY = 0 means TICK was never written (R33, R36). -/
  handle : if s.ready = true then 1 ≤ s.tick.toNat ∧ s.tick.toNat ≤ 250000 else s.tick = 0
  /-- The engine runs only while BUSY = 1 (R252). -/
  lifecycle : s.busy = true ↔ s.pos ≠ .idle
  /-- While BUSY, CMD still holds the word of the latched command (R48, R251). -/
  latched : s.busy = true → s.latch.op = opOf s.cmd ∧ s.latch.f = cmdFieldsOf s.cmd
  /-- The pins are what the step lists give (R159). -/
  lines : LinesOk s
  /-- The working state fits the position (R49). -/
  position : posOk s
  /-- RESULT is a value of R250. -/
  result : LegalResult s.result
  /-- Memory is in canonical form. -/
  memory : Memory.wf s.mem = true
  /-- Races belong to a running command (R88). -/
  races : s.busy = false → s.raced = []

/-! ### Outcomes -/

/-- Apply a function to the next state, if the outcome has one. -/
def mapNext (g : State → State) : Host.Outcome State Fault Refusal → Host.Outcome State Fault Refusal
  | .next s => .next (g s)
  | .fault e => .fault e
  | .refused e => .refused e

/-- The host rewrites CMD, FREQ, BUF and COUNT. -/
def withHostRegs (a b c d : Word) (s : State) : State := { s with cmd := a, freq := b, buf := c, count := d }

/-- The next turn is a reset. -/
def resetNext (s : State) : Bool :=
  match s.turns with
  | .reset :: _ => true
  | _ => false

/-! ### Observation -/

/-- The turn is an access of the host program. -/
def isHostTurn : Turn → Bool
  | .host _ => true
  | .engine => false
  | .instr => false
  | .reset => false

/-- The host program has ended: the host has no access left to make, and is not stuck at one (R72). -/
def hostEnded (s : State) : Bool := !s.hostStuck && !s.turns.any isHostTurn

/-- A run has ended well (R300): the host program has ended, BUSY = 0, and no fault was recorded (R290). A command
still running, or stuck at an access the port does not admit (R81), leaves BUSY at 1. -/
def endedWell : Host.Outcome State Fault Refusal → Bool
  | .next s => hostEnded s && !s.busy
  | .fault _ => false
  | .refused _ => false

/-- What is observed of a command that has ended (R300). -/
structure Observed where
  /-- The bus trace from the command's acceptance to its `finish`. -/
  trace : List Event
  result : Word
  tick : Word
  status : Word
  sclO : Level
  sdaO : Level
  /-- The bytes of system memory the command wrote, in order. -/
  written : List Host.Cell
  deriving DecidableEq, Repr

/-- The bytes that a trace writes to memory, in order. -/
def Trace.written : List Event → List Host.Cell
  | [] => []
  | .memWrite a v :: es => (a, v) :: Trace.written es
  | .memRead _ _ :: es => Trace.written es
  | .setSCL _ :: es => Trace.written es
  | .setSDA _ :: es => Trace.written es
  | .delay :: es => Trace.written es
  | .sample _ :: es => Trace.written es

/-- The observation of the command that was accepted in state `s` and has ended in state `t` (R300). -/
def observe (s t : State) : Observed :=
  { trace := t.trace.drop s.trace.length, result := t.result, tick := t.tick
    status := statusWord t.busy t.ready, sclO := t.sclO, sdaO := t.sdaO
    written := Trace.written (t.trace.drop s.trace.length) }

end Sys2Proof.Machine
end

