-- ==== Sys2Proof/Certificates/Slice0/Obligations.lean ====
section
/-! DEFINITION. The statements for the provers. Each docstring names the rule of spec/ it formalises. -/

open Sys2Proof Sys2Proof.Machine

/-! ### Encoding (spec/30_encoding.md) -/

/-- Decoding the bytes of any instruction gives it back, with every operand at every value and whatever bytes follow
(R100, R108). The two-byte layout of a micro-operation word is the model's choice (assumption log 12). -/
def Obligations.DecodeEncodeRoundTrip : Prop :=
  ∀ (i : Instr) (rest : List Byte), decode i.format (encode i ++ rest) = .ok (i, rest)

/-- The other direction: every 32-bit word is the encoding of the command it decodes to, and an 11-bit word that
decodes is the encoding of its micro-operation; so no two words have one meaning. UOP 0b111 is no micro-operation,
nor is an IMM8 other than zero on one that is not SEND_BYTE (R100, R103, R108, R109). The names of the refusals are
the model's (assumption log 12). -/
def Obligations.EncodeDecodeRoundTrip : Prop :=
  (∀ w : Word, (decodeCmd w).format = .cmd32 ∧ encodeNat (decodeCmd w) = w.toNat) ∧
    (∀ (w : BitVec 11) (u : MicroOp), decodeUop w = .ok u → encodeUop u = w) ∧
    ∀ (imm : Byte) (uop : BitVec 3),
      (uop = 0b111 → decodeUop (imm ++ uop) = .error .reservedUop) ∧
      (uop = 0b101 → decodeUop (imm ++ uop) = .ok (.sendByte imm)) ∧
      (imm ≠ 0 → uop ≠ 0b101 → uop ≠ 0b111 → decodeUop (imm ++ uop) = .error .immediateNotZero)

/-- R101: OP, bits 3:0, alone selects the command; the values 0x0 and 0x6 to 0xF are the reserved rows, whatever
the other bits are. -/
def Obligations.OpSelectsCommand : Prop :=
  ∀ w : Word,
    (w.toNat % 16 = 0 → decodeCmd w = .reservedOp0 (cmdFieldsOf w)) ∧
    (w.toNat % 16 = 1 → decodeCmd w = .init (cmdFieldsOf w)) ∧
    (w.toNat % 16 = 2 → decodeCmd w = .send (cmdFieldsOf w)) ∧
    (w.toNat % 16 = 3 → decodeCmd w = .recv (cmdFieldsOf w)) ∧
    (w.toNat % 16 = 4 → decodeCmd w = .memWrite (cmdFieldsOf w)) ∧
    (w.toNat % 16 = 5 → decodeCmd w = .memRead (cmdFieldsOf w)) ∧
    (w.toNat % 16 = 6 ∨ w.toNat % 16 = 7 →
      ∃ b, decodeCmd w = .reservedOp67 b (cmdFieldsOf w) ∧ b.toNat = w.toNat % 2) ∧
    (8 ≤ w.toNat % 16 → ∃ b, decodeCmd w = .reservedOp8F b (cmdFieldsOf w) ∧ b.toNat = w.toNat % 8)

/-- Words written out from spec/30_encoding.md R111 and R109 decode to their instructions. That a 16-bit row is a
micro-operation word, and its layout in two bytes, are the model's choice (DESIGN CHOICE, assumption logs 18 and 12);
the last two clauses go through them. -/
def Obligations.SpecWordsDecode : Prop :=
  decodeTableWord 32 0x00000001 = some (.init { res1 := 0, reg := 0, dev := 0, res0 := 0 }) ∧
    decodeTableWord 32 0x0000A002 = some (.send { res1 := 0, reg := 0, dev := 0xA0, res0 := 0 }) ∧
    decodeTableWord 32 0x0010A004 = some (.memWrite { res1 := 0, reg := 0x10, dev := 0xA0, res0 := 0 }) ∧
    decodeTableWord 16 0x003 = some .nak ∧
    decodeTableWord 16 0b10110000101 = some (.sendByte 0xB0)

/-- R111: the pseudo-instructions expand to host operations; their CMD words decode to the command with the given
DEV and REGOFF and zero reserved fields. -/
def Obligations.PseudoInstructionExpansion : Prop :=
  ∀ (base : Word) (dev reg : Byte) (freq buf n : Word),
    pseudoInit base freq = [wr base offFreq freq, wr base offCmd 1, poll] ∧
    (∃ w, pseudoSend base dev buf n = [wr base offBuf buf, wr base offCount n, wr base offCmd w, poll] ∧
      decodeCmd w = .send { res1 := 0, reg := 0, dev := dev, res0 := 0 }) ∧
    (∃ w, pseudoRecv base dev buf n = [wr base offBuf buf, wr base offCount n, wr base offCmd w, poll] ∧
      decodeCmd w = .recv { res1 := 0, reg := 0, dev := dev, res0 := 0 }) ∧
    (∃ w, pseudoMemWrite base dev reg buf n = [wr base offBuf buf, wr base offCount n, wr base offCmd w, poll] ∧
      decodeCmd w = .memWrite { res1 := 0, reg := reg, dev := dev, res0 := 0 }) ∧
    (∃ w, pseudoMemRead base dev reg buf n = [wr base offBuf buf, wr base offCount n, wr base offCmd w, poll] ∧
      decodeCmd w = .memRead { res1 := 0, reg := reg, dev := dev, res0 := 0 })

/-! ### The host's register window (spec/10_state.md, spec/20_memory.md) -/

/-- R31, R34, R40: a 32-bit load at an offset of the window returns the register there (STATUS with BUSY in bit 0,
READY in bit 1 and zeros above, the reserved word as 0) and has no other effect. The list `reads` is the model's
choice (assumption log 21). -/
def Obligations.HostLoadReturnsRegister : Prop :=
  ∀ s : State, s.hostStuck = false →
    let load := fun (off : Nat) =>
      step { s with turns := .host (.load (s.plat.base + BitVec.ofNat 32 off) 4) :: s.turns }
    let sees := fun (v : Word) =>
      (Host.Outcome.next { s with reads := s.reads ++ [v] } : Host.Outcome State Fault Refusal)
    load 0x00 = sees s.cmd ∧
      load 0x04 = sees (BitVec.ofNat 32 ((if s.busy then 1 else 0) + if s.ready then 2 else 0)) ∧
      load 0x08 = sees s.freq ∧ load 0x0C = sees s.tick ∧ load 0x10 = sees s.buf ∧
      load 0x14 = sees s.count ∧ load 0x18 = sees s.result ∧ load 0x1C = sees 0

/-- R41: a host write to FREQ, BUF or COUNT changes only that register, at any time; a write to STATUS, TICK, RESULT
or the reserved word is ignored. -/
def Obligations.HostStoreEffects : Prop :=
  ∀ (s : State) (v : Word), s.hostStuck = false →
    let store := fun (off : Nat) =>
      step { s with turns := .host (.store (s.plat.base + BitVec.ofNat 32 off) 4 v) :: s.turns }
    store 0x08 = .next { s with freq := v } ∧ store 0x10 = .next { s with buf := v } ∧
      store 0x14 = .next { s with count := v } ∧
      store 0x04 = .next s ∧ store 0x0C = .next s ∧ store 0x18 = .next s ∧ store 0x1C = .next s

/-- R252 (acceptance) and R48: a CMD write while BUSY = 0 stores the word, latches every operand and sets BUSY, in
one step with no bus event. -/
def Obligations.CmdWriteAccepted : Prop :=
  ∀ (s : State) (w : Word), s.hostStuck = false → s.busy = false →
    ∃ t, step { s with turns := .host (.store s.plat.base 4 w) :: s.turns } = .next t ∧
      t.cmd = w ∧ t.busy = true ∧ t.pos = .dispatch ∧ t.trace = s.trace ∧
      t.latch.op = w.extractLsb' 0 4 ∧ t.latch.f.res0 = w.extractLsb' 4 4 ∧
      t.latch.f.res1 = w.extractLsb' 24 8 ∧ t.latch.f.dev = w.extractLsb' 8 8 ∧
      t.latch.f.reg = w.extractLsb' 16 8 ∧ t.latch.freq = s.freq ∧ t.latch.buf = s.buf ∧
      t.latch.count = s.count ∧
      t.sclO = s.sclO ∧ t.sdaO = s.sdaO ∧ t.mem = s.mem ∧ t.tick = s.tick ∧ t.ready = s.ready ∧
      t.result = s.result ∧ t.freq = s.freq ∧ t.buf = s.buf ∧ t.count = s.count

/-- R290: a CMD write while BUSY = 1 is a fault. -/
def Obligations.CmdWriteWhileBusyFaults : Prop :=
  ∀ (s : State) (w : Word), s.hostStuck = false → s.busy = true →
    step { s with turns := .host (.store s.plat.base 4 w) :: s.turns } = .fault .cmdWriteWhileBusy

/-- R72: an access to the window that is not 32 bits wide or not 4-byte aligned has no effect but that the host is
stuck; and a stuck host has no step. The mark `hostStuck` is the model's choice (assumption log 9). -/
def Obligations.UnadmittedHostAccessSticks : Prop :=
  (∀ (s : State) (off width : Nat) (v : Word), s.hostStuck = false → off < 0x20 → width ≠ 4 ∨ off % 4 ≠ 0 →
    let a := s.plat.base + BitVec.ofNat 32 off
    step { s with turns := .host (.store a width v) :: s.turns } = .next { s with hostStuck := true } ∧
    step { s with turns := .host (.load a width) :: s.turns } = .next { s with hostStuck := true }) ∧
  ∀ (s : State) (act : HostAct), s.hostStuck = true →
    step { s with turns := .host act :: s.turns } = .next s

/-- R48, R41, D19: the running command reads only the latched copies. Whatever the host writes to CMD, FREQ, BUF and
COUNT, every instruction and every engine step does the same. -/
def Obligations.EngineReadsOnlyLatched : Prop :=
  ∀ (s : State) (a b c d : Word),
    (∀ i : Instr, exec i (withHostRegs a b c d s) = mapNext (withHostRegs a b c d) (exec i s)) ∧
      engineStep (withHostRegs a b c d s) = mapNext (withHostRegs a b c d) (engineStep s)

/-- R39: while a command runs RESULT keeps its value; only the step that finishes the command (BUSY goes from 1 to
0) writes it. -/
def Obligations.ResultWrittenOnlyByFinish : Prop :=
  ∀ s t : State, s.Inv → resetNext s = false → step s = .next t → t.result ≠ s.result →
    s.busy = true ∧ t.busy = false

/-- R33: only a successful INIT writes TICK and READY, and without a reset READY never falls. -/
def Obligations.HandleWrittenOnlyByInit : Prop :=
  ∀ s t : State, s.Inv → resetNext s = false → step s = .next t →
    (s.ready = true → t.ready = true) ∧
    (t.tick ≠ s.tick ∨ t.ready ≠ s.ready →
      s.busy = true ∧ s.latch.op = opInit ∧ s.latch.f.reserved = false ∧
        1 ≤ s.latch.freq.toNat ∧ s.latch.freq.toNat ≤ 250000 ∧
        t.tick.toNat = 1000000 / s.latch.freq.toNat / 4 ∧ t.ready = true)

/-! ### Reset (spec/10_state.md R54, R56) -/

/-- R54: a reset in any state, a command running or not, puts every register and pin at its value of R56 and leaves
the engine idle with an empty trace; no `finish` happens. -/
def Obligations.ResetPutsReset : Prop :=
  ∀ (s : State) (rest : List Turn), s.turns = .reset :: rest →
    ∃ t, step s = .next t ∧
      t.cmd = 0 ∧ t.busy = false ∧ t.ready = false ∧ t.freq = 0 ∧ t.tick = 0 ∧ t.buf = 0 ∧ t.count = 0 ∧
      t.result = 0 ∧ t.sclO = HIGH ∧ t.sdaO = HIGH ∧ t.pos = .idle ∧ t.trace = []

/-- The state after reset holds R56's values, meets the invariant, and waits: with no turn scheduled its step
changes nothing (R280). That no turn is scheduled is the model's choice (assumption log 1). -/
def Obligations.ResetStateWaits : Prop :=
  (readReg offCmd State.reset = 0 ∧ readReg offStatus State.reset = 0 ∧ readReg offFreq State.reset = 0 ∧
    readReg offTick State.reset = 0 ∧ readReg offBuf State.reset = 0 ∧ readReg offCount State.reset = 0 ∧
    readReg offResult State.reset = 0 ∧ readReg offReserved State.reset = 0 ∧
    State.reset.sclO = HIGH ∧ State.reset.sdaO = HIGH ∧ State.reset.trace = []) ∧
  State.reset.Inv ∧ step State.reset = .next State.reset

/-! ### INIT (spec/40_init.md) -/

/-- INIT's success, for the frequencies R131 allows (R130, R132, R133): TICK from the formula, READY, `C1 D1` with
no delay, RESULT 0, and nothing else. That `finishCommand` clears the working state is the model's choice
(assumption log 7). -/
def Obligations.InitSucceeds : Prop :=
  ∀ (f : CmdFields) (s : State), f.reserved = false →
    1 ≤ s.latch.freq.toNat → s.latch.freq.toNat ≤ 250000 →
    exec (.init f) s = .next (finishCommand 0 { s with
      tick := BitVec.ofNat 32 (1000000 / s.latch.freq.toNat / 4), ready := true, sclO := HIGH, sdaO := HIGH
      trace := s.trace ++ [.setSCL true, .setSDA true] })

/-- R132 and R133, step by step: the first engine step writes TICK and READY with no event; then `SetSCL(1)`, then
`SetSDA(1)`; then `finish`. TICK equals `250000 div L.freq` and lies in `[1, 250000]`. -/
def Obligations.InitStepOrder : Prop :=
  ∀ s : State, s.pos = .dispatch → s.latch.op = opInit → s.latch.f.reserved = false →
    1 ≤ s.latch.freq.toNat → s.latch.freq.toNat ≤ 250000 →
    ∃ s1 s2 s3 s4, engineStep s = .next s1 ∧ engineStep s1 = .next s2 ∧ engineStep s2 = .next s3 ∧
      engineStep s3 = .next s4 ∧
      s1.tick.toNat = 1000000 / s.latch.freq.toNat / 4 ∧ s1.tick.toNat = 250000 / s.latch.freq.toNat ∧
      1 ≤ s1.tick.toNat ∧ s1.tick.toNat ≤ 250000 ∧ s1.ready = true ∧ s1.trace = s.trace ∧
      s2.trace = s.trace ++ [.setSCL true] ∧ s3.trace = s.trace ++ [.setSCL true, .setSDA true] ∧
      s4.trace = s3.trace ∧ s4.result = 0 ∧ s4.busy = false ∧ s3.busy = s.busy ∧ s3.result = s.result

/-- R134: a failing INIT changes nothing besides RESULT and BUSY (the working state is not live afterwards). That
`finishCommand` clears the working state is the model's choice (assumption log 7). -/
def Obligations.InitFailureChangesNothing : Prop :=
  ∀ (f : CmdFields) (s : State),
    f.reserved = true ∨ s.latch.freq = 0 ∨ 250000 < s.latch.freq.toNat →
    exec (.init f) s = .next (finishCommand 0xFFFFFFFF s)

/-! ### Micro-operations (spec/41_primitives.md, spec/42_byte_shift.md) -/

/-- START (R151): its eight events, both lines LOW after it, and nothing else. -/
def Obligations.StartSignal : Prop :=
  ∀ s : State, exec .start s = .next { s with
    sclO := LOW, sdaO := LOW
    trace := s.trace ++
      [.setSCL true, .delay, .setSDA true, .delay, .setSDA false, .delay, .setSCL false, .delay] }

/-- STOP (R153): its eight events, both lines HIGH after it, and nothing else. -/
def Obligations.StopSignal : Prop :=
  ∀ s : State, exec .stop s = .next { s with
    sclO := HIGH, sdaO := HIGH
    trace := s.trace ++
      [.setSCL false, .delay, .setSDA false, .delay, .setSCL true, .delay, .setSDA true, .delay] }

/-- ACK (R155) and NAK (R157): their eight events, the clock LOW after them, the data line LOW after ACK and HIGH
after NAK, and nothing else. -/
def Obligations.AckAndNakSignals : Prop :=
  ∀ s : State,
    exec .ack s = .next { s with
      sclO := LOW, sdaO := LOW
      trace := s.trace ++
        [.setSCL false, .delay, .setSDA false, .delay, .setSCL true, .delay, .setSCL false, .delay] } ∧
    exec .nak s = .next { s with
      sclO := LOW, sdaO := HIGH
      trace := s.trace ++
        [.setSCL false, .delay, .setSDA true, .delay, .setSCL true, .delay, .setSCL false, .delay] }

/-- WAIT_ACK (R160): it releases the data line, takes one sample while the clock is HIGH, and sets `ack` to
ACKNOWLEDGED exactly when the sample is 0; and nothing else. -/
def Obligations.WaitAckSamples : Prop :=
  ∀ s : State, exec .waitAck s = .next { skipDraws 1 s with
    ack := (if drawAt s 0 = false then .acknowledged else .notAcknowledged), sclO := LOW, sdaO := HIGH
    trace := s.trace ++ [.setSDA true, .delay, .setSCL true, .delay, .sample (drawAt s 0), .delay,
      .setSCL false, .delay] }

/-- SEND_BYTE (R180, R181): 48 events, most-significant bit first, each bit set while the clock is LOW; it samples
nothing and changes nothing else. -/
def Obligations.SendByteShiftsMsbFirst : Prop :=
  ∀ (v : Byte) (s : State),
    exec (.sendByte v) s = .next { s with
      sclO := LOW, sdaO := v.getLsbD 0, trace := s.trace ++ Trace.sb v } ∧
    (Trace.sb v).length = 48 ∧ Trace.ticks (Trace.sb v) = 24 ∧ Trace.samples (Trace.sb v) = 0 ∧
    Trace.dataSets (Trace.sb v) = [v.getLsbD 7, v.getLsbD 6, v.getLsbD 5, v.getLsbD 4, v.getLsbD 3, v.getLsbD 2,
      v.getLsbD 1, v.getLsbD 0]

/-- RECV_BYTE (R182, R183): 40 events and eight samples; the byte is the sum of `b_j << (7 - j)` over the samples,
whatever the accumulator held; `sda_o` keeps its value and nothing else changes. -/
def Obligations.RecvByteAssemblesMsbFirst : Prop :=
  ∀ s : State,
    exec .recvByte s = .next { skipDraws 8 s with
      acc := BitVec.ofNat 8 (((List.range 8).map fun j => (drawAt s j).toNat * 2 ^ (7 - j)).sum)
      sclO := HIGH
      trace := s.trace ++ (List.range 8).flatMap fun j =>
        [.setSCL false, .delay, .setSCL true, .sample (drawAt s j), .delay] } ∧
    ∀ a : Byte, exec .recvByte { s with acc := a } = exec .recvByte s

/-! ### Commands that fail their checks (spec/30_encoding.md R102, R103, spec/43_transactions.md R200, R201) -/

/-- R102: a command with a nonzero reserved field finishes with E_INVALID_ARGUMENT for every OP, before every other
check, and nothing else changes. That `finishCommand` clears the working state is the model's choice (assumption log
7). -/
def Obligations.ReservedBitsFinish : Prop :=
  ∀ (op : BitVec 4) (f : CmdFields) (s : State), f.res0 ≠ 0 ∨ f.res1 ≠ 0 →
    exec (decodeOp op f) s = .next (finishCommand 0xFFFFFFFF s)

/-- R103: a CMD write with a reserved OP is accepted like any other command, and finishes with E_INVALID_ARGUMENT
with no event and no change to TICK or READY; every reserved OP completes so. That `finishCommand` clears the
working state is the model's choice (assumption log 7). -/
def Obligations.ReservedOpFinishes : Prop :=
  (∀ (s : State) (f : CmdFields) (b1 : BitVec 1) (b3 : BitVec 3),
    exec (.reservedOp0 f) s = .next (finishCommand 0xFFFFFFFF s) ∧
    exec (.reservedOp67 b1 f) s = .next (finishCommand 0xFFFFFFFF s) ∧
    exec (.reservedOp8F b3 f) s = .next (finishCommand 0xFFFFFFFF s)) ∧
  ∀ (s : State) (w : Word), s.hostStuck = false → s.busy = false → w.toNat % 16 = 0 ∨ 6 ≤ w.toNat % 16 →
    ∃ t u, step { s with turns := .host (.store s.plat.base 4 w) :: .instr :: s.turns } = .next t ∧
      t.busy = true ∧ t.latch = latchOf w s.freq s.buf s.count ∧ step t = .next u ∧
      u.result = 0xFFFFFFFF ∧ u.busy = false ∧ u.trace = s.trace ∧ u.mem = s.mem ∧ u.tick = s.tick ∧
      u.ready = s.ready

/-- R200, R201: a transaction whose argument check fails returns E_INVALID_ARGUMENT with no bus or memory event, and
nothing else changes. That `finishCommand` clears the working state is the model's choice (assumption log 7). -/
def Obligations.ArgumentCheckFails : Prop :=
  ∀ (f : CmdFields) (s : State),
    s.ready = false ∨ s.latch.buf = 0 ∨ s.latch.count = 0 ∨ s.latch.count.toNat > 0x7FFFFFFF ∨
      s.latch.buf.toNat + s.latch.count.toNat > 2 ^ 32 →
    exec (.send f) s = .next (finishCommand 0xFFFFFFFF s) ∧
    exec (.recv f) s = .next (finishCommand 0xFFFFFFFF s) ∧
    exec (.memWrite f) s = .next (finishCommand 0xFFFFFFFF s) ∧
    exec (.memRead f) s = .next (finishCommand 0xFFFFFFFF s)

/-- R253: checks take no step of their own. A command that fails a check goes from acceptance straight to its
`finish`: its first engine step is that `finish`. That `finishCommand` clears the working state is the model's
choice (assumption log 7). -/
def Obligations.FailedCheckFinishesAtOnce : Prop :=
  ∀ s : State, s.pos = .dispatch →
    s.latch.f.reserved = true ∨ s.latch.op = 0 ∨ 6 ≤ s.latch.op.toNat ∨
      (s.latch.op = opInit ∧ freqLegal s.latch.freq = false) ∨
      (isTransaction s.latch.op = true ∧ argsOk s.ready s.latch.buf s.latch.count = false) →
    engineStep s = .next (finishCommand 0xFFFFFFFF s)

/-! ### Transactions (spec/43_transactions.md) -/

/-- SEND's success (R205, R203, R208): with every handshake ACKNOWLEDGED, the trace of R205, RESULT = `L.count`, and
nothing else. That `finishCommand` clears the working state is the model's choice (assumption log 7). -/
def Obligations.SendSucceeds : Prop :=
  ∀ (f : CmdFields) (s : State), readyToRun f s → bufferAdmitted s →
    (∀ j, j ≤ bytesWanted s → drawAt s j = LOW) →
    exec (.send f) s = .next (finishCommand s.latch.count { skipDraws (bytesWanted s + 1) s with
      ack := .acknowledged, sclO := HIGH, sdaO := HIGH
      trace := s.trace ++ (Trace.address (f.dev &&& 0xFE) LOW ++
        Trace.sentAll s.latch.buf.toNat (loadBytes s.mem s.latch.buf.toNat (bytesWanted s)) ++ Trace.stop) })

/-- R207: the WAIT_ACK after data byte `j` is NOT-ACKNOWLEDGED. SEND has read and sent bytes 0 to `j` once each,
issues one STOP and returns E_NOACK_DATA, and nothing else changes. That `finishCommand` clears the working state is
the model's choice (assumption log 7). -/
def Obligations.SendDataNoAck : Prop :=
  ∀ (f : CmdFields) (s : State) (j : Nat), readyToRun f s → j < bytesWanted s →
    (∀ i, i ≤ j → portAdmits s.plat (s.latch.buf.toNat + i) = true) →
    (∀ i, i ≤ j → drawAt s i = LOW) → drawAt s (j + 1) = HIGH →
    exec (.send f) s = .next (finishCommand 0xFFFFFFFC { skipDraws (j + 2) s with
      ack := .notAcknowledged, sclO := HIGH, sdaO := HIGH
      trace := s.trace ++ (Trace.address (f.dev &&& 0xFE) LOW ++
        Trace.sentAll s.latch.buf.toNat (loadBytes s.mem s.latch.buf.toNat j) ++
        Trace.sent (s.latch.buf.toNat + j) (Memory.read s.mem (s.latch.buf.toNat + j)) HIGH ++ Trace.stop) })

/-- R206, R211 (and fail A of R215, R220): the first address byte is not acknowledged. The transaction issues STOP
once and returns E_NOACK_ADDR; no buffer byte is read, sent or written, and nothing else changes. That
`finishCommand` clears the working state is the model's choice (assumption log 7). -/
def Obligations.AddressNoAck : Prop :=
  ∀ (f : CmdFields) (s : State), f.reserved = false →
    argsOk s.ready s.latch.buf s.latch.count = true → drawAt s 0 = HIGH →
    let failA := fun (addr : Byte) =>
      (Host.Outcome.next (finishCommand 0xFFFFFFFE { skipDraws 1 s with
        ack := .notAcknowledged, sclO := HIGH, sdaO := HIGH
        trace := s.trace ++ (Trace.address addr HIGH ++ Trace.stop) }) : Host.Outcome State Fault Refusal)
    exec (.send f) s = failA (f.dev &&& 0xFE) ∧ exec (.memWrite f) s = failA (f.dev &&& 0xFE) ∧
      exec (.memRead f) s = failA (f.dev &&& 0xFE) ∧ exec (.recv f) s = failA (f.dev ||| 0x01)

/-- RECV's success (R210, R212, R213): the address ACKNOWLEDGED, the bytes the samples assemble are stored in
ascending order, ACK after each but the last and NAK after the last; RESULT = `L.count`, and nothing else. That
`finishCommand` clears the working state is the model's choice (assumption log 7). -/
def Obligations.RecvSucceeds : Prop :=
  ∀ (f : CmdFields) (s : State), readyToRun f s → bufferAdmitted s → drawAt s 0 = LOW →
    exec (.recv f) s = .next (finishCommand s.latch.count { skipDraws (1 + 8 * bytesWanted s) s with
      ack := .acknowledged, acc := drawnByte s (1 + 8 * (bytesWanted s - 1)), sclO := HIGH, sdaO := HIGH
      mem := storeBytes s.mem s.latch.buf.toNat (drawnBytes s 1 (bytesWanted s))
      trace := s.trace ++ (Trace.address (f.dev ||| 0x01) LOW ++
        Trace.receivedAll s.latch.buf.toNat (drawnBytes s 1 (bytesWanted s)) ++ Trace.stop) })

/-- MEM_WRITE's success (R215, R218). That `finishCommand` clears the working state is the model's choice
(assumption log 7). -/
def Obligations.MemWriteSucceeds : Prop :=
  ∀ (f : CmdFields) (s : State), readyToRun f s → bufferAdmitted s →
    (∀ j, j ≤ bytesWanted s + 1 → drawAt s j = LOW) →
    exec (.memWrite f) s = .next (finishCommand s.latch.count { skipDraws (bytesWanted s + 2) s with
      ack := .acknowledged, sclO := HIGH, sdaO := HIGH
      trace := s.trace ++ (Trace.address (f.dev &&& 0xFE) LOW ++ Trace.byte f.reg LOW ++
        Trace.sentAll s.latch.buf.toNat (loadBytes s.mem s.latch.buf.toNat (bytesWanted s)) ++ Trace.stop) })

/-- R217 (and fail B of R220): the register-offset byte is not acknowledged. MEM_WRITE and MEM_READ issue STOP once
and return E_NOACK_REG, with no data byte, and nothing else changes. That `finishCommand` clears the working state
is the model's choice (assumption log 7). -/
def Obligations.RegisterNoAck : Prop :=
  ∀ (f : CmdFields) (s : State), f.reserved = false →
    argsOk s.ready s.latch.buf s.latch.count = true → drawAt s 0 = LOW → drawAt s 1 = HIGH →
    let failB := (Host.Outcome.next (finishCommand 0xFFFFFFFD { skipDraws 2 s with
        ack := .notAcknowledged, sclO := HIGH, sdaO := HIGH
        trace := s.trace ++ (Trace.address (f.dev &&& 0xFE) LOW ++ Trace.byte f.reg HIGH ++ Trace.stop) }) :
      Host.Outcome State Fault Refusal)
    exec (.memWrite f) s = failB ∧ exec (.memRead f) s = failB

/-- MEM_WRITE's fail C at data byte `j` (R215, R218). That `finishCommand` clears the working state is the model's
choice (assumption log 7). -/
def Obligations.MemWriteDataNoAck : Prop :=
  ∀ (f : CmdFields) (s : State) (j : Nat), readyToRun f s → j < bytesWanted s →
    (∀ i, i ≤ j → portAdmits s.plat (s.latch.buf.toNat + i) = true) →
    (∀ i, i ≤ j + 1 → drawAt s i = LOW) → drawAt s (j + 2) = HIGH →
    exec (.memWrite f) s = .next (finishCommand 0xFFFFFFFC { skipDraws (j + 3) s with
      ack := .notAcknowledged, sclO := HIGH, sdaO := HIGH
      trace := s.trace ++ (Trace.address (f.dev &&& 0xFE) LOW ++ Trace.byte f.reg LOW ++
        Trace.sentAll s.latch.buf.toNat (loadBytes s.mem s.latch.buf.toNat j) ++
        Trace.sent (s.latch.buf.toNat + j) (Memory.read s.mem (s.latch.buf.toNat + j)) HIGH ++ Trace.stop) })

/-- MEM_READ's success (R220, R225, R226): the write phase with its own STOP, a fresh START, the delegated read.
That `finishCommand` clears the working state is the model's choice (assumption log 7). -/
def Obligations.MemReadSucceeds : Prop :=
  ∀ (f : CmdFields) (s : State), readyToRun f s → bufferAdmitted s →
    drawAt s 0 = LOW → drawAt s 1 = LOW → drawAt s 2 = LOW →
    exec (.memRead f) s = .next (finishCommand s.latch.count { skipDraws (3 + 8 * bytesWanted s) s with
      ack := .acknowledged, acc := drawnByte s (3 + 8 * (bytesWanted s - 1)), sclO := HIGH, sdaO := HIGH
      mem := storeBytes s.mem s.latch.buf.toNat (drawnBytes s 3 (bytesWanted s))
      trace := s.trace ++ (Trace.address (f.dev &&& 0xFE) LOW ++ Trace.byte f.reg LOW ++ Trace.stop ++
        (Trace.address (f.dev ||| 0x01) LOW ++
          Trace.receivedAll s.latch.buf.toNat (drawnBytes s 3 (bytesWanted s)) ++ Trace.stop)) })

/-- R222, R223: the read-phase address byte is not acknowledged. MEM_READ returns E_SHORT_READ; exactly one STOP
follows the failing handshake, two STOPs in the whole command; no buffer byte is written, and nothing else changes.
That `finishCommand` clears the working state is the model's choice (assumption log 7). -/
def Obligations.MemReadShortRead : Prop :=
  ∀ (f : CmdFields) (s : State), f.reserved = false →
    argsOk s.ready s.latch.buf s.latch.count = true →
    drawAt s 0 = LOW → drawAt s 1 = LOW → drawAt s 2 = HIGH →
    exec (.memRead f) s = .next (finishCommand 0xFFFFFFFB { skipDraws 3 s with
      ack := .notAcknowledged, sclO := HIGH, sdaO := HIGH
      trace := s.trace ++ (Trace.address (f.dev &&& 0xFE) LOW ++ Trace.byte f.reg LOW ++ Trace.stop ++
        (Trace.address (f.dev ||| 0x01) HIGH ++ Trace.stop)) })

/-- R227: a slave that returns the bytes a MEM_WRITE sent, most-significant bit first, in a later MEM_READ of the
same count makes MEM_READ store exactly the bytes MEM_WRITE read. `s` is the accepted MEM_WRITE and `u` the accepted
MEM_READ. -/
def Obligations.EchoSlaveRoundTrip : Prop :=
  ∀ (f g : CmdFields) (s u : State), g.dev = f.dev → g.reg = f.reg → u.latch.count = s.latch.count →
    readyToRun f s → bufferAdmitted s → (∀ j, j ≤ bytesWanted s + 1 → drawAt s j = LOW) →
    readyToRun g u → bufferAdmitted u → Memory.wf u.mem = true →
    drawAt u 0 = LOW → drawAt u 1 = LOW → drawAt u 2 = LOW →
    (∀ i b, i < bytesWanted s → b < 8 →
      drawAt u (3 + 8 * i + b) = (Memory.read s.mem (s.latch.buf.toNat + i)).getLsbD (7 - b)) →
    ∃ t v, exec (.memWrite f) s = .next t ∧ exec (.memRead g) u = .next v ∧
      t.result = s.latch.count ∧ v.result = s.latch.count ∧
      loadBytes v.mem u.latch.buf.toNat (bytesWanted u) = loadBytes s.mem s.latch.buf.toNat (bytesWanted s)

/-- R202: no transaction writes TICK, READY, CMD, FREQ, BUF or COUNT, whatever its outcome; nor the latched command,
the platform, the host's inputs and reads. -/
def Obligations.TransactionFrame : Prop :=
  ∀ (f : CmdFields) (s t : State) (i : Instr),
    i = .send f ∨ i = .recv f ∨ i = .memWrite f ∨ i = .memRead f → exec i s = .next t →
    t.tick = s.tick ∧ t.ready = s.ready ∧ t.cmd = s.cmd ∧ t.freq = s.freq ∧ t.buf = s.buf ∧ t.count = s.count ∧
      t.latch = s.latch ∧ t.plat = s.plat ∧ t.turns = s.turns ∧ t.reads = s.reads ∧ t.hostStuck = s.hostStuck

/-- R208, R257: SEND and MEM_WRITE write no memory, whatever their outcome. R75, R213: RECV and MEM_READ change no
byte of memory outside the addresses `L.buf + i` of their buffer, whatever their outcome. -/
def Obligations.TransactionMemoryFrame : Prop :=
  ∀ (f : CmdFields) (s t : State),
    (exec (.send f) s = .next t ∨ exec (.memWrite f) s = .next t →
      ∀ a, Memory.read t.mem a = Memory.read s.mem a) ∧
    (exec (.recv f) s = .next t ∨ exec (.memRead f) s = .next t →
      ∀ a, (∀ k, k < bytesWanted s → a ≠ effAddr s.latch.buf k) → Memory.read t.mem a = Memory.read s.mem a)

/-- R250, R251: which results each command can finish with (BUSY goes from 1 to 0). -/
def Obligations.CommandResults : Prop :=
  ∀ (f : CmdFields) (s t : State), s.busy = true → t.busy = false →
    (exec (.init f) s = .next t → t.result = 0 ∨ t.result = 0xFFFFFFFF) ∧
    (exec (.send f) s = .next t → t.result = s.latch.count ∨ t.result = 0xFFFFFFFF ∨ t.result = 0xFFFFFFFE ∨
      t.result = 0xFFFFFFFC) ∧
    (exec (.recv f) s = .next t → t.result = s.latch.count ∨ t.result = 0xFFFFFFFF ∨ t.result = 0xFFFFFFFE) ∧
    (exec (.memWrite f) s = .next t → t.result = s.latch.count ∨ t.result = 0xFFFFFFFF ∨
      t.result = 0xFFFFFFFE ∨ t.result = 0xFFFFFFFD ∨ t.result = 0xFFFFFFFC) ∧
    (exec (.memRead f) s = .next t → t.result = s.latch.count ∨ t.result = 0xFFFFFFFF ∨
      t.result = 0xFFFFFFFE ∨ t.result = 0xFFFFFFFD ∨ t.result = 0xFFFFFFFB)

/-- R261: once accepted, a command runs to its `finish`, whatever the environment answers, where the memory port
admits its buffer. -/
def Obligations.CommandsRunToFinish : Prop :=
  ∀ (op : BitVec 4) (f : CmdFields) (s : State), bufferAdmitted s →
    ∃ t, exec (decodeOp op f) s = .next t ∧ t.busy = false ∧ t.pos = .idle

/-- R297, successes: the ticks, events and samples of each transaction of N bytes. -/
def Obligations.SuccessCounts : Prop :=
  ∀ (f : CmdFields) (s : State), readyToRun f s → bufferAdmitted s →
    let counts := fun (i : Instr) (ticks events samples : Nat) =>
      ∃ t e, exec i s = .next t ∧ t.trace = s.trace ++ e ∧ Trace.ticks e = ticks ∧ e.length = events ∧
        Trace.samples e = samples
    let n := bytesWanted s
    ((∀ j, j ≤ n → drawAt s j = LOW) → counts (.send f) (36 + 28 * n) (72 + 57 * n) (n + 1)) ∧
    (drawAt s 0 = LOW → counts (.recv f) (36 + 20 * n) (72 + 49 * n) (1 + 8 * n)) ∧
    ((∀ j, j ≤ n + 1 → drawAt s j = LOW) → counts (.memWrite f) (64 + 28 * n) (128 + 57 * n) (n + 2)) ∧
    ((∀ j, j ≤ 2 → drawAt s j = LOW) → counts (.memRead f) (100 + 20 * n) (200 + 49 * n) (3 + 8 * n))

/-- R297, failures: the ticks, events and samples up to each failing handshake and its STOP. -/
def Obligations.FailureCounts : Prop :=
  ∀ (f : CmdFields) (s : State), readyToRun f s → bufferAdmitted s →
    let counts := fun (i : Instr) (ticks events samples : Nat) =>
      ∃ t e, exec i s = .next t ∧ t.trace = s.trace ++ e ∧ Trace.ticks e = ticks ∧ e.length = events ∧
        Trace.samples e = samples
    (drawAt s 0 = HIGH → counts (.send f) 36 72 1 ∧ counts (.recv f) 36 72 1 ∧ counts (.memWrite f) 36 72 1 ∧
      counts (.memRead f) 36 72 1) ∧
    (drawAt s 0 = LOW → drawAt s 1 = HIGH → counts (.memWrite f) 64 128 2 ∧ counts (.memRead f) 64 128 2) ∧
    (drawAt s 0 = LOW → drawAt s 1 = LOW → drawAt s 2 = HIGH → counts (.memRead f) 100 200 3) ∧
    (∀ j, j < bytesWanted s → (∀ i, i ≤ j → drawAt s i = LOW) → drawAt s (j + 1) = HIGH →
      counts (.send f) (64 + 28 * j) (129 + 57 * j) (j + 2)) ∧
    (∀ j, j < bytesWanted s → (∀ i, i ≤ j + 1 → drawAt s i = LOW) → drawAt s (j + 2) = HIGH →
      counts (.memWrite f) (92 + 28 * j) (185 + 57 * j) (j + 3))

/-! ### The engine event by event, and the whole machine (spec/10_state.md, spec/60_exceptions.md) -/

/-- A step runs the decoded instruction. Where the turn is the engine's whole-instruction turn and the engine stands
at an accepted command whose latched OP and fields are those of the word `w`, the step is `exec` of the decoded
command; where it stands at a micro-operation's first step, the step is `exec` of it, and then the sequencer goes
back to the procedure that called it (`advance`). Whole-instruction turns are the model's choice (assumption log 2). -/
def Obligations.StepRunsDecodedInstruction : Prop :=
  (∀ (s : State) (w : Word) (rest : List Turn), s.turns = .instr :: rest → s.pos = .dispatch →
    s.latch.op = opOf w → s.latch.f = cmdFieldsOf w →
    step s = exec (decodeCmd w) { s with turns := rest }) ∧
  ∀ (s : State) (w : BitVec 11) (u : MicroOp) (site : CallSite) (rest : List Turn), s.turns = .instr :: rest →
    s.pos = .micro w 0 site → decodeUop w = .ok u → s.k = topBit u →
    step s = mapNext (advance site) (exec u.toInstr { s with turns := rest })

/-- The two grains are one machine: engine steps alone, from an accepted command, reach exactly the state that
`exec` of the decoded command gives (a stuck engine included); and from a micro-operation's first step, as many
engine steps as it has events reach what `exec` and the return to its caller give (R50, R252, R253). The two grains
are the model's choice (assumption log 2). -/
def Obligations.EngineStepsRefineExec : Prop :=
  (∀ s : State, s.pos = .dispatch → ∃ n, engineRun n s = exec (decodeOp s.latch.op s.latch.f) s) ∧
  ∀ (u : MicroOp) (site : CallSite) (s : State), s.pos = .micro (encodeUop u) 0 site → s.k = topBit u →
    engineRun ((topBit u + 1) * (bitSteps u 0).length) s = mapNext (advance site) (exec u.toInstr s)

/-- Every step keeps the invariant `State.Inv` of Safety.lean: the handle, the BUSY flag, the latched command, the
line levels of R159 at every position of the sequencer, the working state, the legal results, the canonical form of
memory. The form of memory and the list of races are the model's (assumption logs 5 and 10). -/
def Obligations.StepKeepsInvariant : Prop :=
  ∀ s t : State, s.Inv → step s = .next t → t.Inv

/-- In a state that meets the invariant no engine turn faults: the only fault a run can meet is a CMD write while
BUSY = 1 (R290); nothing is refused. -/
def Obligations.OnlyCmdWriteFaults : Prop :=
  ∀ s : State, s.Inv → (∃ t, step s = .next t) ∨ (step s = .fault .cmdWriteWhileBusy ∧ s.busy = true)

/-- R47: whenever BUSY = 0, both lines are HIGH. -/
def Obligations.IdleLinesHigh : Prop :=
  ∀ s t : State, s.Inv → step s = .next t → t.busy = false → t.sclO = HIGH ∧ t.sdaO = HIGH

/-- R159, entry column: in the state after any step that stands at a micro-operation's first step, the lines are as the
table has them. A command's first START is entered from the accepted command, where both lines are HIGH. -/
def Obligations.MicroOpEntryLines : Prop :=
  ∀ s t : State, s.Inv → step s = .next t →
    (t.pos = .dispatch → t.sclO = HIGH ∧ t.sdaO = HIGH) ∧
    ∀ (u : MicroOp) (site : CallSite), t.pos = .micro (encodeUop u) 0 site → t.k = topBit u →
      (u = .start → t.sclO = HIGH ∧ t.sdaO = HIGH) ∧ (u = .stop → t.sclO = LOW ∧ t.sdaO = HIGH) ∧
      (u = .ack → t.sclO = HIGH) ∧ (u = .nak → t.sclO = HIGH) ∧ (u = .waitAck → t.sclO = LOW) ∧
      (∀ v, u = .sendByte v → t.sclO = LOW) ∧ (u = .recvByte → t.sclO = LOW)

/-- R292: in the state after any step that stands inside RECV_BYTE, the block drives the data line LOW if the byte is
not the first (ACK left it LOW), and leaves it HIGH during the first (R183). -/
def Obligations.DataLineDuringReceive : Prop :=
  ∀ (s t : State) (sub : Nat) (site : CallSite), s.Inv → step s = .next t →
    t.pos = .micro (encodeUop .recvByte) sub site →
    (t.i = 0 → t.sdaO = HIGH) ∧ (0 < t.i → t.sdaO = LOW)

/-- R184, R152: an engine step changes the data line while the clock is HIGH only in START, where it falls, and in
STOP, where it rises. -/
def Obligations.DataEdgesUnderHighClock : Prop :=
  ∀ s t : State, s.Inv → engineStep s = .next t → s.sclO = HIGH → t.sclO = HIGH → t.sdaO ≠ s.sdaO →
    (∃ site, s.pos = .micro (encodeUop .start) 4 site ∧ t.sdaO = LOW) ∨
    (∃ site, s.pos = .micro (encodeUop .stop) 6 site ∧ t.sdaO = HIGH)

/-- R46: the pins hold the last value set. Whatever a step does but a reset, the pins after it are the pins before it
changed by the SetSCL and SetSDA events it appended to the trace, and by nothing else. -/
def Obligations.PinsFollowTrace : Prop :=
  ∀ s t : State, resetNext s = false → step s = .next t →
    ∃ e, t.trace = s.trace ++ e ∧ (t.sclO, t.sdaO) = Trace.replay e (s.sclO, s.sdaO)

/-- R13, R50: an engine step appends one event, or none; one that appends none is INIT's configuration step, a `finish`,
or no step at all, which leaves the state as it is and which only an idle engine takes (R252) or one stuck at an access
its port does not admit (R81). That "no step" is a step that leaves the state as it is, is DEDUCED (assumption log 8). -/
def Obligations.EngineStepOneEvent : Prop :=
  ∀ s t : State, s.Inv → engineStep s = .next t →
    (∃ e, t.trace = s.trace ++ [e]) ∨
    (t.trace = s.trace ∧
      ((t.pos = .initSCL ∧ t.ready = true) ∨ (s.busy = true ∧ t.busy = false) ∨
        (t = s ∧ (s.pos = .idle ∨
          ((s.pos = .memRead ∨ s.pos = .memWrite) ∧
            portAdmits s.plat (effAddr s.latch.buf s.i) = false)))))

/-- R75: every byte the engine reads or writes lies in the latched buffer, at `L.buf + i` without wrap-around, above
the null address and below 2^32. -/
def Obligations.AccessesInsideBuffer : Prop :=
  ∀ (s t : State) (a : Nat) (v : Byte), s.Inv → engineStep s = .next t →
    t.trace = s.trace ++ [.memRead a v] ∨ t.trace = s.trace ++ [.memWrite a v] →
    a = effAddr s.latch.buf s.i ∧ s.latch.buf.toNat ≤ a ∧ a < s.latch.buf.toNat + bytesWanted s ∧
      1 ≤ a ∧ a < 2 ^ 32

/-- R81: at an access the memory port does not admit the engine has no step: it stays where it is, BUSY stays as it
is and nothing happens; and an idle engine has no step either (R252). That a stuck engine's step leaves the state as
it is, is DEDUCED (assumption log 8). -/
def Obligations.EngineStuckOrIdle : Prop :=
  (∀ s : State, s.pos = .memRead ∨ s.pos = .memWrite →
    portAdmits s.plat (effAddr s.latch.buf s.i) = false → engineStep s = .next s) ∧
  ∀ s : State, s.pos = .idle → engineStep s = .next s

/-- R88: if the host writes a byte of the running command's buffer, the engine's MemRead of it returns either the
old or the new value. The form of the race is the model's choice (assumption log 10). -/
def Obligations.RacedReadOldOrNew : Prop :=
  ∀ (s : State) (a : Nat) (v : Byte), Memory.wf s.mem = true → activeByte s a = true → racedValues a s = [] →
    let x := (memReadByte a (hostStoreByte a v s)).1
    x = v ∨ x = Memory.read s.mem a

/-- R88: a host load of a byte of system memory changes no memory. Outside the buffer of a running RECV or MEM_READ it
sees the value in memory (R84). In that buffer, a byte already received shows the value in memory or an earlier one
since the command was accepted; a byte not yet received shows one of these (old) or the byte that the engine, left to
itself, goes on to write there (new). The form of the race and the list `reads` are the model's choice (assumption
logs 10 and 21). -/
def Obligations.HostLoadOldOrNew : Prop :=
  ∀ (s : State) (a : Nat), ∃ x : Byte,
    (hostLoadByte a s).reads = s.reads ++ [x.setWidth 32] ∧ (hostLoadByte a s).mem = s.mem ∧
    ((activeByte s a && isReceive s.latch.op) = false → x = Memory.read s.mem a) ∧
    (a < effAddr s.latch.buf (bytesReceived s) → x = Memory.read s.mem a ∨ x ∈ racedValues a s) ∧
    (x = Memory.read s.mem a ∨ x ∈ racedValues a s ∨
      ∃ n t e, engineRun n s = .next t ∧ t.trace = s.trace ++ e ++ [.memWrite a x])

/-- R41, R53: a turn of the host agent leaves the engine alone: the pins, the trace, the handle, RESULT, the working
state and the platform always keep their values, and BUSY, CMD, the position and the latched command do too unless the
turn is a CMD write while BUSY = 0. R84, R87: a host byte store that is not stuck and not in the window makes
that byte read as the byte stored and every other byte as before; every other host turn leaves memory as it was. The byte-wide host store and the
mark `hostStuck` are the model's choice (assumption logs 14 and 9). -/
def Obligations.HostLeavesEngineAlone : Prop :=
  ∀ (s t : State) (act : HostAct) (rest : List Turn), s.turns = .host act :: rest → step s = .next t →
    (t.sclO = s.sclO ∧ t.sdaO = s.sdaO ∧ t.trace = s.trace ∧ t.tick = s.tick ∧ t.ready = s.ready ∧
      t.result = s.result ∧ t.k = s.k ∧ t.i = s.i ∧ t.acc = s.acc ∧ t.ack = s.ack ∧ t.phase = s.phase ∧ t.r = s.r ∧
      t.plat = s.plat ∧ t.sdaIn = s.sdaIn ∧ t.drawn = s.drawn) ∧
    (s.busy = true ∨ (∀ w, act ≠ .store s.plat.base 4 w) →
      t.busy = s.busy ∧ t.pos = s.pos ∧ t.latch = s.latch ∧ t.cmd = s.cmd) ∧
    (∀ (a : Word) (v : Byte), act = .memStore a v → s.hostStuck = false → inWindow s a = false →
      Memory.wf s.mem = true →
      Memory.read t.mem a.toNat = v ∧ ∀ b, b ≠ a.toNat → Memory.read t.mem b = Memory.read s.mem b) ∧
    ((∀ a v, act = .memStore a v → s.hostStuck = true ∨ inWindow s a = true) → t.mem = s.mem)

/-- R282: from an idle block, the host program `INIT f` with a legal frequency runs to BUSY = 0 with RESULT = 0 and
READY = 1, one engine step between two polls; the run has ended well, and R300's observation of the command is the two
line sets, RESULT, TICK, STATUS = 2, both lines HIGH and no byte written. How often POLL reads is the model's choice
(assumption log 16). -/
def Obligations.BootSequence : Prop :=
  ∀ (s : State) (f : Word), s.busy = false → s.pos = .idle → s.hostStuck = false →
    1 ≤ f.toNat → f.toNat ≤ 250000 → s.turns = pseudoInit s.plat.base f →
    ∃ t : State, Host.Core.run Sys2Proof.core 11 s = .next t ∧
      t.busy = false ∧ t.result = 0 ∧ t.ready = true ∧ t.tick.toNat = 1000000 / f.toNat / 4 ∧ t.turns = [] ∧
      t.trace = s.trace ++ [.setSCL true, .setSDA true] ∧ readReg offStatus t = 2 ∧
      endedWell (Host.Core.run Sys2Proof.core 11 s) = true ∧
      observe s t = { trace := [.setSCL true, .setSDA true], result := 0, tick := t.tick, status := 2
                      sclO := HIGH, sdaO := HIGH, written := [] }
end

