-- ==== Sys2Proof/Laws/State.lean ====
section
/-! SUPPORT. What each update of the state does to each field: one lemma per field per update, true by `rfl`. -/

namespace Sys2Proof.Machine

/-! ### `emit`: An event (R13) changes the trace only. -/

@[simp] theorem emit_cmd (e : Event) (s : State) : (emit e s).cmd = s.cmd := rfl
@[simp] theorem emit_busy (e : Event) (s : State) : (emit e s).busy = s.busy := rfl
@[simp] theorem emit_ready (e : Event) (s : State) : (emit e s).ready = s.ready := rfl
@[simp] theorem emit_freq (e : Event) (s : State) : (emit e s).freq = s.freq := rfl
@[simp] theorem emit_tick (e : Event) (s : State) : (emit e s).tick = s.tick := rfl
@[simp] theorem emit_buf (e : Event) (s : State) : (emit e s).buf = s.buf := rfl
@[simp] theorem emit_count (e : Event) (s : State) : (emit e s).count = s.count := rfl
@[simp] theorem emit_result (e : Event) (s : State) : (emit e s).result = s.result := rfl
@[simp] theorem emit_sclO (e : Event) (s : State) : (emit e s).sclO = s.sclO := rfl
@[simp] theorem emit_sdaO (e : Event) (s : State) : (emit e s).sdaO = s.sdaO := rfl
@[simp] theorem emit_latch (e : Event) (s : State) : (emit e s).latch = s.latch := rfl
@[simp] theorem emit_pos (e : Event) (s : State) : (emit e s).pos = s.pos := rfl
@[simp] theorem emit_k (e : Event) (s : State) : (emit e s).k = s.k := rfl
@[simp] theorem emit_i (e : Event) (s : State) : (emit e s).i = s.i := rfl
@[simp] theorem emit_acc (e : Event) (s : State) : (emit e s).acc = s.acc := rfl
@[simp] theorem emit_ack (e : Event) (s : State) : (emit e s).ack = s.ack := rfl
@[simp] theorem emit_phase (e : Event) (s : State) : (emit e s).phase = s.phase := rfl
@[simp] theorem emit_r (e : Event) (s : State) : (emit e s).r = s.r := rfl
@[simp] theorem emit_mem (e : Event) (s : State) : (emit e s).mem = s.mem := rfl
@[simp] theorem emit_trace (e : Event) (s : State) : (emit e s).trace = s.trace ++ [e] := rfl
@[simp] theorem emit_sdaIn (e : Event) (s : State) : (emit e s).sdaIn = s.sdaIn := rfl
@[simp] theorem emit_drawn (e : Event) (s : State) : (emit e s).drawn = s.drawn := rfl
@[simp] theorem emit_raced (e : Event) (s : State) : (emit e s).raced = s.raced := rfl
@[simp] theorem emit_races (e : Event) (s : State) : (emit e s).races = s.races := rfl
@[simp] theorem emit_turns (e : Event) (s : State) : (emit e s).turns = s.turns := rfl
@[simp] theorem emit_reads (e : Event) (s : State) : (emit e s).reads = s.reads := rfl
@[simp] theorem emit_hostStuck (e : Event) (s : State) : (emit e s).hostStuck = s.hostStuck := rfl
@[simp] theorem emit_plat (e : Event) (s : State) : (emit e s).plat = s.plat := rfl

/-! ### `setSCL`: `SetSCL` (R13). -/

@[simp] theorem setSCL_cmd (b : Level) (s : State) : (setSCL b s).cmd = s.cmd := rfl
@[simp] theorem setSCL_busy (b : Level) (s : State) : (setSCL b s).busy = s.busy := rfl
@[simp] theorem setSCL_ready (b : Level) (s : State) : (setSCL b s).ready = s.ready := rfl
@[simp] theorem setSCL_freq (b : Level) (s : State) : (setSCL b s).freq = s.freq := rfl
@[simp] theorem setSCL_tick (b : Level) (s : State) : (setSCL b s).tick = s.tick := rfl
@[simp] theorem setSCL_buf (b : Level) (s : State) : (setSCL b s).buf = s.buf := rfl
@[simp] theorem setSCL_count (b : Level) (s : State) : (setSCL b s).count = s.count := rfl
@[simp] theorem setSCL_result (b : Level) (s : State) : (setSCL b s).result = s.result := rfl
@[simp] theorem setSCL_sclO (b : Level) (s : State) : (setSCL b s).sclO = b := rfl
@[simp] theorem setSCL_sdaO (b : Level) (s : State) : (setSCL b s).sdaO = s.sdaO := rfl
@[simp] theorem setSCL_latch (b : Level) (s : State) : (setSCL b s).latch = s.latch := rfl
@[simp] theorem setSCL_pos (b : Level) (s : State) : (setSCL b s).pos = s.pos := rfl
@[simp] theorem setSCL_k (b : Level) (s : State) : (setSCL b s).k = s.k := rfl
@[simp] theorem setSCL_i (b : Level) (s : State) : (setSCL b s).i = s.i := rfl
@[simp] theorem setSCL_acc (b : Level) (s : State) : (setSCL b s).acc = s.acc := rfl
@[simp] theorem setSCL_ack (b : Level) (s : State) : (setSCL b s).ack = s.ack := rfl
@[simp] theorem setSCL_phase (b : Level) (s : State) : (setSCL b s).phase = s.phase := rfl
@[simp] theorem setSCL_r (b : Level) (s : State) : (setSCL b s).r = s.r := rfl
@[simp] theorem setSCL_mem (b : Level) (s : State) : (setSCL b s).mem = s.mem := rfl
@[simp] theorem setSCL_trace (b : Level) (s : State) : (setSCL b s).trace = s.trace ++ [.setSCL b] := rfl
@[simp] theorem setSCL_sdaIn (b : Level) (s : State) : (setSCL b s).sdaIn = s.sdaIn := rfl
@[simp] theorem setSCL_drawn (b : Level) (s : State) : (setSCL b s).drawn = s.drawn := rfl
@[simp] theorem setSCL_raced (b : Level) (s : State) : (setSCL b s).raced = s.raced := rfl
@[simp] theorem setSCL_races (b : Level) (s : State) : (setSCL b s).races = s.races := rfl
@[simp] theorem setSCL_turns (b : Level) (s : State) : (setSCL b s).turns = s.turns := rfl
@[simp] theorem setSCL_reads (b : Level) (s : State) : (setSCL b s).reads = s.reads := rfl
@[simp] theorem setSCL_hostStuck (b : Level) (s : State) : (setSCL b s).hostStuck = s.hostStuck := rfl
@[simp] theorem setSCL_plat (b : Level) (s : State) : (setSCL b s).plat = s.plat := rfl

/-! ### `setSDA`: `SetSDA` (R13). -/

@[simp] theorem setSDA_cmd (b : Level) (s : State) : (setSDA b s).cmd = s.cmd := rfl
@[simp] theorem setSDA_busy (b : Level) (s : State) : (setSDA b s).busy = s.busy := rfl
@[simp] theorem setSDA_ready (b : Level) (s : State) : (setSDA b s).ready = s.ready := rfl
@[simp] theorem setSDA_freq (b : Level) (s : State) : (setSDA b s).freq = s.freq := rfl
@[simp] theorem setSDA_tick (b : Level) (s : State) : (setSDA b s).tick = s.tick := rfl
@[simp] theorem setSDA_buf (b : Level) (s : State) : (setSDA b s).buf = s.buf := rfl
@[simp] theorem setSDA_count (b : Level) (s : State) : (setSDA b s).count = s.count := rfl
@[simp] theorem setSDA_result (b : Level) (s : State) : (setSDA b s).result = s.result := rfl
@[simp] theorem setSDA_sclO (b : Level) (s : State) : (setSDA b s).sclO = s.sclO := rfl
@[simp] theorem setSDA_sdaO (b : Level) (s : State) : (setSDA b s).sdaO = b := rfl
@[simp] theorem setSDA_latch (b : Level) (s : State) : (setSDA b s).latch = s.latch := rfl
@[simp] theorem setSDA_pos (b : Level) (s : State) : (setSDA b s).pos = s.pos := rfl
@[simp] theorem setSDA_k (b : Level) (s : State) : (setSDA b s).k = s.k := rfl
@[simp] theorem setSDA_i (b : Level) (s : State) : (setSDA b s).i = s.i := rfl
@[simp] theorem setSDA_acc (b : Level) (s : State) : (setSDA b s).acc = s.acc := rfl
@[simp] theorem setSDA_ack (b : Level) (s : State) : (setSDA b s).ack = s.ack := rfl
@[simp] theorem setSDA_phase (b : Level) (s : State) : (setSDA b s).phase = s.phase := rfl
@[simp] theorem setSDA_r (b : Level) (s : State) : (setSDA b s).r = s.r := rfl
@[simp] theorem setSDA_mem (b : Level) (s : State) : (setSDA b s).mem = s.mem := rfl
@[simp] theorem setSDA_trace (b : Level) (s : State) : (setSDA b s).trace = s.trace ++ [.setSDA b] := rfl
@[simp] theorem setSDA_sdaIn (b : Level) (s : State) : (setSDA b s).sdaIn = s.sdaIn := rfl
@[simp] theorem setSDA_drawn (b : Level) (s : State) : (setSDA b s).drawn = s.drawn := rfl
@[simp] theorem setSDA_raced (b : Level) (s : State) : (setSDA b s).raced = s.raced := rfl
@[simp] theorem setSDA_races (b : Level) (s : State) : (setSDA b s).races = s.races := rfl
@[simp] theorem setSDA_turns (b : Level) (s : State) : (setSDA b s).turns = s.turns := rfl
@[simp] theorem setSDA_reads (b : Level) (s : State) : (setSDA b s).reads = s.reads := rfl
@[simp] theorem setSDA_hostStuck (b : Level) (s : State) : (setSDA b s).hostStuck = s.hostStuck := rfl
@[simp] theorem setSDA_plat (b : Level) (s : State) : (setSDA b s).plat = s.plat := rfl

/-! ### `delay`: `Delay` (R13). -/

@[simp] theorem delay_cmd (s : State) : (delay s).cmd = s.cmd := rfl
@[simp] theorem delay_busy (s : State) : (delay s).busy = s.busy := rfl
@[simp] theorem delay_ready (s : State) : (delay s).ready = s.ready := rfl
@[simp] theorem delay_freq (s : State) : (delay s).freq = s.freq := rfl
@[simp] theorem delay_tick (s : State) : (delay s).tick = s.tick := rfl
@[simp] theorem delay_buf (s : State) : (delay s).buf = s.buf := rfl
@[simp] theorem delay_count (s : State) : (delay s).count = s.count := rfl
@[simp] theorem delay_result (s : State) : (delay s).result = s.result := rfl
@[simp] theorem delay_sclO (s : State) : (delay s).sclO = s.sclO := rfl
@[simp] theorem delay_sdaO (s : State) : (delay s).sdaO = s.sdaO := rfl
@[simp] theorem delay_latch (s : State) : (delay s).latch = s.latch := rfl
@[simp] theorem delay_pos (s : State) : (delay s).pos = s.pos := rfl
@[simp] theorem delay_k (s : State) : (delay s).k = s.k := rfl
@[simp] theorem delay_i (s : State) : (delay s).i = s.i := rfl
@[simp] theorem delay_acc (s : State) : (delay s).acc = s.acc := rfl
@[simp] theorem delay_ack (s : State) : (delay s).ack = s.ack := rfl
@[simp] theorem delay_phase (s : State) : (delay s).phase = s.phase := rfl
@[simp] theorem delay_r (s : State) : (delay s).r = s.r := rfl
@[simp] theorem delay_mem (s : State) : (delay s).mem = s.mem := rfl
@[simp] theorem delay_trace (s : State) : (delay s).trace = s.trace ++ [.delay] := rfl
@[simp] theorem delay_sdaIn (s : State) : (delay s).sdaIn = s.sdaIn := rfl
@[simp] theorem delay_drawn (s : State) : (delay s).drawn = s.drawn := rfl
@[simp] theorem delay_raced (s : State) : (delay s).raced = s.raced := rfl
@[simp] theorem delay_races (s : State) : (delay s).races = s.races := rfl
@[simp] theorem delay_turns (s : State) : (delay s).turns = s.turns := rfl
@[simp] theorem delay_reads (s : State) : (delay s).reads = s.reads := rfl
@[simp] theorem delay_hostStuck (s : State) : (delay s).hostStuck = s.hostStuck := rfl
@[simp] theorem delay_plat (s : State) : (delay s).plat = s.plat := rfl

/-! ### `takeDraw`: The environment's answers move on (R45). -/

@[simp] theorem takeDraw_cmd (s : State) : (takeDraw s).cmd = s.cmd := rfl
@[simp] theorem takeDraw_busy (s : State) : (takeDraw s).busy = s.busy := rfl
@[simp] theorem takeDraw_ready (s : State) : (takeDraw s).ready = s.ready := rfl
@[simp] theorem takeDraw_freq (s : State) : (takeDraw s).freq = s.freq := rfl
@[simp] theorem takeDraw_tick (s : State) : (takeDraw s).tick = s.tick := rfl
@[simp] theorem takeDraw_buf (s : State) : (takeDraw s).buf = s.buf := rfl
@[simp] theorem takeDraw_count (s : State) : (takeDraw s).count = s.count := rfl
@[simp] theorem takeDraw_result (s : State) : (takeDraw s).result = s.result := rfl
@[simp] theorem takeDraw_sclO (s : State) : (takeDraw s).sclO = s.sclO := rfl
@[simp] theorem takeDraw_sdaO (s : State) : (takeDraw s).sdaO = s.sdaO := rfl
@[simp] theorem takeDraw_latch (s : State) : (takeDraw s).latch = s.latch := rfl
@[simp] theorem takeDraw_pos (s : State) : (takeDraw s).pos = s.pos := rfl
@[simp] theorem takeDraw_k (s : State) : (takeDraw s).k = s.k := rfl
@[simp] theorem takeDraw_i (s : State) : (takeDraw s).i = s.i := rfl
@[simp] theorem takeDraw_acc (s : State) : (takeDraw s).acc = s.acc := rfl
@[simp] theorem takeDraw_ack (s : State) : (takeDraw s).ack = s.ack := rfl
@[simp] theorem takeDraw_phase (s : State) : (takeDraw s).phase = s.phase := rfl
@[simp] theorem takeDraw_r (s : State) : (takeDraw s).r = s.r := rfl
@[simp] theorem takeDraw_mem (s : State) : (takeDraw s).mem = s.mem := rfl
@[simp] theorem takeDraw_trace (s : State) : (takeDraw s).trace = s.trace := rfl
@[simp] theorem takeDraw_sdaIn (s : State) : (takeDraw s).sdaIn = s.sdaIn.tail := rfl
@[simp] theorem takeDraw_drawn (s : State) : (takeDraw s).drawn = s.drawn + 1 := rfl
@[simp] theorem takeDraw_raced (s : State) : (takeDraw s).raced = s.raced := rfl
@[simp] theorem takeDraw_races (s : State) : (takeDraw s).races = s.races := rfl
@[simp] theorem takeDraw_turns (s : State) : (takeDraw s).turns = s.turns := rfl
@[simp] theorem takeDraw_reads (s : State) : (takeDraw s).reads = s.reads := rfl
@[simp] theorem takeDraw_hostStuck (s : State) : (takeDraw s).hostStuck = s.hostStuck := rfl
@[simp] theorem takeDraw_plat (s : State) : (takeDraw s).plat = s.plat := rfl

/-! ### `initConfigure`: INIT's configuration step (R132). -/

@[simp] theorem initConfigure_cmd (s : State) : (initConfigure s).cmd = s.cmd := rfl
@[simp] theorem initConfigure_busy (s : State) : (initConfigure s).busy = s.busy := rfl
@[simp] theorem initConfigure_ready (s : State) : (initConfigure s).ready = true := rfl
@[simp] theorem initConfigure_freq (s : State) : (initConfigure s).freq = s.freq := rfl
@[simp] theorem initConfigure_tick (s : State) : (initConfigure s).tick = tickOf s.latch.freq := rfl
@[simp] theorem initConfigure_buf (s : State) : (initConfigure s).buf = s.buf := rfl
@[simp] theorem initConfigure_count (s : State) : (initConfigure s).count = s.count := rfl
@[simp] theorem initConfigure_result (s : State) : (initConfigure s).result = s.result := rfl
@[simp] theorem initConfigure_sclO (s : State) : (initConfigure s).sclO = s.sclO := rfl
@[simp] theorem initConfigure_sdaO (s : State) : (initConfigure s).sdaO = s.sdaO := rfl
@[simp] theorem initConfigure_latch (s : State) : (initConfigure s).latch = s.latch := rfl
@[simp] theorem initConfigure_pos (s : State) : (initConfigure s).pos = s.pos := rfl
@[simp] theorem initConfigure_k (s : State) : (initConfigure s).k = s.k := rfl
@[simp] theorem initConfigure_i (s : State) : (initConfigure s).i = s.i := rfl
@[simp] theorem initConfigure_acc (s : State) : (initConfigure s).acc = s.acc := rfl
@[simp] theorem initConfigure_ack (s : State) : (initConfigure s).ack = s.ack := rfl
@[simp] theorem initConfigure_phase (s : State) : (initConfigure s).phase = s.phase := rfl
@[simp] theorem initConfigure_r (s : State) : (initConfigure s).r = s.r := rfl
@[simp] theorem initConfigure_mem (s : State) : (initConfigure s).mem = s.mem := rfl
@[simp] theorem initConfigure_trace (s : State) : (initConfigure s).trace = s.trace := rfl
@[simp] theorem initConfigure_sdaIn (s : State) : (initConfigure s).sdaIn = s.sdaIn := rfl
@[simp] theorem initConfigure_drawn (s : State) : (initConfigure s).drawn = s.drawn := rfl
@[simp] theorem initConfigure_raced (s : State) : (initConfigure s).raced = s.raced := rfl
@[simp] theorem initConfigure_races (s : State) : (initConfigure s).races = s.races := rfl
@[simp] theorem initConfigure_turns (s : State) : (initConfigure s).turns = s.turns := rfl
@[simp] theorem initConfigure_reads (s : State) : (initConfigure s).reads = s.reads := rfl
@[simp] theorem initConfigure_hostStuck (s : State) : (initConfigure s).hostStuck = s.hostStuck := rfl
@[simp] theorem initConfigure_plat (s : State) : (initConfigure s).plat = s.plat := rfl

/-! ### `goto`: A move of the sequencer (R50). -/

@[simp] theorem goto_cmd (p : Pos) (s : State) : (goto p s).cmd = s.cmd := rfl
@[simp] theorem goto_busy (p : Pos) (s : State) : (goto p s).busy = s.busy := rfl
@[simp] theorem goto_ready (p : Pos) (s : State) : (goto p s).ready = s.ready := rfl
@[simp] theorem goto_freq (p : Pos) (s : State) : (goto p s).freq = s.freq := rfl
@[simp] theorem goto_tick (p : Pos) (s : State) : (goto p s).tick = s.tick := rfl
@[simp] theorem goto_buf (p : Pos) (s : State) : (goto p s).buf = s.buf := rfl
@[simp] theorem goto_count (p : Pos) (s : State) : (goto p s).count = s.count := rfl
@[simp] theorem goto_result (p : Pos) (s : State) : (goto p s).result = s.result := rfl
@[simp] theorem goto_sclO (p : Pos) (s : State) : (goto p s).sclO = s.sclO := rfl
@[simp] theorem goto_sdaO (p : Pos) (s : State) : (goto p s).sdaO = s.sdaO := rfl
@[simp] theorem goto_latch (p : Pos) (s : State) : (goto p s).latch = s.latch := rfl
@[simp] theorem goto_pos (p : Pos) (s : State) : (goto p s).pos = p := rfl
@[simp] theorem goto_k (p : Pos) (s : State) : (goto p s).k = 0 := rfl
@[simp] theorem goto_i (p : Pos) (s : State) : (goto p s).i = s.i := rfl
@[simp] theorem goto_acc (p : Pos) (s : State) : (goto p s).acc = s.acc := rfl
@[simp] theorem goto_ack (p : Pos) (s : State) : (goto p s).ack = s.ack := rfl
@[simp] theorem goto_phase (p : Pos) (s : State) : (goto p s).phase = s.phase := rfl
@[simp] theorem goto_r (p : Pos) (s : State) : (goto p s).r = s.r := rfl
@[simp] theorem goto_mem (p : Pos) (s : State) : (goto p s).mem = s.mem := rfl
@[simp] theorem goto_trace (p : Pos) (s : State) : (goto p s).trace = s.trace := rfl
@[simp] theorem goto_sdaIn (p : Pos) (s : State) : (goto p s).sdaIn = s.sdaIn := rfl
@[simp] theorem goto_drawn (p : Pos) (s : State) : (goto p s).drawn = s.drawn := rfl
@[simp] theorem goto_raced (p : Pos) (s : State) : (goto p s).raced = s.raced := rfl
@[simp] theorem goto_races (p : Pos) (s : State) : (goto p s).races = s.races := rfl
@[simp] theorem goto_turns (p : Pos) (s : State) : (goto p s).turns = s.turns := rfl
@[simp] theorem goto_reads (p : Pos) (s : State) : (goto p s).reads = s.reads := rfl
@[simp] theorem goto_hostStuck (p : Pos) (s : State) : (goto p s).hostStuck = s.hostStuck := rfl
@[simp] theorem goto_plat (p : Pos) (s : State) : (goto p s).plat = s.plat := rfl

/-! ### `issue`: A call of a micro-operation (R14). -/

@[simp] theorem issue_cmd (u : MicroOp) (site : CallSite) (s : State) : (issue u site s).cmd = s.cmd := rfl
@[simp] theorem issue_busy (u : MicroOp) (site : CallSite) (s : State) : (issue u site s).busy = s.busy := rfl
@[simp] theorem issue_ready (u : MicroOp) (site : CallSite) (s : State) : (issue u site s).ready = s.ready := rfl
@[simp] theorem issue_freq (u : MicroOp) (site : CallSite) (s : State) : (issue u site s).freq = s.freq := rfl
@[simp] theorem issue_tick (u : MicroOp) (site : CallSite) (s : State) : (issue u site s).tick = s.tick := rfl
@[simp] theorem issue_buf (u : MicroOp) (site : CallSite) (s : State) : (issue u site s).buf = s.buf := rfl
@[simp] theorem issue_count (u : MicroOp) (site : CallSite) (s : State) : (issue u site s).count = s.count := rfl
@[simp] theorem issue_result (u : MicroOp) (site : CallSite) (s : State) : (issue u site s).result = s.result := rfl
@[simp] theorem issue_sclO (u : MicroOp) (site : CallSite) (s : State) : (issue u site s).sclO = s.sclO := rfl
@[simp] theorem issue_sdaO (u : MicroOp) (site : CallSite) (s : State) : (issue u site s).sdaO = s.sdaO := rfl
@[simp] theorem issue_latch (u : MicroOp) (site : CallSite) (s : State) : (issue u site s).latch = s.latch := rfl
@[simp] theorem issue_pos (u : MicroOp) (site : CallSite) (s : State) : (issue u site s).pos = .micro (encodeUop u) 0 site := rfl
@[simp] theorem issue_k (u : MicroOp) (site : CallSite) (s : State) : (issue u site s).k = topBit u := rfl
@[simp] theorem issue_i (u : MicroOp) (site : CallSite) (s : State) : (issue u site s).i = s.i := rfl
@[simp] theorem issue_acc (u : MicroOp) (site : CallSite) (s : State) : (issue u site s).acc = s.acc := rfl
@[simp] theorem issue_ack (u : MicroOp) (site : CallSite) (s : State) : (issue u site s).ack = s.ack := rfl
@[simp] theorem issue_phase (u : MicroOp) (site : CallSite) (s : State) : (issue u site s).phase = s.phase := rfl
@[simp] theorem issue_r (u : MicroOp) (site : CallSite) (s : State) : (issue u site s).r = s.r := rfl
@[simp] theorem issue_mem (u : MicroOp) (site : CallSite) (s : State) : (issue u site s).mem = s.mem := rfl
@[simp] theorem issue_trace (u : MicroOp) (site : CallSite) (s : State) : (issue u site s).trace = s.trace := rfl
@[simp] theorem issue_sdaIn (u : MicroOp) (site : CallSite) (s : State) : (issue u site s).sdaIn = s.sdaIn := rfl
@[simp] theorem issue_drawn (u : MicroOp) (site : CallSite) (s : State) : (issue u site s).drawn = s.drawn := rfl
@[simp] theorem issue_raced (u : MicroOp) (site : CallSite) (s : State) : (issue u site s).raced = s.raced := rfl
@[simp] theorem issue_races (u : MicroOp) (site : CallSite) (s : State) : (issue u site s).races = s.races := rfl
@[simp] theorem issue_turns (u : MicroOp) (site : CallSite) (s : State) : (issue u site s).turns = s.turns := rfl
@[simp] theorem issue_reads (u : MicroOp) (site : CallSite) (s : State) : (issue u site s).reads = s.reads := rfl
@[simp] theorem issue_hostStuck (u : MicroOp) (site : CallSite) (s : State) : (issue u site s).hostStuck = s.hostStuck := rfl
@[simp] theorem issue_plat (u : MicroOp) (site : CallSite) (s : State) : (issue u site s).plat = s.plat := rfl

/-! ### `acceptCommand`: Acceptance (R252). -/

@[simp] theorem acceptCommand_cmd (w : Word) (s : State) : (acceptCommand w s).cmd = w := rfl
@[simp] theorem acceptCommand_busy (w : Word) (s : State) : (acceptCommand w s).busy = true := rfl
@[simp] theorem acceptCommand_ready (w : Word) (s : State) : (acceptCommand w s).ready = s.ready := rfl
@[simp] theorem acceptCommand_freq (w : Word) (s : State) : (acceptCommand w s).freq = s.freq := rfl
@[simp] theorem acceptCommand_tick (w : Word) (s : State) : (acceptCommand w s).tick = s.tick := rfl
@[simp] theorem acceptCommand_buf (w : Word) (s : State) : (acceptCommand w s).buf = s.buf := rfl
@[simp] theorem acceptCommand_count (w : Word) (s : State) : (acceptCommand w s).count = s.count := rfl
@[simp] theorem acceptCommand_result (w : Word) (s : State) : (acceptCommand w s).result = s.result := rfl
@[simp] theorem acceptCommand_sclO (w : Word) (s : State) : (acceptCommand w s).sclO = s.sclO := rfl
@[simp] theorem acceptCommand_sdaO (w : Word) (s : State) : (acceptCommand w s).sdaO = s.sdaO := rfl
@[simp] theorem acceptCommand_latch (w : Word) (s : State) : (acceptCommand w s).latch = latchOf w s.freq s.buf s.count := rfl
@[simp] theorem acceptCommand_pos (w : Word) (s : State) : (acceptCommand w s).pos = .dispatch := rfl
@[simp] theorem acceptCommand_k (w : Word) (s : State) : (acceptCommand w s).k = s.k := rfl
@[simp] theorem acceptCommand_i (w : Word) (s : State) : (acceptCommand w s).i = s.i := rfl
@[simp] theorem acceptCommand_acc (w : Word) (s : State) : (acceptCommand w s).acc = s.acc := rfl
@[simp] theorem acceptCommand_ack (w : Word) (s : State) : (acceptCommand w s).ack = s.ack := rfl
@[simp] theorem acceptCommand_phase (w : Word) (s : State) : (acceptCommand w s).phase = s.phase := rfl
@[simp] theorem acceptCommand_r (w : Word) (s : State) : (acceptCommand w s).r = s.r := rfl
@[simp] theorem acceptCommand_mem (w : Word) (s : State) : (acceptCommand w s).mem = s.mem := rfl
@[simp] theorem acceptCommand_trace (w : Word) (s : State) : (acceptCommand w s).trace = s.trace := rfl
@[simp] theorem acceptCommand_sdaIn (w : Word) (s : State) : (acceptCommand w s).sdaIn = s.sdaIn := rfl
@[simp] theorem acceptCommand_drawn (w : Word) (s : State) : (acceptCommand w s).drawn = s.drawn := rfl
@[simp] theorem acceptCommand_raced (w : Word) (s : State) : (acceptCommand w s).raced = [] := rfl
@[simp] theorem acceptCommand_races (w : Word) (s : State) : (acceptCommand w s).races = s.races := rfl
@[simp] theorem acceptCommand_turns (w : Word) (s : State) : (acceptCommand w s).turns = s.turns := rfl
@[simp] theorem acceptCommand_reads (w : Word) (s : State) : (acceptCommand w s).reads = s.reads := rfl
@[simp] theorem acceptCommand_hostStuck (w : Word) (s : State) : (acceptCommand w s).hostStuck = s.hostStuck := rfl
@[simp] theorem acceptCommand_plat (w : Word) (s : State) : (acceptCommand w s).plat = s.plat := rfl

/-! ### `finishCommand`: `finish` (R14). -/

@[simp] theorem finishCommand_cmd (w : Word) (s : State) : (finishCommand w s).cmd = s.cmd := rfl
@[simp] theorem finishCommand_busy (w : Word) (s : State) : (finishCommand w s).busy = false := rfl
@[simp] theorem finishCommand_ready (w : Word) (s : State) : (finishCommand w s).ready = s.ready := rfl
@[simp] theorem finishCommand_freq (w : Word) (s : State) : (finishCommand w s).freq = s.freq := rfl
@[simp] theorem finishCommand_tick (w : Word) (s : State) : (finishCommand w s).tick = s.tick := rfl
@[simp] theorem finishCommand_buf (w : Word) (s : State) : (finishCommand w s).buf = s.buf := rfl
@[simp] theorem finishCommand_count (w : Word) (s : State) : (finishCommand w s).count = s.count := rfl
@[simp] theorem finishCommand_result (w : Word) (s : State) : (finishCommand w s).result = w := rfl
@[simp] theorem finishCommand_sclO (w : Word) (s : State) : (finishCommand w s).sclO = s.sclO := rfl
@[simp] theorem finishCommand_sdaO (w : Word) (s : State) : (finishCommand w s).sdaO = s.sdaO := rfl
@[simp] theorem finishCommand_latch (w : Word) (s : State) : (finishCommand w s).latch = s.latch := rfl
@[simp] theorem finishCommand_pos (w : Word) (s : State) : (finishCommand w s).pos = .idle := rfl
@[simp] theorem finishCommand_k (w : Word) (s : State) : (finishCommand w s).k = 0 := rfl
@[simp] theorem finishCommand_i (w : Word) (s : State) : (finishCommand w s).i = 0 := rfl
@[simp] theorem finishCommand_acc (w : Word) (s : State) : (finishCommand w s).acc = s.acc := rfl
@[simp] theorem finishCommand_ack (w : Word) (s : State) : (finishCommand w s).ack = s.ack := rfl
@[simp] theorem finishCommand_phase (w : Word) (s : State) : (finishCommand w s).phase = .write := rfl
@[simp] theorem finishCommand_r (w : Word) (s : State) : (finishCommand w s).r = 0 := rfl
@[simp] theorem finishCommand_mem (w : Word) (s : State) : (finishCommand w s).mem = s.mem := rfl
@[simp] theorem finishCommand_trace (w : Word) (s : State) : (finishCommand w s).trace = s.trace := rfl
@[simp] theorem finishCommand_sdaIn (w : Word) (s : State) : (finishCommand w s).sdaIn = s.sdaIn := rfl
@[simp] theorem finishCommand_drawn (w : Word) (s : State) : (finishCommand w s).drawn = s.drawn := rfl
@[simp] theorem finishCommand_raced (w : Word) (s : State) : (finishCommand w s).raced = [] := rfl
@[simp] theorem finishCommand_races (w : Word) (s : State) : (finishCommand w s).races = s.races := rfl
@[simp] theorem finishCommand_turns (w : Word) (s : State) : (finishCommand w s).turns = s.turns := rfl
@[simp] theorem finishCommand_reads (w : Word) (s : State) : (finishCommand w s).reads = s.reads := rfl
@[simp] theorem finishCommand_hostStuck (w : Word) (s : State) : (finishCommand w s).hostStuck = s.hostStuck := rfl
@[simp] theorem finishCommand_plat (w : Word) (s : State) : (finishCommand w s).plat = s.plat := rfl

/-! ### `hostSees`: A host load's value. -/

@[simp] theorem hostSees_cmd (v : Word) (s : State) : (hostSees v s).cmd = s.cmd := rfl
@[simp] theorem hostSees_busy (v : Word) (s : State) : (hostSees v s).busy = s.busy := rfl
@[simp] theorem hostSees_ready (v : Word) (s : State) : (hostSees v s).ready = s.ready := rfl
@[simp] theorem hostSees_freq (v : Word) (s : State) : (hostSees v s).freq = s.freq := rfl
@[simp] theorem hostSees_tick (v : Word) (s : State) : (hostSees v s).tick = s.tick := rfl
@[simp] theorem hostSees_buf (v : Word) (s : State) : (hostSees v s).buf = s.buf := rfl
@[simp] theorem hostSees_count (v : Word) (s : State) : (hostSees v s).count = s.count := rfl
@[simp] theorem hostSees_result (v : Word) (s : State) : (hostSees v s).result = s.result := rfl
@[simp] theorem hostSees_sclO (v : Word) (s : State) : (hostSees v s).sclO = s.sclO := rfl
@[simp] theorem hostSees_sdaO (v : Word) (s : State) : (hostSees v s).sdaO = s.sdaO := rfl
@[simp] theorem hostSees_latch (v : Word) (s : State) : (hostSees v s).latch = s.latch := rfl
@[simp] theorem hostSees_pos (v : Word) (s : State) : (hostSees v s).pos = s.pos := rfl
@[simp] theorem hostSees_k (v : Word) (s : State) : (hostSees v s).k = s.k := rfl
@[simp] theorem hostSees_i (v : Word) (s : State) : (hostSees v s).i = s.i := rfl
@[simp] theorem hostSees_acc (v : Word) (s : State) : (hostSees v s).acc = s.acc := rfl
@[simp] theorem hostSees_ack (v : Word) (s : State) : (hostSees v s).ack = s.ack := rfl
@[simp] theorem hostSees_phase (v : Word) (s : State) : (hostSees v s).phase = s.phase := rfl
@[simp] theorem hostSees_r (v : Word) (s : State) : (hostSees v s).r = s.r := rfl
@[simp] theorem hostSees_mem (v : Word) (s : State) : (hostSees v s).mem = s.mem := rfl
@[simp] theorem hostSees_trace (v : Word) (s : State) : (hostSees v s).trace = s.trace := rfl
@[simp] theorem hostSees_sdaIn (v : Word) (s : State) : (hostSees v s).sdaIn = s.sdaIn := rfl
@[simp] theorem hostSees_drawn (v : Word) (s : State) : (hostSees v s).drawn = s.drawn := rfl
@[simp] theorem hostSees_raced (v : Word) (s : State) : (hostSees v s).raced = s.raced := rfl
@[simp] theorem hostSees_races (v : Word) (s : State) : (hostSees v s).races = s.races := rfl
@[simp] theorem hostSees_turns (v : Word) (s : State) : (hostSees v s).turns = s.turns := rfl
@[simp] theorem hostSees_reads (v : Word) (s : State) : (hostSees v s).reads = s.reads ++ [v] := rfl
@[simp] theorem hostSees_hostStuck (v : Word) (s : State) : (hostSees v s).hostStuck = s.hostStuck := rfl
@[simp] theorem hostSees_plat (v : Word) (s : State) : (hostSees v s).plat = s.plat := rfl

/-! ### `hostStops`: The host agent is stuck (R72). -/

@[simp] theorem hostStops_cmd (s : State) : (hostStops s).cmd = s.cmd := rfl
@[simp] theorem hostStops_busy (s : State) : (hostStops s).busy = s.busy := rfl
@[simp] theorem hostStops_ready (s : State) : (hostStops s).ready = s.ready := rfl
@[simp] theorem hostStops_freq (s : State) : (hostStops s).freq = s.freq := rfl
@[simp] theorem hostStops_tick (s : State) : (hostStops s).tick = s.tick := rfl
@[simp] theorem hostStops_buf (s : State) : (hostStops s).buf = s.buf := rfl
@[simp] theorem hostStops_count (s : State) : (hostStops s).count = s.count := rfl
@[simp] theorem hostStops_result (s : State) : (hostStops s).result = s.result := rfl
@[simp] theorem hostStops_sclO (s : State) : (hostStops s).sclO = s.sclO := rfl
@[simp] theorem hostStops_sdaO (s : State) : (hostStops s).sdaO = s.sdaO := rfl
@[simp] theorem hostStops_latch (s : State) : (hostStops s).latch = s.latch := rfl
@[simp] theorem hostStops_pos (s : State) : (hostStops s).pos = s.pos := rfl
@[simp] theorem hostStops_k (s : State) : (hostStops s).k = s.k := rfl
@[simp] theorem hostStops_i (s : State) : (hostStops s).i = s.i := rfl
@[simp] theorem hostStops_acc (s : State) : (hostStops s).acc = s.acc := rfl
@[simp] theorem hostStops_ack (s : State) : (hostStops s).ack = s.ack := rfl
@[simp] theorem hostStops_phase (s : State) : (hostStops s).phase = s.phase := rfl
@[simp] theorem hostStops_r (s : State) : (hostStops s).r = s.r := rfl
@[simp] theorem hostStops_mem (s : State) : (hostStops s).mem = s.mem := rfl
@[simp] theorem hostStops_trace (s : State) : (hostStops s).trace = s.trace := rfl
@[simp] theorem hostStops_sdaIn (s : State) : (hostStops s).sdaIn = s.sdaIn := rfl
@[simp] theorem hostStops_drawn (s : State) : (hostStops s).drawn = s.drawn := rfl
@[simp] theorem hostStops_raced (s : State) : (hostStops s).raced = s.raced := rfl
@[simp] theorem hostStops_races (s : State) : (hostStops s).races = s.races := rfl
@[simp] theorem hostStops_turns (s : State) : (hostStops s).turns = s.turns := rfl
@[simp] theorem hostStops_reads (s : State) : (hostStops s).reads = s.reads := rfl
@[simp] theorem hostStops_hostStuck (s : State) : (hostStops s).hostStuck = true := rfl
@[simp] theorem hostStops_plat (s : State) : (hostStops s).plat = s.plat := rfl

/-! ### `skipDraws`: Draws taken. -/

@[simp] theorem skipDraws_cmd (n : Nat) (s : State) : (skipDraws n s).cmd = s.cmd := rfl
@[simp] theorem skipDraws_busy (n : Nat) (s : State) : (skipDraws n s).busy = s.busy := rfl
@[simp] theorem skipDraws_ready (n : Nat) (s : State) : (skipDraws n s).ready = s.ready := rfl
@[simp] theorem skipDraws_freq (n : Nat) (s : State) : (skipDraws n s).freq = s.freq := rfl
@[simp] theorem skipDraws_tick (n : Nat) (s : State) : (skipDraws n s).tick = s.tick := rfl
@[simp] theorem skipDraws_buf (n : Nat) (s : State) : (skipDraws n s).buf = s.buf := rfl
@[simp] theorem skipDraws_count (n : Nat) (s : State) : (skipDraws n s).count = s.count := rfl
@[simp] theorem skipDraws_result (n : Nat) (s : State) : (skipDraws n s).result = s.result := rfl
@[simp] theorem skipDraws_sclO (n : Nat) (s : State) : (skipDraws n s).sclO = s.sclO := rfl
@[simp] theorem skipDraws_sdaO (n : Nat) (s : State) : (skipDraws n s).sdaO = s.sdaO := rfl
@[simp] theorem skipDraws_latch (n : Nat) (s : State) : (skipDraws n s).latch = s.latch := rfl
@[simp] theorem skipDraws_pos (n : Nat) (s : State) : (skipDraws n s).pos = s.pos := rfl
@[simp] theorem skipDraws_k (n : Nat) (s : State) : (skipDraws n s).k = s.k := rfl
@[simp] theorem skipDraws_i (n : Nat) (s : State) : (skipDraws n s).i = s.i := rfl
@[simp] theorem skipDraws_acc (n : Nat) (s : State) : (skipDraws n s).acc = s.acc := rfl
@[simp] theorem skipDraws_ack (n : Nat) (s : State) : (skipDraws n s).ack = s.ack := rfl
@[simp] theorem skipDraws_phase (n : Nat) (s : State) : (skipDraws n s).phase = s.phase := rfl
@[simp] theorem skipDraws_r (n : Nat) (s : State) : (skipDraws n s).r = s.r := rfl
@[simp] theorem skipDraws_mem (n : Nat) (s : State) : (skipDraws n s).mem = s.mem := rfl
@[simp] theorem skipDraws_trace (n : Nat) (s : State) : (skipDraws n s).trace = s.trace := rfl
@[simp] theorem skipDraws_sdaIn (n : Nat) (s : State) : (skipDraws n s).sdaIn = s.sdaIn.drop n := rfl
@[simp] theorem skipDraws_drawn (n : Nat) (s : State) : (skipDraws n s).drawn = s.drawn + n := rfl
@[simp] theorem skipDraws_raced (n : Nat) (s : State) : (skipDraws n s).raced = s.raced := rfl
@[simp] theorem skipDraws_races (n : Nat) (s : State) : (skipDraws n s).races = s.races := rfl
@[simp] theorem skipDraws_turns (n : Nat) (s : State) : (skipDraws n s).turns = s.turns := rfl
@[simp] theorem skipDraws_reads (n : Nat) (s : State) : (skipDraws n s).reads = s.reads := rfl
@[simp] theorem skipDraws_hostStuck (n : Nat) (s : State) : (skipDraws n s).hostStuck = s.hostStuck := rfl
@[simp] theorem skipDraws_plat (n : Nat) (s : State) : (skipDraws n s).plat = s.plat := rfl

end Sys2Proof.Machine
end

