-- ==== Sys2Proof/Laws/Micro.lean ====
section
/-! SUPPORT. What each micro-operation does, said once: its events, the lines it leaves, the draws it takes
(spec/41_primitives.md, spec/42_byte_shift.md). Later proofs cite these and do not unfold the step lists. -/

namespace Sys2Proof.Machine

/-! ### Draws -/

@[simp] theorem drawAt_takeDraw (s : State) (j : Nat) : drawAt (takeDraw s) j = drawAt s (j + 1) := by
  simp [drawAt, Nat.add_assoc, Nat.add_comm 1 j]

@[simp] theorem drawAt_skipDraws (n : Nat) (s : State) (j : Nat) : drawAt (skipDraws n s) j = drawAt s (n + j) := by
  simp [drawAt, Nat.add_assoc]

/-- A draw depends on the environment's fields only. -/
theorem drawAt_congr {s t : State} (h1 : t.sdaIn = s.sdaIn) (h2 : t.drawn = s.drawn) (j : Nat) :
    drawAt t j = drawAt s j := by simp [drawAt, h1, h2]

theorem takeDraw_eq_skipDraws (s : State) : takeDraw s = skipDraws 1 s := by
  simp [takeDraw, skipDraws]

/-- `START()` (R151). -/
theorem busStart_eq (s : State) :
    busStart s = { s with sclO := LOW, sdaO := LOW, trace := s.trace ++ Trace.start } := by
  simp [busStart, startSteps, runPrims, Prim.run, setSCL, setSDA, delay, emit, Trace.start]

/-- `STOP()` (R153). -/
theorem busStop_eq (s : State) :
    busStop s = { s with sclO := HIGH, sdaO := HIGH, trace := s.trace ++ Trace.stop } := by
  simp [busStop, stopSteps, runPrims, Prim.run, setSCL, setSDA, delay, emit, Trace.stop]

/-- `ACK()` (R155). -/
theorem busAck_eq (s : State) :
    busAck s = { s with sclO := LOW, sdaO := LOW, trace := s.trace ++ Trace.ack } := by
  simp [busAck, ackSteps, runPrims, Prim.run, setSCL, setSDA, delay, emit, Trace.ack]

/-- `NAK()` (R157). -/
theorem busNak_eq (s : State) :
    busNak s = { s with sclO := LOW, sdaO := HIGH, trace := s.trace ++ Trace.nak } := by
  simp [busNak, nakSteps, runPrims, Prim.run, setSCL, setSDA, delay, emit, Trace.nak]

/-- `WAIT_ACK()` (R160). -/
theorem busWaitAck_eq (s : State) :
    busWaitAck s = { skipDraws 1 s with
      ack := ackOf (drawAt s 0), sclO := LOW, sdaO := HIGH, trace := s.trace ++ Trace.wa (drawAt s 0) } := by
  simp [busWaitAck, waitAckSteps, runPrims, Prim.run, sample, setSCL, setSDA, delay, emit, Trace.wa, takeDraw,
    skipDraws, drawAt]

theorem runPrims_sendBitSteps (v : Byte) (k : Nat) (s : State) :
    runPrims (sendBitSteps v k) s = { s with
      sclO := LOW, sdaO := v.getLsbD k
      trace := s.trace ++
        [.setSDA (v.getLsbD k), .delay, .setSCL true, .delay, .setSCL false, .delay] } := by
  simp [sendBitSteps, runPrims, Prim.run, setSCL, setSDA, delay, emit]

/-- `SEND_BYTE(v)` (R180). -/
theorem busSendByte_eq (v : Byte) (s : State) :
    busSendByte v s = { s with
      sclO := LOW, sdaO := v.getLsbD 0, trace := s.trace ++ Trace.sb v } := by
  simp only [busSendByte, sendBits, runPrims_sendBitSteps, Trace.sb, List.flatMap_cons, List.flatMap_nil,
    List.append_assoc, List.append_nil]

theorem runPrims_recvBitSteps (s : State) :
    runPrims recvBitSteps s = { skipDraws 1 s with
      acc := shiftIn s.acc (drawAt s 0), sclO := HIGH
      trace := s.trace ++ [.setSCL false, .delay, .setSCL true, .sample (drawAt s 0), .delay] } := by
  simp [recvBitSteps, runPrims, Prim.run, sample, setSCL, delay, emit, takeDraw, skipDraws, drawAt]

theorem byteOfBits_getLsbD (b0 b1 b2 b3 b4 b5 b6 b7 : Bool) :
    let v : Byte := BitVec.ofNat 8 (b0.toNat <<< 7 + (b1.toNat <<< 6 + (b2.toNat <<< 5 + (b3.toNat <<< 4 +
        (b4.toNat <<< 3 + (b5.toNat <<< 2 + (b6.toNat <<< 1 + b7.toNat <<< 0)))))))
    v.getLsbD 7 = b0 ∧ v.getLsbD 6 = b1 ∧ v.getLsbD 5 = b2 ∧ v.getLsbD 4 = b3 ∧ v.getLsbD 3 = b4 ∧
      v.getLsbD 2 = b5 ∧ v.getLsbD 1 = b6 ∧ v.getLsbD 0 = b7 := by
  revert b0 b1 b2 b3 b4 b5 b6 b7
  decide

theorem shiftIn_getLsbD_zero (a : Byte) (b : Bool) : (shiftIn a b).getLsbD 0 = b := by
  cases b <;> simp [shiftIn]

theorem shiftIn_getLsbD_succ (a : Byte) (b : Bool) {k : Nat} (hk : k < 7) :
    (shiftIn a b).getLsbD (k + 1) = a.getLsbD k := by
  cases b <;> simp [shiftIn, BitVec.getLsbD_one] <;> omega

/-- Eight shifts push the first value of the accumulator out: the byte is the sum of R183. -/
theorem shiftIn_eight (a : Byte) (b0 b1 b2 b3 b4 b5 b6 b7 : Bool) :
    shiftIn (shiftIn (shiftIn (shiftIn (shiftIn (shiftIn (shiftIn (shiftIn a b0) b1) b2) b3) b4) b5) b6) b7 =
      BitVec.ofNat 8 (b0.toNat <<< 7 + (b1.toNat <<< 6 + (b2.toNat <<< 5 + (b3.toNat <<< 4 +
        (b4.toNat <<< 3 + (b5.toNat <<< 2 + (b6.toNat <<< 1 + b7.toNat <<< 0))))))) := by
  obtain ⟨h7, h6, h5, h4, h3, h2, h1, h0⟩ := byteOfBits_getLsbD b0 b1 b2 b3 b4 b5 b6 b7
  apply BitVec.eq_of_getLsbD_eq
  intro i hi
  interval_cases i
  · rw [h0, shiftIn_getLsbD_zero]
  · rw [h1, shiftIn_getLsbD_succ _ _ (by omega), shiftIn_getLsbD_zero]
  · rw [h2]; simp only [shiftIn_getLsbD_succ, shiftIn_getLsbD_zero, Nat.reduceLT]
  · rw [h3]; simp only [shiftIn_getLsbD_succ, shiftIn_getLsbD_zero, Nat.reduceLT]
  · rw [h4]; simp only [shiftIn_getLsbD_succ, shiftIn_getLsbD_zero, Nat.reduceLT]
  · rw [h5]; simp only [shiftIn_getLsbD_succ, shiftIn_getLsbD_zero, Nat.reduceLT]
  · rw [h6]; simp only [shiftIn_getLsbD_succ, shiftIn_getLsbD_zero, Nat.reduceLT]
  · rw [h7]; simp only [shiftIn_getLsbD_succ, shiftIn_getLsbD_zero, Nat.reduceLT]

theorem drawnByte_eq (s : State) (j : Nat) :
    drawnByte s j = BitVec.ofNat 8 ((drawAt s j).toNat <<< 7 + ((drawAt s (j + 1)).toNat <<< 6 +
      ((drawAt s (j + 2)).toNat <<< 5 + ((drawAt s (j + 3)).toNat <<< 4 + ((drawAt s (j + 4)).toNat <<< 3 +
        ((drawAt s (j + 5)).toNat <<< 2 + ((drawAt s (j + 6)).toNat <<< 1 + (drawAt s (j + 7)).toNat <<< 0))))))) := by
  simp [drawnByte, List.range, List.range.loop]

/-- `RECV_BYTE()` (R182, R183): the byte of eight draws, and `sda_o` untouched. -/
theorem busRecvByte_eq (s : State) :
    busRecvByte s = { skipDraws 8 s with
      acc := drawnByte s 0, sclO := HIGH, trace := s.trace ++ Trace.rb (drawnByte s 0) } := by
  have hb := byteOfBits_getLsbD (drawAt s 0) (drawAt s 1) (drawAt s 2) (drawAt s 3) (drawAt s 4) (drawAt s 5)
    (drawAt s 6) (drawAt s 7)
  rw [drawnByte_eq]
  simp only [Nat.zero_add]
  simp only at hb
  obtain ⟨h0, h1, h2, h3, h4, h5, h6, h7⟩ := hb
  simp only [busRecvByte, recvBits, runPrims_recvBitSteps, Trace.rb, List.flatMap_cons, List.flatMap_nil,
    List.append_assoc, List.append_nil, h0, h1, h2, h3, h4, h5, h6, h7]
  simp only [drawAt, skipDraws, ← shiftIn_eight (0 : Byte), List.getElem?_drop, List.drop_drop,
    Nat.reduceAdd, Nat.add_assoc, Nat.add_zero]

end Sys2Proof.Machine
end

