-- ==== Sys2Proof/Laws/Transactions.lean ====
section
/-! SUPPORT. What the pieces of a transaction do, said once: the handshake, the byte loops (spec/43_transactions.md).
Each lemma is an equation between whole states, so it says what changes and what does not. -/

namespace Sys2Proof.Machine

/-- The state after a byte, its WAIT_ACK with outcome `b`, and the events `e` they append. -/
theorem handshake_eq (v : Byte) (code : Word) (rest : State → Flow) (s : State) :
    handshake v code rest s =
      let t := { skipDraws 1 s with
        ack := ackOf (drawAt s 0), sclO := LOW, sdaO := HIGH, trace := s.trace ++ Trace.byte v (drawAt s 0) }
      match ackOf (drawAt s 0) with
      | .notAcknowledged => abortNoAck code t
      | .acknowledged => rest t := by
  simp only [handshake, busWaitAck_eq, busSendByte_eq, Trace.byte, List.append_assoc]
  rfl

/-- A handshake that is ACKNOWLEDGED goes on (R160). -/
theorem handshake_acknowledged (v : Byte) (code : Word) (rest : State → Flow) (s : State) (h : drawAt s 0 = LOW) :
    handshake v code rest s =
      rest { skipDraws 1 s with
        ack := .acknowledged, sclO := LOW, sdaO := HIGH, trace := s.trace ++ Trace.byte v LOW } := by
  rw [handshake_eq, h]
  rfl

/-- A handshake that is NOT-ACKNOWLEDGED issues one STOP and returns the code (R255). -/
theorem handshake_notAcknowledged (v : Byte) (code : Word) (rest : State → Flow) (s : State)
    (h : drawAt s 0 = HIGH) :
    handshake v code rest s =
      .ret code { skipDraws 1 s with
        ack := .notAcknowledged, sclO := HIGH, sdaO := HIGH
        trace := s.trace ++ (Trace.byte v HIGH ++ Trace.stop) } := by
  rw [handshake_eq, h]
  simp [abortNoAck, busStop_eq, ackOf]

/-- START and an address byte that is ACKNOWLEDGED: the address phase (R205, R210, R215, R220). -/
theorem addressPhase_acknowledged (v : Byte) (code : Word) (rest : State → Flow) (s : State)
    (h : drawAt s 0 = LOW) :
    handshake v code rest (busStart s) =
      rest { skipDraws 1 s with
        ack := .acknowledged, sclO := LOW, sdaO := HIGH, trace := s.trace ++ Trace.address v LOW } := by
  have hd : drawAt (busStart s) 0 = LOW := by rw [busStart_eq]; exact h
  rw [handshake_acknowledged v code rest _ hd, busStart_eq]
  simp only [skipDraws, List.append_assoc, Trace.address, Trace.byte]

/-- START and an address byte that is NOT-ACKNOWLEDGED: fail A (R206, R211). -/
theorem addressPhase_notAcknowledged (v : Byte) (code : Word) (rest : State → Flow) (s : State)
    (h : drawAt s 0 = HIGH) :
    handshake v code rest (busStart s) =
      .ret code { skipDraws 1 s with
        ack := .notAcknowledged, sclO := HIGH, sdaO := HIGH
        trace := s.trace ++ (Trace.address v HIGH ++ Trace.stop) } := by
  have hd : drawAt (busStart s) 0 = HIGH := by rw [busStart_eq]; exact h
  rw [handshake_notAcknowledged v code rest _ hd, busStart_eq]
  simp only [skipDraws, List.append_assoc, Trace.address, Trace.byte]

/-- A MemRead of a byte that no host access has raced (R84). -/
theorem memReadByte_eq (a : Nat) (s : State) (h : racedValues a s = []) :
    memReadByte a s = (Memory.read s.mem a, { s with trace := s.trace ++ [.memRead a (Memory.read s.mem a)] }) := by
  simp [memReadByte, h, resolveRace, emit]

theorem racedValues_of_none (a : Nat) {s : State} (h : s.raced = []) : racedValues a s = [] := by
  simp [racedValues, h]

/-- The next byte of SEND's loop, at an admitted address (R205). -/
theorem sendLoop_succ (n i : Nat) (s : State) (hr : s.raced = [])
    (hp : portAdmits s.plat (effAddr s.latch.buf i) = true) :
    sendLoop (n + 1) i s =
      handshake (Memory.read s.mem (effAddr s.latch.buf i)) eNoAckData (sendLoop n (i + 1))
        { s with trace := s.trace ++
            [.memRead (effAddr s.latch.buf i) (Memory.read s.mem (effAddr s.latch.buf i))] } := by
  rw [sendLoop, if_pos hp, memReadByte_eq _ _ (racedValues_of_none _ hr)]

theorem loadBytes_succ (m : List Host.Cell) (a n : Nat) :
    loadBytes m a (n + 1) = Memory.read m a :: loadBytes m (a + 1) n := by
  simp only [loadBytes, List.range_succ_eq_map, List.map_cons, List.map_map, Nat.add_zero]
  congr 1
  apply List.map_congr_left
  intro t _
  simp only [Function.comp_apply, Nat.succ_eq_add_one]
  congr 1
  omega

theorem effAddr_succ (buf : Word) (i : Nat) : effAddr buf i + 1 = effAddr buf (i + 1) := by
  simp only [effAddr]
  omega

/-- SEND's loop with every handshake ACKNOWLEDGED: every byte sent, then STOP (R205, R208). -/
theorem sendLoop_acknowledged (n i : Nat) (s : State) (hr : s.raced = [])
    (hp : ∀ j, j < n → portAdmits s.plat (effAddr s.latch.buf (i + j)) = true)
    (hd : ∀ j, j < n → drawAt s j = LOW) (ha : s.ack = .acknowledged) :
    sendLoop n i s =
      .ret s.latch.count { skipDraws n s with
        ack := .acknowledged, sclO := HIGH, sdaO := HIGH
        trace := s.trace ++
          (Trace.sentAll (effAddr s.latch.buf i) (loadBytes s.mem (effAddr s.latch.buf i) n) ++ Trace.stop) } := by
  induction n generalizing i s with
  | zero =>
    obtain ⟨⟩ := s
    simp_all [sendLoop, busStop_eq, skipDraws, Trace.sentAll, loadBytes]
  | succ n ih =>
    rw [sendLoop_succ n i s hr (hp 0 (by omega)), handshake_acknowledged]
    · rw [ih]
      · simp only [loadBytes_succ, Trace.sentAll, Trace.sent, effAddr_succ, skipDraws, List.append_assoc,
          Trace.byte, List.drop_drop, Nat.add_assoc, Nat.add_comm 1 n, List.cons_append, List.nil_append]
      · exact hr
      · intro j hj
        have := hp (j + 1) (by omega)
        rw [show i + (j + 1) = i + 1 + j from by omega] at this
        exact this
      · intro j hj
        have := hd (j + 1) (by omega)
        rw [← this]
        simp [drawAt, skipDraws, Nat.add_comm 1 j, Nat.add_assoc]
      · rfl
    · exact hd 0 (by omega)

/-- SEND's loop with the handshake of the byte `j` places on NOT-ACKNOWLEDGED (R207). -/
theorem sendLoop_notAcknowledged (n i j : Nat) (s : State) (hj : j < n) (hr : s.raced = [])
    (hp : ∀ t, t ≤ j → portAdmits s.plat (effAddr s.latch.buf (i + t)) = true)
    (hd : ∀ t, t < j → drawAt s t = LOW) (hn : drawAt s j = HIGH) :
    sendLoop n i s =
      .ret eNoAckData { skipDraws (j + 1) s with
        ack := .notAcknowledged, sclO := HIGH, sdaO := HIGH
        trace := s.trace ++
          (Trace.sentAll (effAddr s.latch.buf i) (loadBytes s.mem (effAddr s.latch.buf i) j) ++
            (Trace.sent (effAddr s.latch.buf (i + j)) (Memory.read s.mem (effAddr s.latch.buf (i + j))) HIGH ++
              Trace.stop)) } := by
  induction j generalizing n i s with
  | zero =>
    obtain ⟨n, rfl⟩ : ∃ m, n = m + 1 := ⟨n - 1, by omega⟩
    rw [sendLoop_succ n i s hr (hp 0 (by omega)), handshake_notAcknowledged]
    · simp [Trace.sentAll, loadBytes, Trace.sent, Trace.byte, skipDraws]
    · exact hn
  | succ j ih =>
    obtain ⟨n, rfl⟩ : ∃ m, n = m + 1 := ⟨n - 1, by omega⟩
    rw [sendLoop_succ n i s hr (hp 0 (by omega)), handshake_acknowledged]
    · rw [ih]
      · have hk : i + 1 + j = i + (j + 1) := by omega
        simp only [loadBytes_succ, Trace.sentAll, Trace.sent, effAddr_succ, skipDraws, List.append_assoc,
          Trace.byte, List.drop_drop, Nat.add_assoc, Nat.add_comm 1 j, List.cons_append, List.nil_append]
        rw [show 1 + (j + 1) = j + (1 + 1) from by omega]
      · omega
      · exact hr
      · intro t ht
        have := hp (t + 1) (by omega)
        rw [show i + (t + 1) = i + 1 + t from by omega] at this
        exact this
      · intro t ht
        have := hd (t + 1) (by omega)
        rw [← this]
        simp [drawAt, skipDraws, Nat.add_comm 1 t, Nat.add_assoc]
      · rw [← hn]
        simp [drawAt, skipDraws, Nat.add_comm 1 j, Nat.add_assoc]
    · exact hd 0 (by omega)

theorem drawnByte_skipDraws (k : Nat) (s : State) (j : Nat) : drawnByte (skipDraws k s) j = drawnByte s (k + j) := by
  simp [drawnByte, Nat.add_assoc]

/-- The byte of eight draws depends on the environment's fields only. -/
theorem drawnByte_congr {s t : State} (h1 : t.sdaIn = s.sdaIn) (h2 : t.drawn = s.drawn) (j : Nat) :
    drawnByte t j = drawnByte s j := by
  simp only [drawnByte, drawAt_congr h1 h2]

theorem drawnBytes_succ (s : State) (j n : Nat) :
    drawnBytes s j (n + 1) = drawnByte s j :: drawnBytes s (j + 8) n := by
  simp only [drawnBytes, List.range_succ_eq_map, List.map_cons, List.map_map, Nat.mul_zero, Nat.add_zero]
  congr 1
  apply List.map_congr_left
  intro t _
  simp only [Function.comp_apply, Nat.succ_eq_add_one]
  congr 1
  omega

theorem drawnBytes_skipDraws (k : Nat) (s : State) (j n : Nat) :
    drawnBytes (skipDraws k s) j n = drawnBytes s (k + j) n := by
  simp only [drawnBytes, drawnByte_skipDraws, Nat.add_assoc]

theorem drawnBytes_congr {s t : State} (h1 : t.sdaIn = s.sdaIn) (h2 : t.drawn = s.drawn) (j n : Nat) :
    drawnBytes t j n = drawnBytes s j n := by
  simp only [drawnBytes, drawnByte_congr h1 h2]

/-- RECV's loop: `n` bytes left of `L.count`, at least one (R210). The bytes are stored in ascending order, with ACK
after each but the last and NAK after the last; then STOP. -/
theorem recvLoop_eq (n i : Nat) (s : State) (hn : i + (n + 1) = s.latch.count.toNat)
    (hp : ∀ j, j < n + 1 → portAdmits s.plat (effAddr s.latch.buf (i + j)) = true) :
    ∃ rc, recvLoop (n + 1) i s =
      .ret s.latch.count { skipDraws (8 * (n + 1)) s with
        acc := drawnByte s (8 * n), sclO := HIGH, sdaO := HIGH, raced := rc
        mem := storeBytes s.mem (effAddr s.latch.buf i) (drawnBytes s 0 (n + 1))
        trace := s.trace ++
          (Trace.receivedAll (effAddr s.latch.buf i) (drawnBytes s 0 (n + 1)) ++ Trace.stop) } := by
  induction n generalizing i s with
  | zero =>
    refine ⟨(effAddr s.latch.buf i, Memory.read s.mem (effAddr s.latch.buf i)) :: s.raced, ?_⟩
    have hlt : ¬ i + 1 < s.latch.count.toNat := by omega
    have hp0 : portAdmits s.plat (effAddr s.latch.buf i) = true := hp 0 (by omega)
    simp only [recvLoop, busRecvByte_eq, skipDraws_plat, skipDraws_latch]
    rw [if_pos hp0]
    simp only [memWriteByte, emit, busNak_eq, busStop_eq, skipDraws, hlt, if_false, drawnBytes_succ,
      storeBytes]
    simp [drawnBytes, Trace.receivedAll, storeBytes]
  | succ n ih =>
    have hlt : i + 1 < s.latch.count.toNat := by omega
    have hp0 : portAdmits s.plat (effAddr s.latch.buf i) = true := hp 0 (by omega)
    let t : State := { skipDraws 8 s with
      acc := drawnByte s 0, sclO := LOW, sdaO := LOW
      mem := Memory.write s.mem (effAddr s.latch.buf i) (drawnByte s 0)
      raced := (effAddr s.latch.buf i, Memory.read s.mem (effAddr s.latch.buf i)) :: s.raced
      trace := s.trace ++ Trace.rb (drawnByte s 0) ++ [.memWrite (effAddr s.latch.buf i) (drawnByte s 0)] ++
        Trace.ack }
    have hstep : recvLoop (n + 1 + 1) i s = recvLoop (n + 1) (i + 1) t := by
      rw [recvLoop]
      simp only [busRecvByte_eq, skipDraws_plat, skipDraws_latch]
      rw [if_pos hp0]
      simp only [memWriteByte, emit, busAck_eq, skipDraws, hlt, if_true]
      rfl
    obtain ⟨rc, hrc⟩ := ih (i + 1) t (by simp only [t, skipDraws_latch]; omega) (by
      intro j hj
      have := hp (j + 1) (by omega)
      rw [show i + (j + 1) = i + 1 + j from by omega] at this
      exact this)
    refine ⟨rc, ?_⟩
    have hb : ∀ j, drawnByte t j = drawnByte s (8 + j) := by
      intro j
      rw [← drawnByte_skipDraws]
      exact drawnByte_congr rfl rfl j
    have hbs : ∀ j m, drawnBytes t j m = drawnBytes s (8 + j) m := by
      intro j m
      rw [← drawnBytes_skipDraws]
      exact drawnBytes_congr rfl rfl j m
    rw [hstep, hrc, hb, hbs, drawnBytes_succ s 0 (n + 1), drawnBytes_succ s (0 + 8) n]
    simp only [Trace.receivedAll, storeBytes, effAddr_succ, t, skipDraws, List.drop_drop, List.append_assoc,
      Nat.zero_add, List.cons_append, List.nil_append]
    rw [show 8 + 8 * (n + 1) = 8 * (n + 1 + 1) from by omega, show 8 + 8 * n = 8 * (n + 1) from by omega,
      Nat.add_assoc s.drawn, show 8 + 8 * (n + 1) = 8 * (n + 1 + 1) from by omega]

/-! ### The argument check (R200) -/

/-- What a passing check gives. -/
theorem argsOk_bounds {ready : Bool} {buf count : Word} (h : argsOk ready buf count = true) :
    0 < count.toNat ∧ count.toNat ≤ 0x7FFFFFFF ∧ buf ≠ 0 ∧ buf.toNat + count.toNat ≤ 2 ^ 32 ∧ ready = true := by
  unfold argsOk at h
  split_ifs at h with h1 h2 h3 h4 h5
  refine ⟨?_, by omega, h2, by omega, by simpa using h1⟩
  by_contra hc
  exact h3 (BitVec.eq_of_toNat_eq (by simpa using hc))

/-- The check fails exactly when one of its five conditions holds. -/
theorem argsOk_eq_false {ready : Bool} {buf count : Word} :
    argsOk ready buf count = false ↔
      ready = false ∨ buf = 0 ∨ count = 0 ∨ count.toNat > 0x7FFFFFFF ∨ buf.toNat + count.toNat > 2 ^ 32 := by
  unfold argsOk
  split_ifs with h1 h2 h3 h4 h5 <;> simp_all

/-- RECV's procedure with its address acknowledged (R210). -/
theorem recvProc_acknowledged (f : CmdFields) (s : State) (ha : argsOk s.ready s.latch.buf s.latch.count = true)
    (hp : bufferAdmitted s) (hd : drawAt s 0 = LOW) :
    ∃ rc, recvProc f s = .ret s.latch.count { skipDraws (1 + 8 * bytesWanted s) s with
      ack := .acknowledged, acc := drawnByte s (1 + 8 * (bytesWanted s - 1)), sclO := HIGH, sdaO := HIGH
      raced := rc, mem := storeBytes s.mem s.latch.buf.toNat (drawnBytes s 1 (bytesWanted s))
      trace := s.trace ++ (Trace.address (addrR f.dev) LOW ++
        Trace.receivedAll s.latch.buf.toNat (drawnBytes s 1 (bytesWanted s)) ++ Trace.stop) } := by
  obtain ⟨hpos, -⟩ := argsOk_bounds ha
  obtain ⟨n, hn⟩ : ∃ n, bytesWanted s = n + 1 := ⟨s.latch.count.toNat - 1, by simp only [bytesWanted]; omega⟩
  simp only [recvProc, recvBody, checked, ha, if_true]
  rw [addressPhase_acknowledged _ _ _ _ hd]
  have hn' : s.latch.count.toNat = n + 1 := hn
  let t : State := { skipDraws 1 s with
    ack := .acknowledged, sclO := LOW, sdaO := HIGH, trace := s.trace ++ Trace.address (addrR f.dev) LOW }
  obtain ⟨rc, h⟩ := recvLoop_eq n 0 t (by simp [t, hn']) (by intro j hj; simpa [t] using hp j (by omega))
  refine ⟨rc, ?_⟩
  have ht : ∀ x, x = t → recvLoop s.latch.count.toNat 0 x = recvLoop (n + 1) 0 t := by
    rintro _ rfl
    rw [hn']
  rw [ht _ (by rfl), h]
  have hb : ∀ j, drawnByte t j = drawnByte s (1 + j) := by
    intro j
    rw [← drawnByte_skipDraws]
    exact drawnByte_congr rfl rfl j
  have hbs : ∀ j m, drawnBytes t j m = drawnBytes s (1 + j) m := by
    intro j m
    rw [← drawnBytes_skipDraws]
    exact drawnBytes_congr rfl rfl j m
  rw [hb, hbs, hn]
  simp [t, skipDraws, effAddr, Nat.add_assoc]
  rw [Nat.add_comm]

end Sys2Proof.Machine
end

