-- ==== Sys2Proof/Laws/Closure.lean ====
section
/-! SUPPORT. One induction over the transaction procedures, packaged: a property that every bus sequence keeps holds
of the state a procedure ends in (spec/43_transactions.md). -/

namespace Sys2Proof.Machine

/-- The state a procedure ends in. -/
def Flow.state : Flow → State
  | .ret _ s => s
  | .stuck s => s

@[simp] theorem afterDelegated_state (x : Flow) : (afterDelegated x).state = x.state := by
  cases x <;> rfl

/-- A property that everything SEND and MEM_WRITE do keeps. -/
structure BusClosed (P : State → Prop) : Prop where
  start : ∀ s, P s → P (busStart s)
  stop : ∀ s, P s → P (busStop s)
  byte : ∀ v s, P s → P (busWaitAck (busSendByte v s))
  read : ∀ a s, P s → P (memReadByte a s).2
  stuck : ∀ p ph i s, P s → P { s with pos := p, k := 0, i := i, phase := ph }

theorem handshake_latch (v : Byte) (s : State) : (busWaitAck (busSendByte v s)).latch = s.latch := by
  rw [busWaitAck_eq, busSendByte_eq]
  rfl

/-- A handshake's rest starts with the latched command as it was. -/
theorem BusClosed.handshake {P : State → Prop} (h : BusClosed P) {v : Byte} {code : Word} {rest : State → Flow}
    {s : State} (hs : P s) (hr : ∀ t, P t → t.latch = s.latch → P (rest t).state) :
    P (handshake v code rest s).state := by
  unfold Machine.handshake
  simp only
  split
  · exact h.stop _ (h.byte v s hs)
  · exact hr _ (h.byte v s hs) (handshake_latch v s)

theorem BusClosed.sendLoop {P : State → Prop} (h : BusClosed P) (n i : Nat) (s : State) (hs : P s) :
    P (sendLoop n i s).state := by
  induction n generalizing i s with
  | zero => exact h.stop _ hs
  | succ n ih =>
    rw [Machine.sendLoop]
    split
    · exact h.handshake (h.read _ _ hs) (fun t ht _ => ih (i + 1) t ht)
    · exact h.stuck _ _ _ _ hs

theorem BusClosed.sendProc {P : State → Prop} (h : BusClosed P) (f : CmdFields) (s : State) (hs : P s) :
    P (sendProc f s).state := by
  unfold Machine.sendProc checked
  split
  · exact h.handshake (h.start _ hs) (fun t ht _ => h.sendLoop _ _ t ht)
  · exact hs

theorem BusClosed.memWriteProc {P : State → Prop} (h : BusClosed P) (f : CmdFields) (s : State) (hs : P s) :
    P (memWriteProc f s).state := by
  unfold Machine.memWriteProc checked
  split
  · exact h.handshake (h.start _ hs) (fun t ht _ => h.handshake ht (fun u hu _ => h.sendLoop _ _ u hu))
  · exact hs

/-- A property that everything RECV and MEM_READ do keeps: a byte is written only inside the buffer, at an admitted
address (R81, R210). -/
structure RecvClosed (P : State → Prop) : Prop extends BusClosed P where
  recv : ∀ s, P s → P (busRecvByte s)
  write : ∀ i s, P s → i < s.latch.count.toNat → portAdmits s.plat (effAddr s.latch.buf i) = true →
    P (memWriteByte (effAddr s.latch.buf i) s.acc s)
  ack : ∀ s, P s → P (busAck s)
  nak : ∀ s, P s → P (busNak s)

theorem RecvClosed.recvLoop {P : State → Prop} (h : RecvClosed P) (n i : Nat) (s : State) (hs : P s)
    (hn : i + n ≤ s.latch.count.toNat) : P (recvLoop n i s).state := by
  induction n generalizing i s with
  | zero => exact h.stop _ hs
  | succ n ih =>
    rw [Machine.recvLoop]
    have h1 := h.recv s hs
    have hl : (busRecvByte s).latch = s.latch := by
      rw [busRecvByte_eq]
      rfl
    simp only
    split
    · apply ih
      · have := h.write i _ h1 (by rw [hl]; omega) (by assumption)
        split
        · exact h.ack _ this
        · exact h.nak _ this
      · rw [apply_ite State.latch]
        simp only [busAck_eq, busNak_eq, ite_self]
        simp only [memWriteByte, emit, hl]
        omega
    · exact h.stuck _ _ _ _ h1

theorem RecvClosed.recvProc {P : State → Prop} (h : RecvClosed P) (f : CmdFields) (s : State) (hs : P s) :
    P (recvProc f s).state := by
  unfold Machine.recvProc checked recvBody
  split
  · refine h.handshake (h.start _ hs) (fun t ht hl => h.recvLoop _ _ t ht ?_)
    rw [hl, busStart_eq]
    simp
  · exact hs

theorem RecvClosed.memReadProc {P : State → Prop} (h : RecvClosed P) (f : CmdFields) (s : State) (hs : P s) :
    P (memReadProc f s).state := by
  unfold Machine.memReadProc checked
  split
  · refine h.handshake (h.start _ hs) (fun t ht _ => h.handshake ht (fun u hu _ => ?_))
    rw [afterDelegated_state]
    exact h.recvProc _ _ (h.stop _ hu)
  · exact hs

end Sys2Proof.Machine
end

