-- ==== Sys2Proof/Laws/Decode.lean ====
section
/-! SUPPORT. The words of the encoding as numbers, and that the decoder undoes the field layout of R100 and R108
(spec/30_encoding.md). -/

namespace Sys2Proof

/-- Fields laid side by side, as a number. -/
theorem append_toNat {m n : Nat} (x : BitVec m) (y : BitVec n) : (x ++ y).toNat = x.toNat * 2 ^ n + y.toNat := by
  rw [BitVec.toNat_append, ← Nat.shiftLeft_add_eq_or_of_lt y.isLt, Nat.shiftLeft_eq]

theorem wordOfBytes_toNat (a b c d : Byte) :
    (wordOfBytes a b c d).toNat = a.toNat + 256 * b.toNat + 65536 * c.toNat + 16777216 * d.toNat := by
  have : (wordOfBytes a b c d).toNat = ((d.toNat * 2 ^ 8 + c.toNat) * 2 ^ 8 + b.toNat) * 2 ^ 8 + a.toNat := by
    rw [← append_toNat, ← append_toNat, ← append_toNat]
    rfl
  omega

theorem halfOfBytes_toNat (a b : Byte) : (halfOfBytes a b).toNat = a.toNat + 256 * b.toNat := by
  have : (halfOfBytes a b).toNat = b.toNat * 2 ^ 8 + a.toNat := by
    rw [← append_toNat]
    rfl
  omega

/-- The command word as a number: R100's field places. -/
theorem cmdWord_toNat (op : BitVec 4) (f : CmdFields) :
    (cmdWord op f).toNat =
      op.toNat + 16 * f.res0.toNat + 256 * f.dev.toNat + 65536 * f.reg.toNat + 16777216 * f.res1.toNat := by
  have : (cmdWord op f).toNat =
      (((f.res1.toNat * 2 ^ 8 + f.reg.toNat) * 2 ^ 8 + f.dev.toNat) * 2 ^ 4 + f.res0.toNat) * 2 ^ 4 + op.toNat := by
    rw [← append_toNat, ← append_toNat, ← append_toNat, ← append_toNat]
    rfl
  omega

/-- Four bytes of a number, least significant first, are the number (R71). -/
theorem wordOfBytes_ofNat (n : Nat) :
    wordOfBytes (BitVec.ofNat 8 n) (BitVec.ofNat 8 (n / 256)) (BitVec.ofNat 8 (n / 256 / 256))
      (BitVec.ofNat 8 (n / 256 / 256 / 256)) = BitVec.ofNat 32 n := by
  apply BitVec.eq_of_toNat_eq
  simp only [wordOfBytes_toNat, BitVec.toNat_ofNat]
  omega

theorem halfOfBytes_ofNat (n : Nat) :
    halfOfBytes (BitVec.ofNat 8 n) (BitVec.ofNat 8 (n / 256)) = BitVec.ofNat 16 n := by
  apply BitVec.eq_of_toNat_eq
  simp only [halfOfBytes_toNat, BitVec.toNat_ofNat]
  omega

@[simp] theorem opOf_cmdWord (op : BitVec 4) (f : CmdFields) : opOf (cmdWord op f) = op := by
  apply BitVec.eq_of_toNat_eq
  simp only [opOf, BitVec.extractLsb'_toNat, Nat.shiftRight_eq_div_pow, cmdWord_toNat]
  omega

@[simp] theorem cmdFieldsOf_cmdWord (op : BitVec 4) (f : CmdFields) : cmdFieldsOf (cmdWord op f) = f := by
  obtain ⟨a, b, c, d⟩ := f
  simp only [cmdFieldsOf, CmdFields.mk.injEq]
  refine ⟨?_, ?_, ?_, ?_⟩ <;>
  · apply BitVec.eq_of_toNat_eq
    simp only [BitVec.extractLsb'_toNat, Nat.shiftRight_eq_div_pow, cmdWord_toNat]
    omega

/-- Every word is the command word of its own fields: no bit is dropped (R100). -/
theorem cmdWord_of (w : Word) : cmdWord (opOf w) (cmdFieldsOf w) = w := by
  apply BitVec.eq_of_toNat_eq
  simp only [cmdWord_toNat, opOf, cmdFieldsOf, BitVec.extractLsb'_toNat, Nat.shiftRight_eq_div_pow]
  omega

theorem decodeCmd_cmdWord (op : BitVec 4) (f : CmdFields) : decodeCmd (cmdWord op f) = decodeOp op f := by
  rw [decodeCmd, opOf_cmdWord, cmdFieldsOf_cmdWord]

theorem opOf_toNat (w : Word) : (opOf w).toNat = w.toNat % 16 := by
  simp only [opOf, BitVec.extractLsb'_toNat, Nat.shiftRight_eq_div_pow]
  omega

theorem uopWord_imm (imm : Byte) (uop : BitVec 3) : (imm ++ uop : BitVec 11).extractLsb' 3 8 = imm := by
  apply BitVec.eq_of_toNat_eq
  rw [BitVec.extractLsb'_toNat, show (imm ++ uop : BitVec 11).toNat = _ from append_toNat imm uop,
    Nat.shiftRight_eq_div_pow]
  omega

theorem uopWord_uop (imm : Byte) (uop : BitVec 3) : (imm ++ uop : BitVec 11).extractLsb' 0 3 = uop := by
  apply BitVec.eq_of_toNat_eq
  rw [BitVec.extractLsb'_toNat, show (imm ++ uop : BitVec 11).toNat = _ from append_toNat imm uop,
    Nat.shiftRight_eq_div_pow]
  omega

theorem uopWord_of (w : BitVec 11) : w.extractLsb' 3 8 ++ w.extractLsb' 0 3 = w := by
  apply BitVec.eq_of_toNat_eq
  rw [show (w.extractLsb' 3 8 ++ w.extractLsb' 0 3 : BitVec 11).toNat = _ from append_toNat _ _]
  simp only [BitVec.extractLsb'_toNat, Nat.shiftRight_eq_div_pow]
  omega

/-- The decoder undoes the encoder on micro-operation words (R108). -/
@[simp] theorem decodeUop_encodeUop (u : MicroOp) : decodeUop (encodeUop u) = .ok u := by
  cases u with
  | sendByte v =>
    simp only [decodeUop, encodeUop, uopWord_imm, uopWord_uop]
    rfl
  | _ => rfl

/-- A command word's bytes are read back whole, whatever follows. -/
theorem decode_cmdBytes (n : Nat) (rest : List Byte) :
    decode .cmd32 (bytesOfNat 4 n ++ rest) = .ok (decodeCmd (BitVec.ofNat 32 n), rest) := by
  simp only [bytesOfNat, List.cons_append, List.nil_append, decode, wordOfBytes_ofNat]

/-- A micro-operation word's two bytes are read back as the word, if the bits above it are zero. -/
theorem decode_uopBytes (w : BitVec 11) (rest : List Byte) :
    decode .uop11 (bytesOfNat 2 w.toNat ++ rest) =
      match decodeUop w with
      | .ok u => .ok (u.toInstr, rest)
      | .error e => .error e := by
  have hlt := w.isLt
  have h1 : (BitVec.ofNat 16 w.toNat).extractLsb' 11 5 = 0#5 := by
    apply BitVec.eq_of_toNat_eq
    simp only [BitVec.extractLsb'_toNat, Nat.shiftRight_eq_div_pow, BitVec.toNat_ofNat]
    omega
  have h2 : (BitVec.ofNat 16 w.toNat).extractLsb' 0 11 = w := by
    apply BitVec.eq_of_toNat_eq
    simp only [BitVec.extractLsb'_toNat, Nat.shiftRight_eq_div_pow, BitVec.toNat_ofNat]
    omega
  simp only [bytesOfNat, List.cons_append, List.nil_append, decode, halfOfBytes_ofNat, h1, h2]
  cases decodeUop w <;> simp

/-- OP 0x6 and 0x7 from their low bit (R103). -/
theorem op67_of_low (op : BitVec 4) (h : op.extractLsb' 1 3 = 0b011) : 0b011#3 ++ op.extractLsb' 0 1 = op := by
  apply BitVec.eq_of_toNat_eq
  have h' := congrArg BitVec.toNat h
  rw [show (0b011#3 ++ op.extractLsb' 0 1 : BitVec 4).toNat = _ from append_toNat _ _]
  simp [BitVec.extractLsb'_toNat, Nat.shiftRight_eq_div_pow] at h' ⊢
  omega

/-- OP 0x8 to 0xF from their three low bits (R103). -/
theorem op8F_of_low (op : BitVec 4) (h : 8 ≤ op.toNat) : 0b1#1 ++ op.extractLsb' 0 3 = op := by
  apply BitVec.eq_of_toNat_eq
  rw [show (0b1#1 ++ op.extractLsb' 0 3 : BitVec 4).toNat = _ from append_toNat _ _]
  simp [BitVec.extractLsb'_toNat]
  omega

namespace Machine

/-- A pseudo-instruction's CMD word has zero reserved fields (R111). -/
theorem pseudoWord_eq (op : BitVec 4) (dev reg : Byte) :
    pseudoWord op dev reg = cmdWord op { res1 := 0, reg := reg, dev := dev, res0 := 0 } := by
  apply BitVec.eq_of_toNat_eq
  rw [cmdWord_toNat, pseudoWord]
  simp only [BitVec.toNat_or, BitVec.toNat_shiftLeft, BitVec.toNat_setWidth]
  rw [Nat.or_assoc, Nat.mod_eq_of_lt (a := dev.toNat) (by omega), Nat.mod_eq_of_lt (a := reg.toNat) (by omega),
    Nat.mod_eq_of_lt (a := op.toNat) (by omega)]
  simp only [Nat.shiftLeft_eq]
  rw [Nat.mod_eq_of_lt (a := dev.toNat * _) (by omega), Nat.mod_eq_of_lt (a := reg.toNat * _) (by omega)]
  rw [← Nat.shiftLeft_eq, ← Nat.shiftLeft_eq, ← Nat.shiftLeft_add_eq_or_of_lt (b := op.toNat) (by omega),
    ← Nat.shiftLeft_add_eq_or_of_lt (by simp only [Nat.shiftLeft_eq]; omega)]
  simp only [Nat.shiftLeft_eq]
  simp
  omega

end Machine

end Sys2Proof
end

