-- ==== Sys2Proof/Laws/Engine.lean ====
section
/-! SUPPORT. The engine's steps: what the sequencer's control moves change, and how the steps of one bit of a
micro-operation run one after another (spec/10_state.md R50, spec/41_primitives.md R150). -/

namespace Sys2Proof.Machine

/-- Every instruction answers a next state. -/
theorem exec_next (i : Instr) (s : State) : ∃ t, exec i s = .next t := by
  cases i <;> exact ⟨_, rfl⟩

/-- One engine step is the step at the position, after the dispatcher's checks if a command has just been accepted. -/
theorem engineStep_eq (s : State) :
    engineStep s = positionStep s ∨ (s.pos = .dispatch ∧ engineStep s = positionStep (dispatchPos s)) := by
  by_cases hd : s.pos = .dispatch
  · right
    simp only [engineStep, hd]
    trivial
  · left
    unfold engineStep
    split <;> first | rfl | contradiction | (rename_i he; simp [positionStep, he])

/-- Only the engine's control fields (`pos`, `k`, `i`, `phase`, `r`) differ. -/
structure SameButControl (s t : State) : Prop where
  trace : t.trace = s.trace
  sclO : t.sclO = s.sclO
  sdaO : t.sdaO = s.sdaO
  mem : t.mem = s.mem
  latch : t.latch = s.latch
  ready : t.ready = s.ready
  tick : t.tick = s.tick
  busy : t.busy = s.busy
  result : t.result = s.result
  cmd : t.cmd = s.cmd
  raced : t.raced = s.raced
  acc : t.acc = s.acc
  ack : t.ack = s.ack

theorem SameButControl.goto (p : Pos) (s : State) : SameButControl s (goto p s) := by constructor <;> rfl

theorem SameButControl.issue (u : MicroOp) (site : CallSite) (s : State) : SameButControl s (issue u site s) := by
  constructor <;> rfl

/-- The return of a micro-operation to its caller changes only the control fields. -/
theorem SameButControl.advance (site : CallSite) (s : State) : SameButControl s (advance site s) := by
  cases site <;> simp only [Machine.advance]
  case addrAck =>
    split
    · exact .issue _ _ _
    · unfold afterAddress
      split <;> [skip; split] <;> constructor <;> rfl
  case regAck =>
    split
    · exact .issue _ _ _
    · unfold afterRegister
      split <;> constructor <;> rfl
  case dataAck =>
    split
    · exact .issue _ _ _
    · unfold afterDataSent
      split <;> constructor <;> rfl
  case midStop =>
    unfold afterMidStop
    split <;> constructor <;> rfl
  case lastStop =>
    unfold afterReturn
    split <;> constructor <;> rfl
  all_goals constructor <;> rfl

/-- The dispatcher's checks change only the control fields (R253). -/
theorem SameButControl.dispatchPos (s : State) : SameButControl s (dispatchPos s) := by
  have he : ∀ ph, SameButControl s (enterTransaction ph s) := by
    intro ph
    unfold enterTransaction
    split <;> constructor <;> rfl
  unfold Machine.dispatchPos
  split
  · exact .goto _ _
  · split <;> first | exact .goto _ _ | exact he _ | skip
    split <;> exact .goto _ _

/-- Where control goes after a micro-operation depends on neither the old position nor the bit index. -/
theorem advance_control (site : CallSite) (p : Pos) (k : Nat) (s : State) :
    advance site { s with pos := p, k := k } = advance site s := by
  cases site <;> simp only [advance]
  case addrAck =>
    split
    · rfl
    · unfold afterAddress
      dsimp only
      split
      · rfl
      · split <;> rfl
  case regAck => split <;> [rfl; (unfold afterRegister; dsimp only; split <;> rfl)]
  case dataAck => split <;> [rfl; (unfold afterDataSent; dsimp only; split <;> rfl)]
  case midStop => unfold afterMidStop; dsimp only; split <;> rfl
  case lastStop => unfold afterReturn; dsimp only; split <;> rfl
  all_goals rfl

/-! ### Steps of micro-operations -/

/-- A step of a micro-operation leaves the control fields alone. -/
theorem Prim.run_control (q : Prim) (s : State) :
    (q.run s).pos = s.pos ∧ (q.run s).k = s.k ∧ (q.run s).i = s.i ∧ (q.run s).phase = s.phase := by
  cases q <;> exact ⟨rfl, rfl, rfl, rfl⟩

theorem runPrims_control (qs : List Prim) (s : State) :
    (runPrims qs s).pos = s.pos ∧ (runPrims qs s).k = s.k ∧ (runPrims qs s).i = s.i ∧
      (runPrims qs s).phase = s.phase := by
  induction qs generalizing s with
  | nil => exact ⟨rfl, rfl, rfl, rfl⟩
  | cons q qs ih =>
    obtain ⟨a, b, c, d⟩ := ih (q.run s)
    obtain ⟨a', b', c', d'⟩ := q.run_control s
    exact ⟨a.trans a', b.trans b', c.trans c', d.trans d'⟩

/-- Steps do not look at the position. -/
theorem runPrims_pos (p : Pos) (qs : List Prim) (s : State) :
    runPrims qs { s with pos := p } = { runPrims qs s with pos := p } := by
  induction qs generalizing s with
  | nil => rfl
  | cons q qs ih =>
    simp only [runPrims, ← ih]
    cases q <;> rfl

theorem sendBits_control (v : Byte) (p : Pos) (k n : Nat) (s : State) :
    sendBits v n { s with pos := p, k := k } = { sendBits v n s with pos := p, k := k } := by
  induction n generalizing s with
  | zero => simp only [sendBits, runPrims_sendBitSteps]
  | succ n ih => simp only [sendBits, runPrims_sendBitSteps, ← ih]

theorem recvBits_control (p : Pos) (k n : Nat) (s : State) :
    recvBits n { s with pos := p, k := k } = { recvBits n s with pos := p, k := k } := by
  induction n generalizing s with
  | zero =>
    simp only [recvBits, runPrims_recvBitSteps]
    rfl
  | succ n ih =>
    simp only [recvBits, runPrims_recvBitSteps, ← ih]
    rfl

/-! ### Runs of the engine -/

theorem engineRun_add (m n : Nat) (s : State) :
    engineRun (m + n) s =
      match engineRun m s with
      | .next t => engineRun n t
      | .fault e => .fault e
      | .refused e => .refused e := by
  induction m generalizing s with
  | zero => simp [engineRun]
  | succ m ih =>
    rw [Nat.add_right_comm]
    simp only [engineRun]
    cases engineStep s <;> simp [ih]

theorem engineRun_next {m n : Nat} {s t : State} (h : engineRun m s = .next t) :
    engineRun (m + n) s = engineRun n t := by
  rw [engineRun_add, h]

theorem engineStep_micro {u : MicroOp} {w : BitVec 11} {sub : Nat} {site : CallSite} {s : State}
    (hp : s.pos = .micro w sub site) (hw : decodeUop w = .ok u) :
    engineStep s = .next (microStep u w sub site s) := by
  simp only [engineStep, positionStep, hp, hw]

theorem clearAccAtEntry_other {u : MicroOp} {sub : Nat} {s : State} (h : u ≠ .recvByte) :
    clearAccAtEntry u sub s = s := by
  unfold clearAccAtEntry
  rw [if_neg]
  exact fun hc => h hc.1

/-- Where the engine stands after the last step of a bit: at the next bit down, or out of the micro-operation. -/
def afterBit (w : BitVec 11) (site : CallSite) (t : State) : State :=
  if 0 < t.k then { t with pos := .micro w 0 site, k := t.k - 1 } else advance site t

theorem afterBit_pos (w : BitVec 11) (site : CallSite) (p : Pos) (t : State) :
    afterBit w site { t with pos := p } = afterBit w site t := by
  unfold afterBit
  dsimp only
  split
  · rfl
  · exact advance_control site p t.k t

/-- From step `sub` of a bit, as many engine steps as the bit has steps left run them all and leave the bit. -/
theorem engineRun_bit {u : MicroOp} {w : BitVec 11} {site : CallSite} (hw : decodeUop w = .ok u) (ps : List Prim)
    (hne : ps ≠ []) (sub : Nat) (s : State) (hp : s.pos = .micro w sub site)
    (hd : (bitSteps u s.k).drop sub = ps) (hc : clearAccAtEntry u sub s = s) :
    engineRun ps.length s = .next (afterBit w site (runPrims ps s)) := by
  induction ps generalizing sub s with
  | nil => exact absurd rfl hne
  | cons p ps ih =>
    have hget : (bitSteps u s.k)[sub]? = some p := by
      have := congrArg (fun l => l[0]?) hd
      simpa using this
    have hlen := congrArg List.length hd
    simp only [List.length_drop, List.length_cons] at hlen
    have hstep : engineStep s = .next (nextMicro u w sub site (p.run s)) := by
      rw [engineStep_micro hp hw]
      simp only [microStep, hget, hc]
    simp only [List.length_cons, engineRun, hstep]
    have hk := (p.run_control s).2.1
    by_cases hps : ps = []
    · subst hps
      simp only [List.length_nil, engineRun, runPrims, nextMicro, hk]
      simp only [List.length_nil] at hlen
      rw [if_neg (by omega)]
      simp only [afterBit, hk]
    · have : 0 < ps.length := List.length_pos_iff.mpr hps
      have hlt : sub + 1 < (bitSteps u (p.run s).k).length := by
        rw [hk]
        omega
      unfold nextMicro
      rw [if_pos hlt, ih hps (sub + 1) _ rfl]
      · simp only [runPrims]
        rw [runPrims_pos, afterBit_pos]
      · show (bitSteps u (p.run s).k).drop (sub + 1) = ps
        rw [hk, ← List.drop_drop, hd]
        rfl
      · unfold clearAccAtEntry
        rw [if_neg]
        omega

/-! ### The trace only grows -/

/-- A step of a micro-operation appends its event. -/
theorem Prim.run_trace (p : Prim) (s : State) : ∃ e, (p.run s).trace = s.trace ++ [e] := by
  cases p <;> exact ⟨_, rfl⟩

theorem clearAccAtEntry_trace (u : MicroOp) (sub : Nat) (s : State) :
    (clearAccAtEntry u sub s).trace = s.trace := by
  unfold clearAccAtEntry
  split <;> rfl

theorem microStep_trace (u : MicroOp) (w : BitVec 11) (sub : Nat) (site : CallSite) (s : State) :
    ∃ e, (microStep u w sub site s).trace = s.trace ++ e := by
  unfold microStep
  split
  · rename_i p _
    obtain ⟨e, he⟩ := p.run_trace (clearAccAtEntry u sub s)
    rw [clearAccAtEntry_trace] at he
    refine ⟨[e], ?_⟩
    unfold nextMicro
    split_ifs
    · exact he
    · exact he
    · rw [(SameButControl.advance _ _).trace, he]
  · exact ⟨[], (List.append_nil _).symm⟩

/-- `MemRead` appends its event with the byte it returns. -/
theorem memReadByte_trace (a : Nat) (s : State) :
    (memReadByte a s).2.trace = s.trace ++ [.memRead a (memReadByte a s).1] := by
  unfold memReadByte resolveRace
  cases racedValues a s <;> rfl

/-- The write of received byte `i` appends its event. -/
theorem bufferWriteStep_trace (s : State) (h : portAdmits s.plat (effAddr s.latch.buf s.i) = true) :
    (bufferWriteStep s).trace = s.trace ++ [.memWrite (effAddr s.latch.buf s.i) s.acc] := by
  simp only [bufferWriteStep, h, if_true]
  split <;> rfl

theorem positionStep_trace {s t : State} (h : positionStep s = .next t) : ∃ e, t.trace = s.trace ++ e := by
  cases hp : s.pos with
  | micro w sub site =>
    simp only [positionStep, hp] at h
    split at h
    · injection h with h
      subst h
      exact microStep_trace _ _ _ _ _
    · cases h
  | memRead =>
    simp only [positionStep, hp] at h
    injection h with h
    subst h
    unfold bufferReadStep
    split
    · exact ⟨_, memReadByte_trace _ _⟩
    · exact ⟨[], (List.append_nil _).symm⟩
  | memWrite =>
    simp only [positionStep, hp] at h
    injection h with h
    subst h
    by_cases ha : portAdmits s.plat (effAddr s.latch.buf s.i) = true
    · exact ⟨_, bufferWriteStep_trace s ha⟩
    · exact ⟨[], by simp [bufferWriteStep, ha]⟩
  | initSCL =>
    simp only [positionStep, hp] at h
    injection h with h
    subst h
    exact ⟨_, rfl⟩
  | initSDA =>
    simp only [positionStep, hp] at h
    injection h with h
    subst h
    exact ⟨_, rfl⟩
  | _ =>
    simp only [positionStep, hp] at h
    injection h with h
    subst h
    exact ⟨[], (List.append_nil _).symm⟩

/-- An engine step only appends to the trace. -/
theorem engineStep_trace {s t : State} (h : engineStep s = .next t) : ∃ e, t.trace = s.trace ++ e := by
  rcases engineStep_eq s with he | ⟨-, he⟩ <;> rw [he] at h
  · exact positionStep_trace h
  · rw [← (SameButControl.dispatchPos s).trace]
    exact positionStep_trace h

/-! ### The byte to come (R88) -/

/-- A byte to come is one that a run of engine steps alone writes there, as its last event. -/
theorem byteToCome_written {a n : Nat} {s : State} {x : Byte} (h : byteToCome a n s = some x) :
    ∃ m t e, engineRun m s = .next t ∧ t.trace = s.trace ++ e ++ [.memWrite a x] := by
  induction n generalizing s with
  | zero => cases h
  | succ n ih =>
    rw [byteToCome] at h
    cases hw : writesNow a s with
    | some v =>
      simp only [hw, Option.some.injEq] at h
      subst h
      unfold writesNow at hw
      split at hw
      · rename_i hc
        obtain ⟨hp, ha, hn⟩ := hc
        injection hw with hw
        subst hw ha
        have had : portAdmits s.plat (effAddr s.latch.buf s.i) = true := by simpa [hasNoStep, hp] using hn
        refine ⟨1, bufferWriteStep s, [], ?_, ?_⟩
        · simp only [engineRun, engineStep, positionStep, hp]
        · rw [bufferWriteStep_trace s had, List.append_nil]
      · cases hw
    | none =>
      simp only [hw] at h
      split at h
      · cases h
      · cases hs : engineStep s with
        | next u =>
          simp only [hs] at h
          obtain ⟨m, t, e, hr, ht⟩ := ih h
          obtain ⟨e', he'⟩ := engineStep_trace hs
          refine ⟨m + 1, t, e' ++ e, ?_, ?_⟩
          · simp only [engineRun, hs, hr]
          · rw [ht, he']
            simp only [List.append_assoc]
        | fault e =>
          simp only [hs] at h
          cases h
        | refused e =>
          simp only [hs] at h
          cases h

/-! ### The lines (R159) -/

theorem linesAfter_append (a b : List Prim) (l : Level × Option Level) :
    linesAfter (a ++ b) l = linesAfter b (linesAfter a l) := by
  induction a generalizing l with
  | nil => rfl
  | cons p ps ih => exact ih _

theorem linesAfter_take {ps : List Prim} {n : Nat} {p : Prim} (h : ps[n]? = some p) (l : Level × Option Level) :
    linesAfter (ps.take (n + 1)) l = p.lines (linesAfter (ps.take n) l) := by
  rw [List.take_add_one, h, linesAfter_append]
  rfl

theorem Trace.replay_append (a b : List Event) (l : Level × Level) :
    Trace.replay (a ++ b) l = Trace.replay b (Trace.replay a l) := by
  induction a generalizing l with
  | nil => rfl
  | cons e es ih => exact ih _

end Sys2Proof.Machine
end

