-- ==== Sys2Proof/Laws/Host.lean ====
section
/-! SUPPORT. What a host access does, said once: the window (spec/20_memory.md R72), loads and stores of registers
(spec/10_state.md R31, R41), and the resolution of races (spec/20_memory.md R88). -/

namespace Sys2Proof.Machine

theorem windowOffset_base (s : State) (off : Word) : windowOffset s (s.plat.base + off) = off := by
  simp only [windowOffset]
  bv_omega

/-- Which accesses at an offset from P_BASE are admitted (R72). -/
theorem windowAdmits_base (s : State) (off : Word) (width : Nat) :
    windowAdmits s (s.plat.base + off) width =
      (decide (width = 4) && decide (off.toNat < 0x20) && decide (off.toNat % 4 = 0)) := by
  simp only [windowAdmits, inWindow, windowOffset_base]

theorem statusWord_eq (busy ready : Bool) :
    statusWord busy ready = BitVec.ofNat 32 ((if busy then 1 else 0) + if ready then 2 else 0) := by
  cases busy <;> cases ready <;> rfl

theorem step_host (act : HostAct) (s : State) (rest : List Turn) :
    step { s with turns := .host act :: rest } = hostStep act { s with turns := rest } := rfl

theorem hostStep_notStuck (act : HostAct) (s : State) (h : s.hostStuck = false) :
    hostStep act s = hostAccess act s := by simp [hostStep, h]

/-- A load of a register, whatever follows it in the schedule (R41). -/
theorem step_load (s : State) (rest : List Turn) (off : Word) (hs : s.hostStuck = false) (h1 : off.toNat < 0x20)
    (h2 : off.toNat % 4 = 0) :
    step { s with turns := .host (.load (s.plat.base + off) 4) :: rest } =
      .next (hostSees (readReg off s) { s with turns := rest }) := by
  rw [step_host, hostStep_notStuck _ _ (by exact hs)]
  have ha : windowAdmits { s with turns := rest } (s.plat.base + off) 4 = true := by
    rw [show s.plat = ({ s with turns := rest } : State).plat from rfl, windowAdmits_base]
    simp [h1, h2]
  have ho : windowOffset { s with turns := rest } (s.plat.base + off) = off :=
    windowOffset_base { s with turns := rest } off
  simp only [hostAccess, ha, ho, if_true]
  rfl

/-- A store to a register, whatever follows it in the schedule (R41). -/
theorem step_store (s : State) (rest : List Turn) (off v : Word) (hs : s.hostStuck = false) (h1 : off.toNat < 0x20)
    (h2 : off.toNat % 4 = 0) :
    step { s with turns := .host (.store (s.plat.base + off) 4 v) :: rest } =
      writeReg off v { s with turns := rest } := by
  rw [step_host, hostStep_notStuck _ _ (by exact hs)]
  have ha : windowAdmits { s with turns := rest } (s.plat.base + off) 4 = true := by
    rw [show s.plat = ({ s with turns := rest } : State).plat from rfl, windowAdmits_base]
    simp [h1, h2]
  have ho : windowOffset { s with turns := rest } (s.plat.base + off) = off :=
    windowOffset_base { s with turns := rest } off
  simp only [hostAccess, ha, ho, if_true]

/-! ### Races (R88) -/

/-- A race gives the value now in memory or one of the other values admitted. -/
theorem resolveRace_value (now : Byte) (others : List Byte) (s : State) :
    (resolveRace now others s).1 = now ∨ (resolveRace now others s).1 ∈ others := by
  cases others with
  | nil => exact .inl rfl
  | cons v vs =>
    simp only [resolveRace, pickRaced]
    have hl : Config.raceChoice s.races % ((v :: vs).length + 1) < (now :: v :: vs).length := by
      rw [List.length_cons (a := now)]
      exact Nat.mod_lt _ (by omega)
    rw [List.getElem?_eq_getElem hl]
    exact List.mem_cons.mp (List.getElem_mem hl)

/-- Resolving a race changes nothing but the count of races. -/
theorem resolveRace_state (now : Byte) (others : List Byte) (s : State) :
    ∃ n, (resolveRace now others s).2 = { s with races := n } := by
  cases others with
  | nil => exact ⟨s.races, rfl⟩
  | cons v vs => exact ⟨s.races + 1, rfl⟩

end Sys2Proof.Machine
end

