-- ==== Sys2Proof/Laws/PerInstr.lean ====
section
/-! SUPPORT. Laws of every instruction as syntax, one lemma per constructor. `MatchesRow`: the encoded word has the
fixed bits that the instruction's row of spec/opcode_table.json gives it (spec/30_encoding.md R101, R103, R109). -/

namespace Sys2Proof.Laws.MatchesRow

open Sys2Proof

/-- A row's fixed bits: `value` stands in the bits `lo` to `hi - 1`, the bits of the row's mask (one run of bits in
every row). -/
structure Row where
  lo : Nat
  hi : Nat
  value : Nat
  deriving DecidableEq, Repr

/-- The fixed bits of each row of the opcode table. -/
def row : Instr → Row
  | .init _ => { lo := 0, hi := 4, value := 1 }
  | .send _ => { lo := 0, hi := 4, value := 2 }
  | .recv _ => { lo := 0, hi := 4, value := 3 }
  | .memWrite _ => { lo := 0, hi := 4, value := 4 }
  | .memRead _ => { lo := 0, hi := 4, value := 5 }
  | .reservedOp0 _ => { lo := 0, hi := 4, value := 0 }
  | .reservedOp67 _ _ => { lo := 1, hi := 4, value := 3 }
  | .reservedOp8F _ _ => { lo := 3, hi := 4, value := 1 }
  | .start => { lo := 0, hi := 11, value := 0 }
  | .stop => { lo := 0, hi := 11, value := 1 }
  | .ack => { lo := 0, hi := 11, value := 2 }
  | .nak => { lo := 0, hi := 11, value := 3 }
  | .waitAck => { lo := 0, hi := 11, value := 4 }
  | .sendByte _ => { lo := 0, hi := 3, value := 5 }
  | .recvByte => { lo := 0, hi := 11, value := 6 }

/-- How many bits a word of the format has. -/
def wordBits : Format → Nat
  | .cmd32 => 32
  | .uop11 => 11

/-- The instruction's word has its row's fixed bits, and no bit beyond its format. -/
def Statement (i : Instr) : Prop :=
  encodeNat i / 2 ^ (row i).lo % 2 ^ ((row i).hi - (row i).lo) = (row i).value ∧
    encodeNat i < 2 ^ wordBits i.format

/-- The low bits of a command word are OP's. -/
theorem cmdWord_low (op : BitVec 4) (f : CmdFields) (lo : Nat) (hlo : lo ≤ 4) :
    (cmdWord op f).toNat / 2 ^ lo % 2 ^ (4 - lo) = op.toNat / 2 ^ lo := by
  rw [cmdWord_toNat]
  have h := op.isLt
  obtain rfl | rfl | rfl | rfl | rfl : lo = 0 ∨ lo = 1 ∨ lo = 2 ∨ lo = 3 ∨ lo = 4 := by omega
  all_goals omega

theorem cmdWord_row (op : BitVec 4) (f : CmdFields) (lo value : Nat) (hlo : lo ≤ 4) (h : op.toNat / 2 ^ lo = value) :
    (cmdWord op f).toNat / 2 ^ lo % 2 ^ (4 - lo) = value ∧ (cmdWord op f).toNat < 2 ^ 32 :=
  ⟨(cmdWord_low op f lo hlo).trans h, (cmdWord op f).isLt⟩

theorem init (f : CmdFields) : Statement (.init f) := cmdWord_row 0x1 f 0 1 (by decide) rfl

theorem send (f : CmdFields) : Statement (.send f) := cmdWord_row 0x2 f 0 2 (by decide) rfl

theorem recv (f : CmdFields) : Statement (.recv f) := cmdWord_row 0x3 f 0 3 (by decide) rfl

theorem memWrite (f : CmdFields) : Statement (.memWrite f) := cmdWord_row 0x4 f 0 4 (by decide) rfl

theorem memRead (f : CmdFields) : Statement (.memRead f) := cmdWord_row 0x5 f 0 5 (by decide) rfl

theorem reservedOp0 (f : CmdFields) : Statement (.reservedOp0 f) := cmdWord_row 0x0 f 0 0 (by decide) rfl

theorem reservedOp67 (low : BitVec 1) (f : CmdFields) : Statement (.reservedOp67 low f) := by
  refine cmdWord_row _ f 1 3 (by decide) ?_
  rw [append_toNat]
  have h := low.isLt
  show (3 * 2 ^ 1 + low.toNat) / 2 ^ 1 = 3
  omega

theorem reservedOp8F (low : BitVec 3) (f : CmdFields) : Statement (.reservedOp8F low f) := by
  refine cmdWord_row _ f 3 1 (by decide) ?_
  rw [append_toNat]
  have h := low.isLt
  show (1 * 2 ^ 3 + low.toNat) / 2 ^ 3 = 1
  omega

theorem start : Statement .start := ⟨by decide, by decide⟩

theorem stop : Statement .stop := ⟨by decide, by decide⟩

theorem ack : Statement .ack := ⟨by decide, by decide⟩

theorem nak : Statement .nak := ⟨by decide, by decide⟩

theorem waitAck : Statement .waitAck := ⟨by decide, by decide⟩

theorem sendByte (v : Byte) : Statement (.sendByte v) := by
  refine ⟨?_, (encodeUop (.sendByte v)).isLt⟩
  show (v ++ 0b101#3 : BitVec 11).toNat / 2 ^ 0 % 2 ^ 3 = 5
  rw [append_toNat]
  show (v.toNat * 2 ^ 3 + 5) / 2 ^ 0 % 2 ^ 3 = 5
  omega

theorem recvByte : Statement .recvByte := ⟨by decide, by decide⟩

end Sys2Proof.Laws.MatchesRow
end

