-- ==== Sys2Proof/Tests/Slice0.lean ====
section
/-! SUPPORT. Tests: what WellFormed refuses, words written out from spec/30_encoding.md, vectors of
spec/95_test_vectors.md, and for every statement with hypotheses a state and operands that meet them. -/

namespace Sys2Proof.Tests

open Sys2Proof Sys2Proof.Machine

/-! ### Helpers -/

/-- The fields of a command with zero reserved bits. -/
def fields (dev reg : Byte) : CmdFields := { res1 := 0, reg := reg, dev := dev, res0 := 0 }

/-- INIT done (READY = 1, TICK = 2), three bytes in memory: the start state of the vectors of L2.6 to L2.10. -/
def idle : State :=
  { State.reset with ready := true, tick := 2, mem := [(0x1000, 0x55), (0x1001, 0x66), (0x1002, 0x77)] }

/-- `idle` with a command accepted and the environment's answers queued. -/
def accepted (w freq buf count : Word) (answers : List Level) : State :=
  acceptCommand w { idle with freq := freq, buf := buf, count := count, sdaIn := answers }

/-- The next state, or the state after reset where there is none. -/
def after : Host.Outcome State Fault Refusal → State
  | .next s => s
  | .fault _ => State.reset
  | .refused _ => State.reset

/-- A transaction's RESULT and its trace. -/
def run (i : Instr) (s : State) : Word × List Event := ((after (exec i s)).result, (after (exec i s)).trace)

/-- The answers whose bits, most significant first, are a byte. -/
def answersOf (v : Byte) : List Level := [7, 6, 5, 4, 3, 2, 1, 0].map v.getLsbD

/-! ### WellFormed refuses (R100, R103) -/

theorem test_wf_accepts : Instr.wf (.memWrite (fields 0xFF 0xFF)) = true := by decide

theorem test_wf_refuses_res0 : Instr.wf (.send { res1 := 0, reg := 0, dev := 0xA0, res0 := 1 }) = false := by decide

theorem test_wf_refuses_res1 : Instr.wf (.recv { res1 := 0x80, reg := 0, dev := 0xA0, res0 := 0 }) = false := by decide

theorem test_wf_refuses_op_0 : Instr.wf (.reservedOp0 (fields 0 0)) = false := by decide

theorem test_wf_refuses_op_6 : Instr.wf (.reservedOp67 0 (fields 0 0)) = false := by decide

theorem test_wf_refuses_op_F : Instr.wf (.reservedOp8F 7 (fields 0 0)) = false := by decide

/-! ### Decoding words written out from the spec (R100, R101, R103, R109; vectors L2.5.6 to L2.5.12) -/

theorem test_decode_init : decodeTableWord 32 0x00000001 = some (.init (fields 0 0)) := by decide

theorem test_decode_send : decodeTableWord 32 0x0000A002 = some (.send (fields 0xA0 0)) := by decide

theorem test_decode_recv : decodeTableWord 32 0x0000A003 = some (.recv (fields 0xA0 0)) := by decide

theorem test_decode_memWrite : decodeTableWord 32 0x00053C04 = some (.memWrite (fields 0x3C 0x05)) := by decide

theorem test_decode_memRead : decodeTableWord 32 0x00FFFF05 = some (.memRead (fields 0xFF 0xFF)) := by decide

theorem test_decode_reservedOp0 : decodeTableWord 32 0x0000A000 = some (.reservedOp0 (fields 0xA0 0)) := by decide

theorem test_decode_reservedOp67 :
    decodeTableWord 32 0x0000A006 = some (.reservedOp67 0 (fields 0xA0 0)) ∧
      decodeTableWord 32 0x0000A007 = some (.reservedOp67 1 (fields 0xA0 0)) := by decide

theorem test_decode_reservedOp8F :
    decodeTableWord 32 0x0000A008 = some (.reservedOp8F 0 (fields 0xA0 0)) ∧
      decodeTableWord 32 0x0000A00F = some (.reservedOp8F 7 (fields 0xA0 0)) := by decide

/-- Bits 31:24 RES1, 23:16 REGOFF, 15:8 DEV, 7:4 RES0, 3:0 OP (R100), each field at another value. -/
theorem test_decode_fields :
    decodeTableWord 32 0b10000001_01100010_10100011_0101_0100 =
      some (.memWrite { res1 := 0x81, reg := 0x62, dev := 0xA3, res0 := 0x5 }) := by decide

theorem test_decode_start : decodeTableWord 16 0b00000000_000 = some .start := by decide

theorem test_decode_stop : decodeTableWord 16 0b00000000_001 = some .stop := by decide

theorem test_decode_ack : decodeTableWord 16 0b00000000_010 = some .ack := by decide

theorem test_decode_nak : decodeTableWord 16 0b00000000_011 = some .nak := by decide

theorem test_decode_waitAck : decodeTableWord 16 0b00000000_100 = some .waitAck := by decide

theorem test_decode_sendByte : decodeTableWord 16 0b10110000_101 = some (.sendByte 0xB0) := by decide

theorem test_decode_recvByte : decodeTableWord 16 0b00000000_110 = some .recvByte := by decide

theorem test_decode_refuses_uop_7 : decodeUop 0b00000000_111 = .error .reservedUop := by decide

theorem test_decode_refuses_imm : decodeUop 0b00000001_110 = .error .immediateNotZero := by decide

theorem test_decode_refuses_high_bits : decode .uop11 [0x00, 0x08] = .error .beyondUopWord := by decide

theorem test_decode_refuses_short : decode .cmd32 [0x01, 0x00, 0x00] = .error .truncated := by decide

/-! ### Vectors of spec/95_test_vectors.md -/

/-- L2.1.3 and L2.1.5: the tick formula truncates toward zero. -/
theorem test_init_tick :
    (after (exec (.init (fields 0 0)) (accepted 1 3 0 0 []))).tick = 83333 ∧
      (after (exec (.init (fields 0 0)) (accepted 1 100000 0 0 []))).tick = 2 := by decide

/-- L2.1.11: a failed INIT keeps TICK; no event. -/
theorem test_init_fails :
    run (.init (fields 0 0)) (accepted 1 400000 0 0 []) = (0xFFFFFFFF, []) ∧
      (after (exec (.init (fields 0 0)) (accepted 1 400000 0 0 []))).tick = 2 := by decide

/-- L2.3.1 (the source's §8 property 8): 0xB0 goes out as 1, 0, 1, 1, 0, 0, 0, 0. -/
theorem test_sendByte_order :
    Trace.dataSets (after (exec (.sendByte 0xB0) idle)).trace =
      [true, false, true, true, false, false, false, false] := by decide

/-- L2.2.6: an ack sample of 1 is NOT-ACKNOWLEDGED. -/
theorem test_waitAck_refused :
    (after (exec .waitAck { idle with sdaIn := [HIGH] })).ack = .notAcknowledged := by decide

/-- L2.4.6: eight samples, most significant first, whatever the accumulator held. -/
theorem test_recvByte_order :
    (after (exec .recvByte { idle with
      acc := 0xFF, sdaIn := [true, true, false, true, true, true, true, false] })).acc = 0xDE := by decide

/-- L2.2.1: START. -/
theorem test_start :
    (after (exec .start idle)).trace =
      [.setSCL true, .delay, .setSDA true, .delay, .setSDA false, .delay, .setSCL false, .delay] := by decide

/-- L2.2.2: STOP leaves both lines HIGH. -/
theorem test_stop :
    (after (exec .stop { idle with sclO := LOW, sdaO := LOW })).sclO = HIGH ∧
      (after (exec .stop { idle with sclO := LOW, sdaO := LOW })).sdaO = HIGH := by decide

/-- L2.2.3 and L2.2.4: ACK and NAK differ in the data line. -/
theorem test_ack_nak :
    (after (exec .ack idle)).sdaO = LOW ∧ (after (exec .nak idle)).sdaO = HIGH := by decide

/-- L2.7.3: DEV bit 0 is ignored; one byte is sent. -/
theorem test_send_one :
    run (.send (fields 0xA1 0)) (accepted 0x0000A102 0 0x1000 1 [LOW, LOW]) =
      (1, Trace.start ++ Trace.sb 0xA0 ++ Trace.wa LOW ++ [.memRead 0x1000 0x55] ++ Trace.sb 0x55 ++
        Trace.wa LOW ++ Trace.stop) := by decide +kernel

/-- L2.7.6: the second data byte is not acknowledged. -/
theorem test_send_data_refused :
    run (.send (fields 0xA0 0)) (accepted 0x0000A002 0 0x1000 3 [LOW, LOW, HIGH]) =
      (0xFFFFFFFC, Trace.start ++ Trace.sb 0xA0 ++ Trace.wa LOW ++ [.memRead 0x1000 0x55] ++ Trace.sb 0x55 ++
        Trace.wa LOW ++ [.memRead 0x1001 0x66] ++ Trace.sb 0x66 ++ Trace.wa HIGH ++ Trace.stop) := by decide +kernel

/-- L2.8.2: ACK after the first byte, NAK after the last. -/
theorem test_recv_two :
    run (.recv (fields 0xA0 0))
        (accepted 0x0000A003 0 0x2000 2 (LOW :: (answersOf 0x12 ++ answersOf 0x34))) =
      (2, Trace.start ++ Trace.sb 0xA1 ++ Trace.wa LOW ++ Trace.rb 0x12 ++ [.memWrite 0x2000 0x12] ++ Trace.ack ++
        Trace.rb 0x34 ++ [.memWrite 0x2001 0x34] ++ Trace.nak ++ Trace.stop) := by decide +kernel

/-- L2.9.4: the register-offset byte is not acknowledged. -/
theorem test_memWrite_register_refused :
    run (.memWrite (fields 0xA0 0x10)) (accepted 0x0010A004 0 0x1000 3 [LOW, HIGH]) =
      (0xFFFFFFFD, Trace.start ++ Trace.sb 0xA0 ++ Trace.wa LOW ++ Trace.sb 0x10 ++ Trace.wa HIGH ++ Trace.stop) := by
  decide +kernel

/-- L2.9.7: REGOFF bit 0 is data. -/
theorem test_memWrite_one :
    run (.memWrite (fields 0xA0 0x01)) (accepted 0x0001A004 0 0x1000 1 [LOW, LOW, LOW]) =
      (1, Trace.start ++ Trace.sb 0xA0 ++ Trace.wa LOW ++ Trace.sb 0x01 ++ Trace.wa LOW ++
        [.memRead 0x1000 0x55] ++ Trace.sb 0x55 ++ Trace.wa LOW ++ Trace.stop) := by decide +kernel

/-- L2.10.1: the byte read is in memory. -/
theorem test_memRead_one :
    run (.memRead (fields 0xA0 0x10)) (accepted 0x0010A005 0 0x2000 1 ([LOW, LOW, LOW] ++ answersOf 0xDE)) =
        (1, Trace.start ++ Trace.sb 0xA0 ++ Trace.wa LOW ++ Trace.sb 0x10 ++ Trace.wa LOW ++ Trace.stop ++
          Trace.start ++ Trace.sb 0xA1 ++ Trace.wa LOW ++ Trace.rb 0xDE ++ [.memWrite 0x2000 0xDE] ++
          Trace.nak ++ Trace.stop) := by decide +kernel

/-- L2.10.5: fail C, two STOPs in the whole command. -/
theorem test_memRead_short :
    run (.memRead (fields 0xA0 0x10)) (accepted 0x0010A005 0 0x2000 2 [LOW, LOW, HIGH]) =
      (0xFFFFFFFB, Trace.start ++ Trace.sb 0xA0 ++ Trace.wa LOW ++ Trace.sb 0x10 ++ Trace.wa LOW ++ Trace.stop ++
        Trace.start ++ Trace.sb 0xA1 ++ Trace.wa HIGH ++ Trace.stop) := by decide +kernel

/-- L2.6.7: the buffer wraps; and 0xFFFFFFFF with one byte does not. -/
theorem test_args_wrap : argsOk true 0xFFFFFFFF 2 = false ∧ argsOk true 0xFFFFFFFF 1 = true := by decide

/-- L2.6.6: the count's bound. -/
theorem test_args_count : argsOk true 0x1000 0x80000000 = false ∧ argsOk true 0x1000 0x7FFFFFFF = true := by decide

/-- L2.6.8 to L2.6.10: reserved OP values finish with -1. -/
theorem test_reserved_ops :
    run (.reservedOp0 (fields 0xA0 0)) (accepted 0x0000A000 0 0x1000 1 []) = (0xFFFFFFFF, []) ∧
      run (.reservedOp67 0 (fields 0xA0 0)) (accepted 0x0000A006 0 0x1000 1 []) = (0xFFFFFFFF, []) ∧
      run (.reservedOp8F 7 (fields 0xA0 0)) (accepted 0x0000A00F 0 0x1000 1 []) = (0xFFFFFFFF, []) := by decide

/-- L2.11.2 and L2.11.3: STATUS. -/
theorem test_status :
    readReg offStatus idle = 0x00000002 ∧ readReg offStatus (accepted 0x0000A002 0 0x1000 1 []) = 0x00000003 := by
  decide

/-- L2.11.10: a CMD write while BUSY = 1. -/
theorem test_cmd_write_busy :
    hostAccess (.store 0x40000000 4 1) (accepted 0x0000A002 0 0x1000 1 []) = .fault .cmdWriteWhileBusy := by rfl

/-- L2.11.11: a 16-bit access leaves the host stuck. -/
theorem test_narrow_access : (after (hostAccess (.load 0x40000004 2) idle)).hostStuck = true := by decide

/-- The next step runs a command word placed before it (INIT with FREQ = 0 fails, R131). -/
theorem test_fetch_command :
    (after (step (State.reset.withFetchWord 32 0x00000001))).result = 0xFFFFFFFF ∧
      (after (step (State.reset.withFetchWord 32 0x00000001))).busy = false := by decide

/-- The next step runs a micro-operation word placed before it. -/
theorem test_fetch_uop : (after (step (State.reset.withFetchWord 16 0b00000000_011))).trace = Trace.nak := by decide

/-! ### Witnesses: the hypotheses of the statements can be met

Each names its statement. `runs` is a state in which the command has been accepted and the schedule is `turns`. -/

/-- The command is accepted and the schedule is `ts`. -/
def runs (w freq buf count : Word) (answers : List Level) (ts : List Turn) : State :=
  { accepted w freq buf count answers with turns := ts }

/-- Every clause of the invariant but the position's, as a check. -/
def checks (s : State) : Bool :=
  (if s.ready = true then decide (1 ≤ s.tick.toNat) && decide (s.tick.toNat ≤ 250000) else decide (s.tick = 0)) &&
    (s.busy == decide (s.pos ≠ .idle)) &&
    (!s.busy || (decide (s.latch.op = opOf s.cmd) && decide (s.latch.f = cmdFieldsOf s.cmd))) &&
    decide (s.sclO = (expectedLines s).1) && ((expectedLines s).2 == none || (expectedLines s).2 == some s.sdaO) &&
    (decide (s.result.toNat ≤ 0x7FFFFFFF) || decide (0xFFFFFFFB ≤ s.result.toNat)) && Memory.wf s.mem &&
    (s.busy || decide (s.raced = []))

theorem inv_of_checks {s : State} (h : checks s = true) (hp : posOk s) : s.Inv := by
  simp only [checks, Bool.and_eq_true, decide_eq_true_eq, Bool.or_eq_true, beq_iff_eq] at h
  obtain ⟨⟨⟨⟨⟨⟨⟨h1, h2⟩, h3⟩, h4⟩, h5⟩, h6⟩, h7⟩, h8⟩ := h
  refine ⟨?_, ?_, ?_, ⟨h4, ?_⟩, hp, h6, h7, ?_⟩
  · by_cases hr : s.ready = true
    · simpa [hr] using h1
    · simpa [hr] using h1
  · rw [h2]
    simp
  · intro hb
    simpa [hb] using h3
  · intro b hb
    rcases h5 with h5 | h5
    · rw [hb] at h5
      cases h5
    · rw [hb] at h5
      exact (Option.some.inj h5).symm
  · intro hb
    simpa [hb] using h8

theorem idle_inv : idle.Inv := inv_of_checks (by decide) trivial

/-- An accepted command meets the invariant, whatever the schedule. -/
theorem runs_inv (w : Word) (ts : List Turn) : State.Inv (runs w 1000 0x1000 3 [] ts) where
  handle := show 1 ≤ (2 : Word).toNat ∧ (2 : Word).toNat ≤ 250000 by decide
  lifecycle := ⟨fun _ => (by intro h; cases h), fun _ => rfl⟩
  latched := fun _ => ⟨rfl, rfl⟩
  lines := ⟨rfl, fun _ hb => by injection hb⟩
  position := trivial
  result := .inl (Nat.zero_le _)
  memory := rfl
  races := fun h => by cases h

theorem witness_EncodeDecodeRoundTrip :
    decodeUop 0x003 = .ok .nak ∧ decodeUop 0x7FD = .ok (.sendByte 0xFF) ∧
      (0x01 : Byte) ≠ 0 ∧ (0b000 : BitVec 3) ≠ 0b101 ∧ (0b000 : BitVec 3) ≠ 0b111 := by decide

theorem witness_OpSelectsCommand :
    (0xFFFFFFF0 : Word).toNat % 16 = 0 ∧ (0xF1 : Word).toNat % 16 = 1 ∧ (0x2 : Word).toNat % 16 = 2 ∧
      (0x3 : Word).toNat % 16 = 3 ∧ (0x4 : Word).toNat % 16 = 4 ∧ (0x5 : Word).toNat % 16 = 5 ∧
      (0x6 : Word).toNat % 16 = 6 ∧ (0x17 : Word).toNat % 16 = 7 ∧ 8 ≤ (0x8 : Word).toNat % 16 ∧
      8 ≤ (0xFFFFFFFF : Word).toNat % 16 := by decide

theorem witness_HostLoadReturnsRegister : idle.hostStuck = false := rfl

theorem witness_HostStoreEffects : (accepted 0x0000A002 0 0x1000 1 []).hostStuck = false := rfl

theorem witness_CmdWriteAccepted : idle.hostStuck = false ∧ idle.busy = false := by decide

theorem witness_CmdWriteWhileBusyFaults :
    (accepted 0x0000A002 0 0x1000 1 []).hostStuck = false ∧ (accepted 0x0000A002 0 0x1000 1 []).busy = true := by decide

theorem witness_UnadmittedHostAccessSticks :
    (idle.hostStuck = false ∧ 0x00 < 0x20 ∧ (2 ≠ 4 ∨ 0x00 % 4 ≠ 0)) ∧
      (idle.hostStuck = false ∧ 0x1F < 0x20 ∧ (4 ≠ 4 ∨ 0x1F % 4 ≠ 0)) ∧
      ({ idle with hostStuck := true } : State).hostStuck = true := by decide

theorem witness_ResultWrittenOnlyByFinish :
    ∃ s t, s.Inv ∧ resetNext s = false ∧ step s = .next t ∧ t.result ≠ s.result :=
  ⟨runs 0 1000 0x1000 3 [] [.engine], _, runs_inv _ _, rfl, rfl, by decide⟩

theorem witness_HandleWrittenOnlyByInit :
    ∃ s t, s.Inv ∧ resetNext s = false ∧ step s = .next t ∧ s.ready = true ∧ (t.tick ≠ s.tick ∨ t.ready ≠ s.ready) :=
  ⟨runs 1 1000 0x1000 3 [] [.engine], _, runs_inv _ _, rfl, rfl, rfl, by decide⟩

theorem witness_ResetPutsReset :
    (runs 0x0000A002 0 0x1000 1 [] [.reset]).turns = .reset :: [] := rfl

theorem witness_InitSucceeds :
    (fields 0xA0 0x12).reserved = false ∧
      (1 ≤ (accepted 1 1 0 0 []).latch.freq.toNat ∧ (accepted 1 1 0 0 []).latch.freq.toNat ≤ 250000) ∧
      (1 ≤ (accepted 1 250000 0 0 []).latch.freq.toNat ∧ (accepted 1 250000 0 0 []).latch.freq.toNat ≤ 250000) := by
  decide

theorem witness_InitStepOrder :
    (accepted 1 250000 0 0 []).pos = .dispatch ∧ (accepted 1 250000 0 0 []).latch.op = opInit ∧
      (accepted 1 250000 0 0 []).latch.f.reserved = false ∧ 1 ≤ (accepted 1 250000 0 0 []).latch.freq.toNat ∧
      (accepted 1 250000 0 0 []).latch.freq.toNat ≤ 250000 := by decide

theorem witness_InitFailureChangesNothing :
    (CmdFields.reserved { res1 := 0, reg := 0, dev := 0, res0 := 0xF }) = true ∧
      (accepted 1 0 0 0 []).latch.freq = 0 ∧ 250000 < (accepted 1 250001 0 0 []).latch.freq.toNat := by decide

theorem witness_ReservedBitsFinish : (0xF : BitVec 4) ≠ 0 ∧ (0x80 : Byte) ≠ 0 := by decide

theorem witness_ReservedOpFinishes :
    idle.hostStuck = false ∧ idle.busy = false ∧ (0x0000A000 : Word).toNat % 16 = 0 ∧
      6 ≤ (0x0000A006 : Word).toNat % 16 ∧ 6 ≤ (0x0000A00F : Word).toNat % 16 := by decide

theorem witness_ArgumentCheckFails :
    State.reset.ready = false ∧ (accepted 0x0000A002 0 0 1 []).latch.buf = 0 ∧
      (accepted 0x0000A003 0 0x1000 0 []).latch.count = 0 ∧
      (accepted 0x0010A005 0 0x1000 0x80000000 []).latch.count.toNat > 0x7FFFFFFF ∧
      (accepted 0x0000A002 0 0xFFFFFFFF 2 []).latch.buf.toNat +
        (accepted 0x0000A002 0 0xFFFFFFFF 2 []).latch.count.toNat > 2 ^ 32 := by decide

theorem witness_FailedCheckFinishesAtOnce :
    (accepted 0x0000A012 0 0x1000 1 []).pos = .dispatch ∧
      (accepted 0x0000A012 0 0x1000 1 []).latch.f.reserved = true ∧ (accepted 0x0000A000 0 0x1000 1 []).latch.op = 0 ∧
      6 ≤ (accepted 0x0000A006 0 0x1000 1 []).latch.op.toNat ∧
      ((accepted 1 250001 0 0 []).latch.op = opInit ∧ freqLegal (accepted 1 250001 0 0 []).latch.freq = false) ∧
      (isTransaction (accepted 0x0010A005 0 0 1 []).latch.op = true ∧
        argsOk (accepted 0x0010A005 0 0 1 []).ready (accepted 0x0010A005 0 0 1 []).latch.buf
          (accepted 0x0010A005 0 0 1 []).latch.count = false) := by decide

/-- A command over the whole buffer of one byte, at the top of the address space. -/
theorem ready_top (w : Word) (answers : List Level) :
    readyToRun (fields 0xA0 0x10) (accepted w 0 0xFFFFFFFF 1 answers) ∧
      bufferAdmitted (accepted w 0 0xFFFFFFFF 1 answers) :=
  ⟨⟨by decide, rfl, rfl⟩, fun i hi => by
    have : i = 0 := Nat.lt_one_iff.mp hi
    subst this
    rfl⟩

theorem witness_SendSucceeds :
    ∃ f s, readyToRun f s ∧ bufferAdmitted s ∧ ∀ j, j ≤ bytesWanted s → drawAt s j = LOW :=
  ⟨_, accepted 0x0000A002 0 0xFFFFFFFF 1 [LOW, LOW], (ready_top _ _).1, (ready_top _ _).2, by decide⟩

theorem witness_SendDataNoAck_first :
    ∃ f s, readyToRun f s ∧ 0 < bytesWanted s ∧ (∀ i, i ≤ 0 → portAdmits s.plat (s.latch.buf.toNat + i) = true) ∧
      (∀ i, i ≤ 0 → drawAt s i = LOW) ∧ drawAt s 1 = HIGH :=
  ⟨_, accepted 0x0000A002 0 0xFFFFFFFF 1 [LOW, HIGH], (ready_top _ _).1, by decide⟩

theorem witness_SendDataNoAck_last :
    ∃ f s, readyToRun f s ∧ 2 < bytesWanted s ∧ bytesWanted s = 3 ∧
      (∀ i, i ≤ 2 → portAdmits s.plat (s.latch.buf.toNat + i) = true) ∧
      (∀ i, i ≤ 2 → drawAt s i = LOW) ∧ drawAt s 3 = HIGH :=
  ⟨fields 0xA0 0, accepted 0x0000A002 0 0x1000 3 [LOW, LOW, LOW, HIGH], ⟨by decide, by decide, rfl⟩, by decide⟩

theorem witness_AddressNoAck :
    (fields 0xA0 0).reserved = false ∧
      argsOk (accepted 0x0000A002 0 0x1000 1 [HIGH]).ready (accepted 0x0000A002 0 0x1000 1 [HIGH]).latch.buf
        (accepted 0x0000A002 0 0x1000 1 [HIGH]).latch.count = true ∧
      drawAt (accepted 0x0000A002 0 0x1000 1 [HIGH]) 0 = HIGH := by decide

theorem witness_RecvSucceeds : ∃ f s, readyToRun f s ∧ bufferAdmitted s ∧ drawAt s 0 = LOW :=
  ⟨_, accepted 0x0000A003 0 0xFFFFFFFF 1 [LOW], (ready_top _ _).1, (ready_top _ _).2, rfl⟩

theorem witness_MemWriteSucceeds :
    ∃ f s, readyToRun f s ∧ bufferAdmitted s ∧ ∀ j, j ≤ bytesWanted s + 1 → drawAt s j = LOW :=
  ⟨_, accepted 0x0010A004 0 0xFFFFFFFF 1 [LOW, LOW, LOW], (ready_top _ _).1, (ready_top _ _).2, by decide⟩

theorem witness_RegisterNoAck :
    (fields 0xA0 0x10).reserved = false ∧
      argsOk (accepted 0x0010A004 0 0x1000 1 [LOW, HIGH]).ready (accepted 0x0010A004 0 0x1000 1 [LOW, HIGH]).latch.buf
        (accepted 0x0010A004 0 0x1000 1 [LOW, HIGH]).latch.count = true ∧
      drawAt (accepted 0x0010A004 0 0x1000 1 [LOW, HIGH]) 0 = LOW ∧
      drawAt (accepted 0x0010A004 0 0x1000 1 [LOW, HIGH]) 1 = HIGH := by decide

theorem witness_MemWriteDataNoAck_first :
    ∃ f s, readyToRun f s ∧ 0 < bytesWanted s ∧ (∀ i, i ≤ 0 → portAdmits s.plat (s.latch.buf.toNat + i) = true) ∧
      (∀ i, i ≤ 0 + 1 → drawAt s i = LOW) ∧ drawAt s 2 = HIGH :=
  ⟨_, accepted 0x0010A004 0 0xFFFFFFFF 1 [LOW, LOW, HIGH], (ready_top _ _).1, by decide⟩

theorem witness_MemWriteDataNoAck_last :
    ∃ f s, readyToRun f s ∧ 2 < bytesWanted s ∧ bytesWanted s = 3 ∧
      (∀ i, i ≤ 2 → portAdmits s.plat (s.latch.buf.toNat + i) = true) ∧
      (∀ i, i ≤ 2 + 1 → drawAt s i = LOW) ∧ drawAt s 4 = HIGH :=
  ⟨fields 0xA0 0x10, accepted 0x0010A004 0 0x1000 3 [LOW, LOW, LOW, LOW, HIGH], ⟨by decide, by decide, rfl⟩, by decide⟩

theorem witness_MemReadSucceeds :
    ∃ f s, readyToRun f s ∧ bufferAdmitted s ∧ drawAt s 0 = LOW ∧ drawAt s 1 = LOW ∧ drawAt s 2 = LOW :=
  ⟨_, accepted 0x0010A005 0 0xFFFFFFFF 1 [LOW, LOW, LOW], (ready_top _ _).1, (ready_top _ _).2, rfl, rfl, rfl⟩

theorem witness_MemReadShortRead :
    (fields 0xA0 0x10).reserved = false ∧
      argsOk (accepted 0x0010A005 0 0x1000 1 [LOW, LOW, HIGH]).ready
        (accepted 0x0010A005 0 0x1000 1 [LOW, LOW, HIGH]).latch.buf
        (accepted 0x0010A005 0 0x1000 1 [LOW, LOW, HIGH]).latch.count = true ∧
      drawAt (accepted 0x0010A005 0 0x1000 1 [LOW, LOW, HIGH]) 0 = LOW ∧
      drawAt (accepted 0x0010A005 0 0x1000 1 [LOW, LOW, HIGH]) 1 = LOW ∧
      drawAt (accepted 0x0010A005 0 0x1000 1 [LOW, LOW, HIGH]) 2 = HIGH := by decide

/-- Program P2's echo slave, with the byte 0x55 of address 0x1000. -/
theorem witness_EchoSlaveRoundTrip :
    ∃ (f g : CmdFields) (s u : State), g.dev = f.dev ∧ g.reg = f.reg ∧ u.latch.count = s.latch.count ∧
      readyToRun f s ∧ bufferAdmitted s ∧ (∀ j, j ≤ bytesWanted s + 1 → drawAt s j = LOW) ∧
      readyToRun g u ∧ bufferAdmitted u ∧ Memory.wf u.mem = true ∧
      drawAt u 0 = LOW ∧ drawAt u 1 = LOW ∧ drawAt u 2 = LOW ∧
      ∀ i b, i < bytesWanted s → b < 8 →
        drawAt u (3 + 8 * i + b) = (Memory.read s.mem (s.latch.buf.toNat + i)).getLsbD (7 - b) := by
  refine ⟨fields 0xA0 0x10, fields 0xA0 0x10, accepted 0x0010A004 0 0x1000 1 [LOW, LOW, LOW],
    accepted 0x0010A005 0 0xFFFFFFFF 1 ([LOW, LOW, LOW] ++ answersOf 0x55), rfl, rfl, rfl,
    ⟨by decide, by decide, rfl⟩, ?_, by decide, (ready_top _ _).1, (ready_top _ _).2, by decide, rfl, rfl, rfl, ?_⟩
  · intro i hi
    have : i = 0 := Nat.lt_one_iff.mp hi
    subst this
    rfl
  · intro i b hi hb
    have : i = 0 := Nat.lt_one_iff.mp hi
    subst this
    revert hb
    revert b
    decide

theorem witness_TransactionFrame :
    ∃ t, exec (.memRead (fields 0xA0 0x10)) (accepted 0x0010A005 0 0x2000 1 [HIGH]) = .next t := ⟨_, rfl⟩

theorem witness_TransactionMemoryFrame :
    (∃ t, exec (.memWrite (fields 0xA0 0x10)) (accepted 0x0010A004 0 0x1000 1 [LOW, LOW, LOW]) = .next t) ∧
      (∃ t, exec (.recv (fields 0xA0 0)) (accepted 0x0000A003 0 0x1000 2 [LOW]) = .next t) ∧
      ∀ k, k < bytesWanted (accepted 0x0000A003 0 0x1000 2 [LOW]) →
        0x1002 ≠ effAddr (accepted 0x0000A003 0 0x1000 2 [LOW]).latch.buf k :=
  ⟨⟨_, rfl⟩, ⟨_, rfl⟩, by decide⟩

theorem witness_CommandResults :
    ∃ (s t : State), s.busy = true ∧ t.busy = false ∧ exec (.init (fields 0xA0 0x10)) s = .next t :=
  ⟨accepted 1 0 0x1000 1 [HIGH], _, rfl, by rfl, rfl⟩

theorem witness_CommandResults_transactions :
    (∃ t : State, t.busy = false ∧ exec (.send (fields 0xA0 0)) (accepted 0xA002 0 0x1000 1 [HIGH]) = .next t) ∧
      (∃ t : State, t.busy = false ∧ exec (.recv (fields 0xA0 0)) (accepted 0xA003 0 0x1000 1 [HIGH]) = .next t) ∧
      (∃ t : State, t.busy = false ∧ exec (.memWrite (fields 0xA0 0)) (accepted 0xA004 0 0x1000 1 [HIGH]) = .next t) ∧
      ∃ t : State, t.busy = false ∧ exec (.memRead (fields 0xA0 0)) (accepted 0xA005 0 0x1000 1 [HIGH]) = .next t :=
  ⟨⟨_, by rfl, rfl⟩, ⟨_, by rfl, rfl⟩, ⟨_, by rfl, rfl⟩, ⟨_, by rfl, rfl⟩⟩

theorem witness_CommandsRunToFinish : ∃ s, bufferAdmitted s := ⟨_, (ready_top 0x0000A002 []).2⟩

theorem witness_SuccessCounts :
    ∃ f s, readyToRun f s ∧ bufferAdmitted s ∧ (∀ j, j ≤ bytesWanted s → drawAt s j = LOW) ∧ drawAt s 0 = LOW ∧
      (∀ j, j ≤ bytesWanted s + 1 → drawAt s j = LOW) ∧ ∀ j, j ≤ 2 → drawAt s j = LOW :=
  ⟨_, accepted 0x0010A004 0 0xFFFFFFFF 1 [LOW, LOW, LOW], (ready_top _ _).1, (ready_top _ _).2, by decide⟩

theorem witness_FailureCounts_address :
    ∃ f s, readyToRun f s ∧ bufferAdmitted s ∧ drawAt s 0 = HIGH :=
  ⟨_, accepted 0x0010A004 0 0xFFFFFFFF 1 [HIGH], (ready_top _ _).1, (ready_top _ _).2, rfl⟩

/-- The register byte refused; and SEND's first data byte refused, by the same answers. -/
theorem witness_FailureCounts_register :
    ∃ f s, readyToRun f s ∧ bufferAdmitted s ∧ drawAt s 0 = LOW ∧ drawAt s 1 = HIGH ∧
      0 < bytesWanted s ∧ (∀ i, i ≤ 0 → drawAt s i = LOW) ∧ drawAt s (0 + 1) = HIGH :=
  ⟨_, accepted 0x0010A004 0 0xFFFFFFFF 1 [LOW, HIGH], (ready_top _ _).1, (ready_top _ _).2, by decide⟩

/-- MEM_READ's read address refused; and MEM_WRITE's first data byte refused, by the same answers. -/
theorem witness_FailureCounts_read :
    ∃ f s, readyToRun f s ∧ bufferAdmitted s ∧ drawAt s 0 = LOW ∧ drawAt s 1 = LOW ∧ drawAt s 2 = HIGH ∧
      0 < bytesWanted s ∧ (∀ i, i ≤ 0 + 1 → drawAt s i = LOW) ∧ drawAt s (0 + 2) = HIGH :=
  ⟨_, accepted 0x0010A004 0 0xFFFFFFFF 1 [LOW, LOW, HIGH], (ready_top _ _).1, (ready_top _ _).2, by decide⟩

theorem witness_StepRunsDecodedInstruction_command :
    (runs 0x0000A002 0 0x1000 1 [] [.instr]).turns = .instr :: [] ∧
      (runs 0x0000A002 0 0x1000 1 [] [.instr]).pos = .dispatch ∧
      (runs 0x0000A002 0 0x1000 1 [] [.instr]).latch.op = opOf 0x0000A002 ∧
      (runs 0x0000A002 0 0x1000 1 [] [.instr]).latch.f = cmdFieldsOf 0x0000A002 := by decide

/-- The engine at the first step of a micro-operation of a running SEND. -/
def atMicro (w : BitVec 11) (sub k : Nat) (site : CallSite) (s : State) : State :=
  { s with pos := .micro w sub site, k := k }

theorem witness_StepRunsDecodedInstruction_micro :
    (atMicro 0x505 0 7 .addr (runs 0x0000A002 0 0x1000 1 [] [.instr])).turns = .instr :: [] ∧
      (atMicro 0x505 0 7 .addr (runs 0x0000A002 0 0x1000 1 [] [.instr])).pos = .micro 0x505 0 .addr ∧
      decodeUop 0x505 = .ok (.sendByte 0xA0) ∧
      (atMicro 0x505 0 7 .addr (runs 0x0000A002 0 0x1000 1 [] [.instr])).k = topBit (.sendByte 0xA0) := by decide

theorem witness_EngineStepsRefineExec :
    (accepted 0x0000A002 0 0x1000 1 []).pos = .dispatch ∧
      (atMicro (encodeUop .recvByte) 0 7 .recv idle).pos = .micro (encodeUop .recvByte) 0 .recv ∧
      (atMicro (encodeUop .recvByte) 0 7 .recv idle).k = topBit .recvByte := by decide

theorem witness_StepKeepsInvariant : ∃ s t, s.Inv ∧ s.busy = true ∧ step s = .next t :=
  ⟨runs 0x0000A002 1000 0x1000 3 [] [.engine], _, runs_inv _ _, rfl, rfl⟩

theorem witness_OnlyCmdWriteFaults : ∃ s : State, s.Inv ∧ step s = .fault .cmdWriteWhileBusy :=
  ⟨runs 0x0000A002 1000 0x1000 3 [] [.host (.store 0x40000000 4 1)], runs_inv _ _, rfl⟩

theorem witness_IdleLinesHigh : ∃ s t : State, s.Inv ∧ step s = .next t ∧ t.busy = false :=
  ⟨runs 0 1000 0x1000 3 [] [.engine], _, runs_inv _ _, rfl, by rfl⟩

/-- A running command at a position, with the pins as the spec has them there. -/
def standing (w : Word) (pos : Pos) (k i : Nat) (ph : Phase) (scl sda : Level) : State :=
  { runs w 1000 0x1000 3 [] [] with pos := pos, k := k, i := i, phase := ph, sclO := scl, sdaO := sda }

/-- SEND at START's event 4, where the data line falls. -/
def atStart : State := standing 0x0000A002 (.micro 0x000 4 .start) 0 0 .write HIGH HIGH

theorem atStart_inv : atStart.Inv :=
  inv_of_checks (by decide)
    ⟨⟨by decide, by decide, by decide, by decide⟩, rfl, .start, rfl, rfl, by decide, by decide⟩

/-- SEND at the last STOP's event 6, where the data line rises. -/
def atStop : State := standing 0x0000A002 (.micro 0x001 6 (.lastStop 3)) 0 3 .write HIGH LOW

theorem atStop_inv : atStop.Inv :=
  inv_of_checks (by decide)
    ⟨⟨by decide, by decide, by decide, by decide⟩, .inl (by decide), .stop, rfl, rfl, by decide, by decide⟩

/-! Each micro-operation is entered by a step: a state that meets the invariant and its last step before. -/

theorem witness_MicroOpEntryLines_dispatch :
    ∃ s t : State, s.Inv ∧ step s = .next t ∧ t.pos = .dispatch :=
  ⟨{ idle with turns := [.host (.store 0x40000000 4 0x0000A002)] }, _, inv_of_checks (by decide) trivial, rfl, rfl⟩

theorem witness_MicroOpEntryLines_start :
    ∃ s t : State, s.Inv ∧ step s = .next t ∧ t.pos = .micro (encodeUop .start) 0 .start ∧ t.k = topBit .start :=
  ⟨standing 0x0010A005 (.micro 0x001 7 .midStop) 0 0 .write HIGH HIGH, _,
    inv_of_checks (by decide) ⟨⟨by decide, by decide, by decide, by decide⟩, ⟨rfl, rfl, rfl⟩, .stop, rfl, rfl, by decide,
      by decide⟩, by rfl, by rfl, by rfl⟩

theorem witness_MicroOpEntryLines_stop :
    ∃ s t : State, s.Inv ∧ step s = .next t ∧ t.pos = .micro (encodeUop .stop) 0 (.lastStop 3) ∧ t.k = topBit .stop :=
  ⟨standing 0x0000A003 (.micro 0x003 7 .nakSig) 0 2 .read LOW HIGH, _,
    inv_of_checks (by decide) ⟨⟨by decide, by decide, by decide, by decide⟩, ⟨⟨rfl, by decide⟩, by decide⟩, .nak, rfl, rfl, by decide,
      by decide⟩, by rfl, by rfl, by rfl⟩

theorem witness_MicroOpEntryLines_ack :
    ∃ s t : State, s.Inv ∧ step s = .next t ∧ t.pos = .micro (encodeUop .ack) 0 .ackSig ∧ t.k = topBit .ack :=
  ⟨standing 0x0000A003 .memWrite 0 1 .read HIGH LOW, _,
    inv_of_checks (by decide) ⟨⟨by decide, by decide, by decide, by decide⟩, rfl, by decide⟩, by rfl, by rfl, by rfl⟩

theorem witness_MicroOpEntryLines_nak :
    ∃ s t : State, s.Inv ∧ step s = .next t ∧ t.pos = .micro (encodeUop .nak) 0 .nakSig ∧ t.k = topBit .nak :=
  ⟨standing 0x0000A003 .memWrite 0 2 .read HIGH LOW, _,
    inv_of_checks (by decide) ⟨⟨by decide, by decide, by decide, by decide⟩, rfl, by decide⟩, by rfl, by rfl, by rfl⟩

theorem witness_MicroOpEntryLines_waitAck :
    ∃ s t : State, s.Inv ∧ step s = .next t ∧ t.pos = .micro (encodeUop .waitAck) 0 .addrAck ∧ t.k = topBit .waitAck :=
  ⟨standing 0x0000A002 (.micro 0x505 5 .addr) 0 0 .write LOW LOW, _,
    inv_of_checks (by decide) ⟨⟨by decide, by decide, by decide, by decide⟩, rfl, .sendByte 0xA0, rfl, rfl, by decide,
      by decide⟩, by rfl, by rfl, by rfl⟩

theorem witness_MicroOpEntryLines_sendByte :
    ∃ s t : State, s.Inv ∧ step s = .next t ∧ t.pos = .micro (encodeUop (.sendByte 0xA0)) 0 .addr ∧ t.k = topBit (.sendByte 0xA0) :=
  ⟨standing 0x0000A002 (.micro 0x000 7 .start) 0 0 .write LOW LOW, _,
    inv_of_checks (by decide) ⟨⟨by decide, by decide, by decide, by decide⟩, rfl, .start, rfl, rfl, by decide,
      by decide⟩, by rfl, by rfl, by rfl⟩

/-- RECV at the last event of its address handshake, acknowledged. -/
def afterAddrAck : State :=
  { standing 0x0000A003 (.micro 0x004 7 .addrAck) 0 0 .read LOW HIGH with ack := .acknowledged }

theorem afterAddrAck_inv : afterAddrAck.Inv :=
  inv_of_checks (by decide) ⟨⟨by decide, by decide, by decide, by decide⟩, rfl, .waitAck, rfl, rfl, by decide,
      by decide⟩

/-- RECV at the last event of the ACK after its first byte. -/
def afterFirstAck : State := standing 0x0000A003 (.micro 0x002 7 .ackSig) 0 0 .read LOW LOW

theorem afterFirstAck_inv : afterFirstAck.Inv :=
  inv_of_checks (by decide) ⟨⟨by decide, by decide, by decide, by decide⟩, ⟨⟨rfl, by decide⟩, by decide⟩, .ack, rfl, rfl, by decide,
      by decide⟩

theorem witness_MicroOpEntryLines_recvByte :
    ∃ s t : State, s.Inv ∧ step s = .next t ∧ t.pos = .micro (encodeUop .recvByte) 0 .recv ∧ t.k = topBit .recvByte :=
  ⟨afterAddrAck, _, afterAddrAck_inv, by rfl, by rfl, by rfl⟩

theorem witness_DataLineDuringReceive_first :
    ∃ s t : State, s.Inv ∧ step s = .next t ∧ t.pos = .micro (encodeUop .recvByte) 0 .recv ∧ t.i = 0 :=
  ⟨afterAddrAck, _, afterAddrAck_inv, by rfl, by rfl, by rfl⟩

theorem witness_DataLineDuringReceive_later :
    ∃ s t : State, s.Inv ∧ step s = .next t ∧ t.pos = .micro (encodeUop .recvByte) 0 .recv ∧ 0 < t.i :=
  ⟨afterFirstAck, _, afterFirstAck_inv, by rfl, by rfl, by decide⟩

theorem witness_DataEdgesUnderHighClock_start :
    ∃ s t : State, s.Inv ∧ engineStep s = .next t ∧ s.sclO = HIGH ∧ t.sclO = HIGH ∧ t.sdaO ≠ s.sdaO :=
  ⟨atStart, _, atStart_inv, rfl, rfl, by rfl, by decide⟩

theorem witness_DataEdgesUnderHighClock_stop :
    ∃ s t : State, s.Inv ∧ engineStep s = .next t ∧ s.sclO = HIGH ∧ t.sclO = HIGH ∧ t.sdaO ≠ s.sdaO :=
  ⟨atStop, _, atStop_inv, rfl, rfl, by rfl, by decide⟩

theorem witness_PinsFollowTrace :
    ∃ s t : State, resetNext s = false ∧ step s = .next t ∧ t.trace ≠ s.trace :=
  ⟨atStart, _, rfl, rfl, by decide⟩

theorem witness_EngineStepOneEvent : ∃ s t : State, s.Inv ∧ engineStep s = .next t ∧ t.trace ≠ s.trace :=
  ⟨atStart, _, atStart_inv, rfl, by decide⟩

/-- SEND about to read its last byte. -/
def atRead : State := standing 0x0000A002 .memRead 0 2 .write LOW HIGH

/-- RECV about to write its first byte. -/
def atWrite : State := { standing 0x0000A003 .memWrite 0 0 .read HIGH HIGH with acc := 0x5A }

theorem witness_AccessesInsideBuffer_read :
    ∃ t, atRead.Inv ∧ engineStep atRead = .next t ∧ t.trace = atRead.trace ++ [.memRead 0x1002 0x77] :=
  ⟨_, inv_of_checks (by decide) ⟨⟨by decide, by decide, by decide, by decide⟩, rfl, by decide, by decide⟩, rfl,
    by decide⟩

theorem witness_AccessesInsideBuffer_write :
    ∃ t, atWrite.Inv ∧ engineStep atWrite = .next t ∧ t.trace = atWrite.trace ++ [.memWrite 0x1000 0x5A] :=
  ⟨_, inv_of_checks (by decide) ⟨⟨by decide, by decide, by decide, by decide⟩, rfl, by decide⟩, rfl, by decide⟩

/-- `atRead` on a platform whose memory port admits only addresses 0x1000 and 0x1001. -/
def atStuckRead : State :=
  { atRead with plat := { atRead.plat with admits := [{ base := 0x1000, size := 2 }] } }

/-- `atWrite` on a platform whose memory port admits nothing. -/
def atStuckWrite : State := { atWrite with plat := { atWrite.plat with admits := [] } }

theorem witness_EngineStuckOrIdle :
    (∃ s : State, s.pos = .memRead ∧ portAdmits s.plat (effAddr s.latch.buf s.i) = false) ∧
      (∃ s : State, s.pos = .memWrite ∧ portAdmits s.plat (effAddr s.latch.buf s.i) = false) ∧ idle.pos = .idle :=
  ⟨⟨atStuckRead, rfl, by decide⟩, ⟨atStuckWrite, rfl, by decide⟩, rfl⟩

/-- The alternatives with no event: an idle and a stuck engine, INIT's configuration step, a `finish`. -/
theorem witness_EngineStepOneEvent_none :
    (idle.Inv ∧ engineStep idle = .next idle) ∧ (atStuckRead.Inv ∧ engineStep atStuckRead = .next atStuckRead) ∧
      (∃ t, (runs 1 1000 0x1000 3 [] []).Inv ∧ engineStep (runs 1 1000 0x1000 3 [] []) = .next t ∧ t.pos = .initSCL) ∧
      ∃ t, (runs 0 1000 0x1000 3 [] []).Inv ∧ engineStep (runs 0 1000 0x1000 3 [] []) = .next t ∧ t.busy = false :=
  ⟨⟨idle_inv, rfl⟩,
    ⟨inv_of_checks (by decide) ⟨⟨by decide, by decide, by decide, by decide⟩, rfl, by decide, by decide⟩, by rfl⟩,
    ⟨_, runs_inv _ _, rfl, by rfl⟩, ⟨_, runs_inv _ _, rfl, by rfl⟩⟩

theorem witness_RacedReadOldOrNew :
    Memory.wf atRead.mem = true ∧ activeByte atRead 0x1002 = true ∧ racedValues 0x1002 atRead = [] := by decide

/-- RECV of three bytes at 0x1000 with the first byte stored, ACK sent, and the answers 0x12 and 0x34 to come. -/
def afterFirstByte : State :=
  { afterFirstAck with
    sdaIn := answersOf 0x12 ++ answersOf 0x34, mem := [(0x1000, 0x5A), (0x1001, 0x66)], raced := [(0x1000, 0x55)] }

/-- A byte outside the buffer; a byte already received; and a byte not yet received (R88). -/
theorem witness_HostLoadOldOrNew :
    (activeByte afterFirstByte 0x2000 && isReceive afterFirstByte.latch.op) = false ∧
      0x1000 < effAddr afterFirstByte.latch.buf (bytesReceived afterFirstByte) ∧
      effAddr afterFirstByte.latch.buf (bytesReceived afterFirstByte) ≤ 0x1001 := by decide

/-- R88: a received byte shows its old value beside the current one; a byte to come, the byte its draws make. -/
theorem test_race_values :
    otherValues 0x1000 afterFirstByte = [0x55] ∧ otherValues 0x1001 afterFirstByte = [0x12] ∧
      otherValues 0x1002 afterFirstByte = [0x34] := by decide +kernel

/-- R88 with R211 and R81: where the address is refused, or the port admits nothing, there is no new value. -/
theorem test_race_no_new_value :
    otherValues 0x2000 (accepted 0x0000A003 0 0x2000 2 [HIGH]) = [] ∧ otherValues 0x1001 atStuckWrite = [] ∧
      otherValues 0x2000 { accepted 0x0000A003 0 0x2000 2 [LOW] with ready := false } = [] := by decide +kernel

theorem witness_HostLeavesEngineAlone_busy :
    ∃ (s t : State), s.turns = .host .poll :: [] ∧ step s = .next t ∧ s.busy = true :=
  ⟨runs 0x0000A002 0 0x1000 1 [] [.host .poll], _, rfl, rfl, rfl⟩

/-- An idle block and a host byte store, which is no CMD write. -/
theorem witness_HostLeavesEngineAlone_store :
    ∃ (s t : State), s.turns = .host (.memStore 0xFFFFFFFF 0xAB) :: [] ∧ step s = .next t ∧ s.busy = false ∧
      (∀ w, HostAct.memStore 0xFFFFFFFF 0xAB ≠ .store s.plat.base 4 w) ∧ s.hostStuck = false ∧
      inWindow s 0xFFFFFFFF = false ∧ Memory.wf s.mem = true :=
  ⟨{ idle with turns := [.host (.memStore 0xFFFFFFFF 0xAB)] }, _, rfl, rfl, rfl, fun _ => by simp, rfl,
    by decide, by decide⟩

/-- A byte store into the window, which is not admitted; and a load. -/
theorem witness_HostLeavesEngineAlone_other :
    (∃ (s t : State), s.turns = .host (.memStore 0x4000001F 0xAB) :: [] ∧ step s = .next t ∧
      ∀ a v, HostAct.memStore 0x4000001F 0xAB = .memStore a v → s.hostStuck = true ∨ inWindow s a = true) ∧
      ∃ (s t : State), s.turns = .host (.memLoad 0x1000) :: [] ∧ step s = .next t ∧
        ∀ a v, HostAct.memLoad 0x1000 = .memStore a v → s.hostStuck = true ∨ inWindow s a = true :=
  ⟨⟨{ idle with turns := [.host (.memStore 0x4000001F 0xAB)] }, _, rfl, rfl, fun _ _ h => by
      cases h
      exact .inr (by decide)⟩,
    ⟨{ idle with turns := [.host (.memLoad 0x1000)] }, _, rfl, rfl, fun _ _ h => by cases h⟩⟩

/-- R300: a run whose host program still has accesses to make has not ended, and neither has one that faulted. -/
theorem test_endedWell :
    endedWell (.next idle) = true ∧ endedWell (.next { idle with turns := [.host .poll] }) = false ∧
      endedWell (.next (accepted 0x0000A002 0 0x1000 1 [])) = false ∧ endedWell (.fault .cmdWriteWhileBusy) = false := by
  decide

theorem witness_BootSequence :
    ∃ (s : State) (f : Word), s.busy = false ∧ s.pos = .idle ∧ s.hostStuck = false ∧ 1 ≤ f.toNat ∧
      f.toNat ≤ 250000 ∧ s.turns = pseudoInit s.plat.base f :=
  ⟨{ State.reset with turns := pseudoInit 0x40000000 250000 }, 250000, rfl, rfl, rfl, by decide, by decide, rfl⟩

end Sys2Proof.Tests
end

namespace Sys2Proof.Machine

/-! ## What one step of the machine can be (spec/10_state.md R50, spec/20_memory.md R84) -/

/-- A reset turn answers the reset block, whatever the state was (R54, R280). -/
theorem step_reset {s : State} {rest : List Turn} (h : s.turns = .reset :: rest) :
    step s = .next (resetBlock { s with turns := rest }) := by
  simp only [step, h]

/-- The next turn, if there is one, is taken off the schedule. -/
def takeTurn (s : State) : State := { s with turns := s.turns.tail }

/-- Every step is one agent's move: an engine step, a whole instruction, a host access or a reset (R84). -/
theorem step_cases {s t : State} (h : step s = .next t) :
    ((s.turns.head? = none ∨ s.turns.head? = some .engine) ∧ engineStep (takeTurn s) = .next t) ∨
      (s.turns.head? = some .instr ∧ instrStep (takeTurn s) = .next t) ∨
      (∃ act, s.turns.head? = some (.host act) ∧ hostStep act (takeTurn s) = .next t) ∨
      (s.turns.head? = some .reset ∧ t = resetBlock (takeTurn s)) := by
  cases ht : s.turns with
  | nil =>
    have hs : takeTurn s = s := by cases s; cases ht; rfl
    simp only [step, ht] at h
    exact .inl ⟨.inl rfl, by rwa [hs]⟩
  | cons turn rest =>
    have hs : { s with turns := rest } = takeTurn s := by rw [takeTurn, ht]; rfl
    cases turn <;> simp only [step, ht, hs] at h
    case host act => exact .inr (.inr (.inl ⟨act, rfl, h⟩))
    case engine => exact .inl ⟨.inr rfl, h⟩
    case instr => exact .inr (.inl ⟨rfl, h⟩)
    case reset =>
      injection h with h
      exact .inr (.inr (.inr ⟨rfl, h.symm⟩))

/-- The procedure an OP value selects (R101, R103). -/
def procOf (op : BitVec 4) (f : CmdFields) : State → Flow :=
  if op = opInit then initProc
  else if op = opSend then sendProc f
  else if op = opRecv then recvProc f
  else if op = opMemWrite then memWriteProc f
  else if op = opMemRead then memReadProc f
  else reservedProc

/-- Every command runs its OP's procedure under the dispatcher (R253). -/
theorem exec_decodeOp (op : BitVec 4) (f : CmdFields) (s : State) :
    exec (decodeOp op f) s = .next (dispatchCommand f (procOf op f) s) := by
  unfold decodeOp
  split_ifs with h0 h1 h2 h3 h4 h5 h6
  · subst h0; rfl
  · subst h1; rfl
  · subst h2; rfl
  · subst h3; rfl
  · subst h4; rfl
  · subst h5; rfl
  all_goals
    simp only [procOf, opInit, opSend, opRecv, opMemWrite, opMemRead, h1, h2, h3, h4, h5, if_false]
    rfl

/-- The engine stands at an instruction only where a command has just been accepted or a micro-operation has not
begun. -/
theorem fetch_ok {s : State} {i : Instr} (h : fetch s = some (.ok i)) :
    (s.pos = .dispatch ∧ i = decodeOp s.latch.op s.latch.f) ∨
      ∃ w site u, s.pos = .micro w 0 site ∧ decodeUop w = .ok u ∧ s.k = topBit u ∧ i = u.toInstr := by
  cases hp : s.pos with
  | dispatch =>
    simp only [fetch, hp, Option.some.injEq, Except.ok.injEq] at h
    exact .inl ⟨rfl, h.symm⟩
  | micro w sub site =>
    right
    cases sub with
    | zero =>
      simp only [fetch, hp] at h
      split at h
      next u hu =>
        split_ifs at h with hk
        simp only [Option.some.injEq, Except.ok.injEq] at h
        exact ⟨w, site, u, rfl, hu, hk, h.symm⟩
      next => cases h
    | succ n =>
      simp only [fetch, hp] at h
      cases h
  | _ =>
    simp only [fetch, hp] at h
    cases h

/-- An instruction turn is one engine step, a whole command under the dispatcher, or a whole micro-operation and the
return to its caller. -/
theorem instrStep_cases {s t : State} (h : instrStep s = .next t) :
    engineStep s = .next t ∨
      (s.pos = .dispatch ∧ t = dispatchCommand s.latch.f (procOf s.latch.op s.latch.f) s) ∨
      ∃ w site u v, s.pos = .micro w 0 site ∧ decodeUop w = .ok u ∧ s.k = topBit u ∧
        exec u.toInstr s = .next v ∧ t = advance site v := by
  match hf : fetch s with
  | none =>
    simp only [instrStep, hf] at h
    exact .inl h
  | some (.error _) =>
    simp only [instrStep, hf] at h
    cases h
  | some (.ok i) =>
    obtain ⟨v, hv⟩ := exec_next i s
    simp only [instrStep, hf, hv, Host.Outcome.next.injEq] at h
    subst h
    obtain ⟨hp, rfl⟩ | ⟨w, site, u, hp, hu, hk, rfl⟩ := fetch_ok hf
    · rw [exec_decodeOp] at hv
      injection hv with hv
      exact .inr (.inl ⟨hp, by rw [hp, hv]; rfl⟩)
    · exact .inr (.inr ⟨w, site, u, v, hp, hu, hk, hv, by rw [hp]; rfl⟩)

/-! ## Who writes BUSY (spec/60_exceptions.md R252): acceptance sets it, `finish` and a reset clear it -/

/-- `MemRead` appends its event and may count a race; it changes nothing else (R84, R88). -/
theorem memReadByte_state (a : Nat) (s : State) :
    ∃ n e, (memReadByte a s).2 = { s with races := n, trace := s.trace ++ [e] } := by
  obtain ⟨n, hn⟩ := resolveRace_state (Memory.read s.mem a) (racedValues a s) s
  refine ⟨n, .memRead a (memReadByte a s).1, ?_⟩
  simp only [memReadByte, hn, emit]

theorem memReadByte_busy (a : Nat) (s : State) : (memReadByte a s).2.busy = s.busy := by
  obtain ⟨n, e, h⟩ := memReadByte_state a s
  rw [h]

/-- Nothing a transaction does writes BUSY. -/
theorem recvClosed_busy (b : Bool) : RecvClosed (fun s => s.busy = b) where
  start s h := by rwa [busStart_eq]
  stop s h := by rwa [busStop_eq]
  byte v s h := by rwa [busWaitAck_eq, busSendByte_eq]
  read a s h := by rwa [memReadByte_busy]
  stuck _ _ _ _ h := h
  recv s h := by rwa [busRecvByte_eq]
  write _ _ h _ _ := h
  ack s h := by rwa [busAck_eq]
  nak s h := by rwa [busNak_eq]

theorem initProc_busy (s : State) : (initProc s).state.busy = s.busy := by
  unfold initProc
  split <;> rfl

/-- No command's procedure writes BUSY. -/
theorem procOf_busy (op : BitVec 4) (f : CmdFields) (s : State) : (procOf op f s).state.busy = s.busy := by
  have hc := recvClosed_busy s.busy
  unfold procOf
  split_ifs
  · exact initProc_busy s
  · exact hc.sendProc f s rfl
  · exact hc.recvProc f s rfl
  · exact hc.memWriteProc f s rfl
  · exact hc.memReadProc f s rfl
  · rfl

/-- A micro-operation run whole does not write BUSY. -/
theorem exec_microOp_busy {u : MicroOp} {s t : State} (h : exec u.toInstr s = .next t) : t.busy = s.busy := by
  have hc := recvClosed_busy s.busy
  cases u <;> injection h with h <;> subst h
  case start => exact hc.start s rfl
  case stop => exact hc.stop s rfl
  case ack => exact hc.ack s rfl
  case nak => exact hc.nak s rfl
  case waitAck => rw [busWaitAck_eq]; rfl
  case sendByte v => rw [busSendByte_eq]
  case recvByte => exact hc.recv s rfl

theorem Prim.run_busy (p : Prim) (s : State) : (p.run s).busy = s.busy := by
  cases p <;> rfl

theorem clearAccAtEntry_busy (u : MicroOp) (sub : Nat) (s : State) :
    (clearAccAtEntry u sub s).busy = s.busy := by
  unfold clearAccAtEntry
  split <;> rfl

theorem nextMicro_busy (u : MicroOp) (w : BitVec 11) (sub : Nat) (site : CallSite) (s : State) :
    (nextMicro u w sub site s).busy = s.busy := by
  unfold nextMicro
  split_ifs
  · rfl
  · rfl
  · exact (SameButControl.advance site s).busy

theorem microStep_busy (u : MicroOp) (w : BitVec 11) (sub : Nat) (site : CallSite) (s : State) :
    (microStep u w sub site s).busy = s.busy := by
  unfold microStep
  split
  · rw [nextMicro_busy, Prim.run_busy, clearAccAtEntry_busy]
  · rfl

theorem bufferReadStep_busy (s : State) : (bufferReadStep s).busy = s.busy := by
  unfold bufferReadStep
  split
  · exact memReadByte_busy _ s
  · rfl

theorem bufferWriteStep_busy (s : State) : (bufferWriteStep s).busy = s.busy := by
  unfold bufferWriteStep
  dsimp only
  split_ifs <;> rfl

/-- Of the steps at a position only `finish` writes BUSY. -/
theorem positionStep_busy {s t : State} (h : positionStep s = .next t) :
    t.busy = s.busy ∨ ∃ ret, s.pos = .finish ret ∧ t = finishCommand ret s := by
  cases hp : s.pos with
  | micro w sub site =>
    simp only [positionStep, hp] at h
    split at h
    · injection h with h
      exact .inl (h ▸ microStep_busy _ w sub site s)
    · cases h
  | memRead =>
    simp only [positionStep, hp, Host.Outcome.next.injEq] at h
    exact .inl (h ▸ bufferReadStep_busy s)
  | memWrite =>
    simp only [positionStep, hp, Host.Outcome.next.injEq] at h
    exact .inl (h ▸ bufferWriteStep_busy s)
  | finish ret =>
    simp only [positionStep, hp, Host.Outcome.next.injEq] at h
    exact .inr ⟨ret, rfl, h.symm⟩
  | idle | dispatch | initConfig | initSCL | initSDA =>
    simp only [positionStep, hp, Host.Outcome.next.injEq] at h
    exact .inl (h ▸ rfl)

/-! ## What a host access leaves alone (spec/10_state.md R41) -/

/-- A register store starts a command, or changes FREQ, BUF or COUNT at most (R32, R41). -/
theorem writeReg_cases {off v : Word} {s t : State} (h : writeReg off v s = .next t) :
    (s.busy = false ∧ t = acceptCommand v s) ∨ ∃ f b c, t = { s with freq := f, buf := b, count := c } := by
  unfold writeReg at h
  split_ifs at h with _ hb <;> injection h with h
  · exact .inl ⟨by simpa using hb, h.symm⟩
  · exact .inr ⟨v, s.buf, s.count, h.symm⟩
  · exact .inr ⟨s.freq, v, s.count, h.symm⟩
  · exact .inr ⟨s.freq, s.buf, v, h.symm⟩
  · exact .inr ⟨s.freq, s.buf, s.count, h.symm⟩

/-- A host store of a byte changes memory and the list of races at most. -/
theorem hostStoreByte_state (a : Nat) (v : Byte) (s : State) :
    ∃ m rc, hostStoreByte a v s = { s with mem := m, raced := rc } := by
  unfold hostStoreByte
  dsimp only
  split
  · exact ⟨_, _, rfl⟩
  · exact ⟨_, s.raced, rfl⟩

/-- A host load of a byte changes what the host has read and the count of races at most. -/
theorem hostLoadByte_state (a : Nat) (s : State) :
    ∃ n rd, hostLoadByte a s = { s with races := n, reads := rd } := by
  obtain ⟨n, hn⟩ := resolveRace_state (Memory.read s.mem a) (otherValues a s) s
  exact ⟨n, _, by simp only [hostLoadByte, hn, hostSees]; rfl⟩

/-- The lines are as they were, and BUSY is as it was or set. -/
structure KeepsLines (s t : State) : Prop where
  sclO : t.sclO = s.sclO
  sdaO : t.sdaO = s.sdaO
  busy : t.busy = s.busy ∨ t.busy = true

/-- A host access moves no line, and does not clear BUSY (R46, R252). -/
theorem hostAccess_keepsLines {act : HostAct} {s t : State} (h : hostAccess act s = .next t) : KeepsLines s t := by
  cases act with
  | store a width v =>
    simp only [hostAccess] at h
    split at h
    · obtain ⟨-, rfl⟩ | ⟨f, b, c, rfl⟩ := writeReg_cases h
      · exact ⟨rfl, rfl, .inr rfl⟩
      · exact ⟨rfl, rfl, .inl rfl⟩
    · injection h with h
      subst h
      exact ⟨rfl, rfl, .inl rfl⟩
  | load a width =>
    simp only [hostAccess] at h
    split at h <;> injection h with h <;> subst h <;> exact ⟨rfl, rfl, .inl rfl⟩
  | memStore a v =>
    simp only [hostAccess, Host.Outcome.next.injEq] at h
    subst h
    split
    · exact ⟨rfl, rfl, .inl rfl⟩
    · obtain ⟨m, rc, hs⟩ := hostStoreByte_state a.toNat v s
      rw [hs]
      exact ⟨rfl, rfl, .inl rfl⟩
  | memLoad a =>
    simp only [hostAccess, Host.Outcome.next.injEq] at h
    subst h
    split
    · exact ⟨rfl, rfl, .inl rfl⟩
    · obtain ⟨n, rd, hs⟩ := hostLoadByte_state a.toNat s
      rw [hs]
      exact ⟨rfl, rfl, .inl rfl⟩
  | poll =>
    simp only [hostAccess, Host.Outcome.next.injEq] at h
    subst h
    split <;> exact ⟨rfl, rfl, .inl rfl⟩

theorem hostStep_keepsLines {act : HostAct} {s t : State} (h : hostStep act s = .next t) : KeepsLines s t := by
  unfold hostStep at h
  split at h
  · injection h with h
    subst h
    exact ⟨rfl, rfl, .inl rfl⟩
  · exact hostAccess_keepsLines h

/-! ## Lines HIGH while BUSY = 0 (spec/10_state.md R47) -/

/-- Both lines are HIGH. -/
def LinesHigh (s : State) : Prop := s.sclO = HIGH ∧ s.sdaO = HIGH

/-- R47 of one state. -/
def IdleHigh (s : State) : Prop := s.busy = false → LinesHigh s

/-- R47 says nothing of a running command. -/
theorem IdleHigh.of_busy {s : State} (h : s.busy = true) : IdleHigh s := by
  intro hb
  rw [h] at hb
  cases hb

/-- The schedule is no part of the invariant. -/
theorem State.Inv.takeTurn {s : State} (h : s.Inv) : (takeTurn s).Inv :=
  ⟨h.handle, h.lifecycle, h.latched, h.lines, h.position, h.result, h.memory, h.races⟩

/-- Where R159 gives both lines HIGH, they are. -/
theorem State.Inv.linesHigh {s : State} (h : s.Inv) (he : expectedLines s = (HIGH, some HIGH)) : LinesHigh s := by
  obtain ⟨hscl, hsda⟩ := h.lines
  rw [he] at hscl hsda
  exact ⟨hscl, hsda HIGH rfl⟩

theorem State.Inv.linesHigh_dispatch {s : State} (h : s.Inv) (hp : s.pos = .dispatch) : LinesHigh s :=
  h.linesHigh (by simp only [expectedLines, hp])

theorem State.Inv.linesHigh_finish {s : State} {ret : Word} (h : s.Inv) (hp : s.pos = .finish ret) : LinesHigh s :=
  h.linesHigh (by simp only [expectedLines, hp])

theorem State.Inv.idleHigh {s : State} (h : s.Inv) : IdleHigh s := by
  intro hb
  have hp : s.pos = .idle := by
    by_contra hne
    rw [h.lifecycle.mpr hne] at hb
    cases hb
  exact h.linesHigh (by simp only [expectedLines, hp])

/-- A host access keeps R47. -/
theorem KeepsLines.idleHigh {s t : State} (h : KeepsLines s t) (hs : IdleHigh s) : IdleHigh t := by
  obtain hst | hst := h.busy
  · intro hb
    obtain ⟨hscl, hsda⟩ := hs (hst ▸ hb)
    exact ⟨h.sclO.trans hscl, h.sdaO.trans hsda⟩
  · exact .of_busy hst

/-! ### Whole commands: every procedure that returns leaves both lines HIGH -/

/-- A procedure that returns, returns with both lines HIGH. -/
def Flow.EndsHigh : Flow → Prop
  | .ret _ s => LinesHigh s
  | .stuck _ => True

theorem busStop_linesHigh (s : State) : LinesHigh (busStop s) := by
  rw [busStop_eq]
  exact ⟨rfl, rfl⟩

/-- The abort of a failed handshake ends with its STOP (R255). -/
theorem handshake_endsHigh {v : Byte} {code : Word} {rest : State → Flow} (hr : ∀ t, (rest t).EndsHigh) (s : State) :
    (handshake v code rest s).EndsHigh := by
  unfold handshake
  dsimp only
  split
  · exact busStop_linesHigh _
  · exact hr _

theorem sendLoop_endsHigh (n i : Nat) (s : State) : (sendLoop n i s).EndsHigh := by
  induction n generalizing i s with
  | zero => exact busStop_linesHigh s
  | succ n ih =>
    rw [sendLoop]
    split
    · exact handshake_endsHigh (ih (i + 1)) _
    · trivial

theorem recvLoop_endsHigh (n i : Nat) (s : State) : (recvLoop n i s).EndsHigh := by
  induction n generalizing i s with
  | zero => exact busStop_linesHigh s
  | succ n ih =>
    rw [recvLoop]
    dsimp only
    split
    · exact ih (i + 1) _
    · trivial

/-- A failing CHECK_ARGS leaves the lines as they are (R201). -/
theorem checked_endsHigh {body : State → Flow} {s : State} (hs : LinesHigh s) (hb : (body s).EndsHigh) :
    (checked body s).EndsHigh := by
  unfold checked
  split
  · exact hb
  · exact hs

theorem recvProc_endsHigh (f : CmdFields) {s : State} (hs : LinesHigh s) : (recvProc f s).EndsHigh :=
  checked_endsHigh hs (handshake_endsHigh (recvLoop_endsHigh _ 0) _)

theorem afterDelegated_endsHigh {x : Flow} (hx : x.EndsHigh) : (afterDelegated x).EndsHigh := by
  cases x <;> exact hx

theorem initProc_endsHigh {s : State} (hs : LinesHigh s) : (initProc s).EndsHigh := by
  unfold initProc
  split
  · exact ⟨rfl, rfl⟩
  · exact hs

/-- A command's procedure entered with both lines HIGH returns with both lines HIGH. -/
theorem procOf_endsHigh (op : BitVec 4) (f : CmdFields) {s : State} (hs : LinesHigh s) :
    (procOf op f s).EndsHigh := by
  unfold procOf
  split_ifs
  · exact initProc_endsHigh hs
  · exact checked_endsHigh hs (handshake_endsHigh (sendLoop_endsHigh _ 0) _)
  · exact recvProc_endsHigh f hs
  · exact checked_endsHigh hs (handshake_endsHigh (handshake_endsHigh (sendLoop_endsHigh _ 0)) _)
  · exact checked_endsHigh hs (handshake_endsHigh (handshake_endsHigh fun t =>
      afterDelegated_endsHigh (recvProc_endsHigh f (busStop_linesHigh t))) _)
  · exact hs

/-- A command run whole from its acceptance meets R47: it has finished with both lines HIGH, or is stuck with
BUSY = 1 (R81). -/
theorem dispatchCommand_idleHigh (op : BitVec 4) (f : CmdFields) {s : State} (hs : LinesHigh s) (hb : s.busy = true) :
    IdleHigh (dispatchCommand f (procOf op f) s) := by
  have hbusy := procOf_busy op f s
  have hhigh := procOf_endsHigh op f hs
  unfold dispatchCommand
  split
  · exact fun _ => hs
  · cases hx : procOf op f s with
    | ret res t =>
      rw [hx] at hhigh
      exact fun _ => hhigh
    | stuck t =>
      rw [hx] at hbusy
      exact .of_busy (hbusy.trans hb)

/-! ### Steps -/

/-- A step at a position of a running command keeps R47, if the lines are HIGH where it is `finish` (R252). -/
theorem positionStep_idleHigh {s t : State} (h : positionStep s = .next t) (hb : s.busy = true)
    (hf : ∀ ret, s.pos = .finish ret → LinesHigh s) : IdleHigh t := by
  obtain hst | ⟨ret, hp, rfl⟩ := positionStep_busy h
  · exact .of_busy (hst.trans hb)
  · exact fun _ => hf ret hp

theorem engineStep_idleHigh {s t : State} (hi : s.Inv) (h : engineStep s = .next t) : IdleHigh t := by
  by_cases hidle : s.pos = .idle
  · simp only [engineStep, hidle, Host.Outcome.next.injEq] at h
    exact h ▸ hi.idleHigh
  · have hb : s.busy = true := hi.lifecycle.mpr hidle
    obtain he | ⟨hp, he⟩ := engineStep_eq s <;> rw [he] at h
    · exact positionStep_idleHigh h hb fun _ hp => hi.linesHigh_finish hp
    · have hc := SameButControl.dispatchPos s
      obtain ⟨hscl, hsda⟩ := hi.linesHigh_dispatch hp
      exact positionStep_idleHigh h (hc.busy.trans hb) fun _ _ => ⟨hc.sclO.trans hscl, hc.sdaO.trans hsda⟩

theorem instrStep_idleHigh {s t : State} (hi : s.Inv) (h : instrStep s = .next t) : IdleHigh t := by
  have hbusy : s.pos ≠ .idle → s.busy = true := hi.lifecycle.mpr
  obtain h | ⟨hp, rfl⟩ | ⟨w, site, u, v, hp, -, -, hv, rfl⟩ := instrStep_cases h
  · exact engineStep_idleHigh hi h
  · exact dispatchCommand_idleHigh _ _ (hi.linesHigh_dispatch hp) (hbusy (by simp [hp]))
  · exact .of_busy <| calc
      (advance site v).busy = v.busy := (SameButControl.advance site v).busy
      _ = s.busy := exec_microOp_busy hv
      _ = true := hbusy (by simp [hp])

/-- Settles O49: BUSY falls only by `finish` and by a reset, and both leave the lines HIGH. -/
theorem idleLinesHigh : Obligations.IdleLinesHigh := by
  intro s t hi h
  obtain ⟨-, h⟩ | ⟨-, h⟩ | ⟨act, -, h⟩ | ⟨-, rfl⟩ := step_cases h
  · exact engineStep_idleHigh hi.takeTurn h
  · exact instrStep_idleHigh hi.takeTurn h
  · exact (hostStep_keepsLines h).idleHigh hi.takeTurn.idleHigh
  · exact fun _ => ⟨rfl, rfl⟩

/-- Settles O14: a reset turn runs `resetBlock`, which puts R56's values. -/
theorem resetPutsReset : Obligations.ResetPutsReset := by
  intro s rest hs
  exact ⟨_, step_reset hs, rfl, rfl, rfl, rfl, rfl, rfl, rfl, rfl, rfl, rfl, rfl, rfl⟩

end Sys2Proof.Machine

namespace Sys2Proof.Machine

/-! ## INIT step by step (spec/40_init.md R131 to R133) -/

theorem freqLegal_iff {f : Word} : freqLegal f = true ↔ 1 ≤ f.toNat ∧ f.toNat ≤ 250000 := by
  have hzero : f ≠ 0 ↔ 1 ≤ f.toNat := by
    rw [Nat.one_le_iff_ne_zero]
    exact not_congr BitVec.toNat_inj.symm
  simp only [freqLegal, Bool.and_eq_true, bne_iff_ne, decide_eq_true_eq, hzero]

/-- R132's formula, with both divisions on natural numbers. -/
theorem tickOf_toNat (f : Word) : (tickOf f).toNat = 1000000 / f.toNat / 4 := by
  simp [tickOf, BitVec.toNat_udiv]

/-- R132: the two divisions are one. -/
theorem tickOf_toNat_eq_div (f : Word) : (tickOf f).toNat = 250000 / f.toNat := by
  rw [tickOf_toNat, Nat.div_div_eq_div_mul, Nat.mul_comm, ← Nat.div_div_eq_div_mul]

/-- R132: TICK of a legal frequency lies in `[1, 250000]`. -/
theorem tickOf_range {f : Word} (h : freqLegal f = true) : 1 ≤ (tickOf f).toNat ∧ (tickOf f).toNat ≤ 250000 := by
  obtain ⟨hpos, hmax⟩ := freqLegal_iff.mp h
  rw [tickOf_toNat_eq_div]
  exact ⟨Nat.div_pos hmax hpos, Nat.div_le_self _ _⟩

/-- INIT with no reserved bit and a legal frequency passes the dispatcher's checks (R131, R253). -/
theorem dispatchPos_init {s : State} (hop : s.latch.op = opInit) (hres : s.latch.f.reserved = false)
    (hf : freqLegal s.latch.freq = true) : dispatchPos s = goto .initConfig s := by
  have hinit : decodeOp s.latch.op s.latch.f = .init s.latch.f := by rw [hop]; rfl
  simp only [dispatchPos, hres, hinit, hf, if_true, Bool.false_eq_true, if_false]

/-- The first step of a legal INIT is its configuration step (R132). -/
theorem engineStep_init {s : State} (hp : s.pos = .dispatch) (hop : s.latch.op = opInit)
    (hres : s.latch.f.reserved = false) (hf : freqLegal s.latch.freq = true) :
    engineStep s = .next (goto .initSCL (initConfigure (goto .initConfig s))) := by
  simp only [engineStep, hp, dispatchPos_init hop hres hf, positionStep, goto_pos]

theorem engineStep_initSCL {s : State} (hp : s.pos = .initSCL) :
    engineStep s = .next (goto .initSDA (setSCL HIGH s)) := by
  simp only [engineStep, positionStep, hp]

theorem engineStep_initSDA {s : State} (hp : s.pos = .initSDA) :
    engineStep s = .next (goto (.finish 0) (setSDA HIGH s)) := by
  simp only [engineStep, positionStep, hp]

theorem engineStep_finish {s : State} {ret : Word} (hp : s.pos = .finish ret) :
    engineStep s = .next (finishCommand ret s) := by
  simp only [engineStep, positionStep, hp]

/-- Settles O17: the four steps are the configuration step, `SetSCL(1)`, `SetSDA(1)` and `finish`, each at the
position the one before it leaves. -/
theorem initStepOrder : Obligations.InitStepOrder := by
  intro s hp hop hres hpos hmax
  have hf : freqLegal s.latch.freq = true := freqLegal_iff.mpr ⟨hpos, hmax⟩
  obtain ⟨htick1, htickMax⟩ := tickOf_range hf
  refine ⟨_, _, _, _, engineStep_init hp hop hres hf, engineStep_initSCL (goto_pos _ _),
    engineStep_initSDA (goto_pos _ _), engineStep_finish (goto_pos _ _), ?_⟩
  have hsda : s.trace ++ [.setSCL true] ++ [.setSDA true] = s.trace ++ [.setSCL true, .setSDA true] :=
    List.append_assoc _ _ _
  exact ⟨tickOf_toNat _, tickOf_toNat_eq_div _, htick1, htickMax, rfl, rfl, rfl, hsda, rfl, rfl, rfl, rfl, rfl⟩

end Sys2Proof.Machine

namespace Sys2Proof.Machine

/-! ## Who sets the data line, and while which clock (spec/42_byte_shift.md R184, spec/41_primitives.md R152) -/

/-- A word that decodes to a micro-operation is that micro-operation's own word (R109). -/
theorem encodeUop_of_decodeUop {w : BitVec 11} {u : MicroOp} (h : decodeUop w = .ok u) : encodeUop u = w := by
  rw [← uopWord_of w]
  simp only [decodeUop] at h
  split_ifs at h with h5 h7 himm h0 h1 h2 h3 h4 <;> injection h with h <;> subst h
  · rw [h5]; rfl
  all_goals rw [not_not.mp himm]
  · rw [h0]; rfl
  · rw [h1]; rfl
  · rw [h2]; rfl
  · rw [h3]; rfl
  · rw [h4]; rfl
  · have h6 : w.extractLsb' 0 3 = 0b110 := by bv_omega
    rw [h6]; rfl

/-- Of the steps of a micro-operation only `SetSDA` writes the data line. -/
theorem Prim.run_sdaO (p : Prim) (s : State) : (p.run s).sdaO = s.sdaO ∨ ∃ b, p = .sda b ∧ (p.run s).sdaO = b := by
  cases p with
  | sda b => exact .inr ⟨b, rfl, rfl⟩
  | scl b => exact .inl rfl
  | delay => exact .inl rfl
  | sampleAck => exact .inl rfl
  | sampleBit => exact .inl rfl

theorem clearAccAtEntry_sdaO (u : MicroOp) (sub : Nat) (s : State) :
    (clearAccAtEntry u sub s).sdaO = s.sdaO := by
  unfold clearAccAtEntry
  split <;> rfl

theorem nextMicro_sdaO (u : MicroOp) (w : BitVec 11) (sub : Nat) (site : CallSite) (s : State) :
    (nextMicro u w sub site s).sdaO = s.sdaO := by
  unfold nextMicro
  split_ifs
  · rfl
  · rfl
  · exact (SameButControl.advance site s).sdaO

/-- A micro-operation's step leaves the data line, or it is a `SetSDA` of its step list. -/
theorem microStep_sdaO (u : MicroOp) (w : BitVec 11) (sub : Nat) (site : CallSite) (s : State) :
    (microStep u w sub site s).sdaO = s.sdaO ∨
      ∃ b, (bitSteps u s.k)[sub]? = some (.sda b) ∧ (microStep u w sub site s).sdaO = b := by
  unfold microStep
  split
  next p hp =>
    rw [nextMicro_sdaO]
    obtain hkeep | ⟨b, rfl, hset⟩ := p.run_sdaO (clearAccAtEntry u sub s)
    · exact .inl (hkeep.trans (clearAccAtEntry_sdaO u sub s))
    · exact .inr ⟨b, hp, hset⟩
  next => exact .inl rfl

theorem bufferReadStep_sdaO (s : State) : (bufferReadStep s).sdaO = s.sdaO := by
  unfold bufferReadStep
  split
  · obtain ⟨n, e, h⟩ := memReadByte_state (effAddr s.latch.buf s.i) s
    simp only [issue_sdaO, h]
  · rfl

theorem bufferWriteStep_sdaO (s : State) : (bufferWriteStep s).sdaO = s.sdaO := by
  unfold bufferWriteStep
  dsimp only
  split_ifs <;> rfl

/-- The engine stands at step `sub` of the micro-operation `u`, and that step is `SetSDA(b)`. -/
def AtSetSDA (u : MicroOp) (sub : Nat) (b : Level) (s : State) : Prop :=
  ∃ site, s.pos = .micro (encodeUop u) sub site ∧ (bitSteps u s.k)[sub]? = some (.sda b)

/-- Of the steps at a position only INIT's `SetSDA(1)` (R133) and a micro-operation's `SetSDA` write the data line. -/
theorem positionStep_sdaO {s t : State} (h : positionStep s = .next t) :
    t.sdaO = s.sdaO ∨ (s.pos = .initSDA ∧ t.sdaO = HIGH) ∨ ∃ u sub, AtSetSDA u sub t.sdaO s := by
  cases hp : s.pos with
  | micro w sub site =>
    simp only [positionStep, hp] at h
    split at h
    next u hu =>
      injection h with h
      subst h
      obtain hkeep | ⟨b, hstep, hset⟩ := microStep_sdaO u w sub site s
      · exact .inl hkeep
      · exact .inr (.inr ⟨u, sub, site, by rw [hp, encodeUop_of_decodeUop hu], by rw [hset]; exact hstep⟩)
    next => cases h
  | memRead =>
    simp only [positionStep, hp, Host.Outcome.next.injEq] at h
    exact .inl (h ▸ bufferReadStep_sdaO s)
  | memWrite =>
    simp only [positionStep, hp, Host.Outcome.next.injEq] at h
    exact .inl (h ▸ bufferWriteStep_sdaO s)
  | initSDA =>
    simp only [positionStep, hp, Host.Outcome.next.injEq] at h
    exact .inr (.inl ⟨rfl, h ▸ rfl⟩)
  | idle | dispatch | initConfig | initSCL | finish ret =>
    simp only [positionStep, hp, Host.Outcome.next.injEq] at h
    exact .inl (h ▸ rfl)

/-- The dispatcher's checks answer INIT's configuration step, `finish`, or a transaction's first call (R253). -/
theorem dispatchPos_cases (s : State) :
    dispatchPos s = goto .initConfig s ∨ (∃ ret, dispatchPos s = goto (.finish ret) s) ∨
      ∃ ph, dispatchPos s = beginTransaction ph s := by
  have henter : ∀ ph, (∃ ret, enterTransaction ph s = goto (.finish ret) s) ∨
      ∃ ph', enterTransaction ph s = beginTransaction ph' s := by
    intro ph
    unfold enterTransaction
    split
    · exact .inr ⟨ph, rfl⟩
    · exact .inl ⟨_, rfl⟩
  unfold dispatchPos
  split
  · exact .inr (.inl ⟨_, rfl⟩)
  · cases decodeOp s.latch.op s.latch.f with
    | init f =>
      dsimp only
      split
      · exact .inl rfl
      · exact .inr (.inl ⟨_, rfl⟩)
    | send f | recv f | memWrite f | memRead f => exact .inr (henter _)
    | _ => exact .inr (.inl ⟨_, rfl⟩)

/-- No command's first step sets the data line: it is INIT's configuration step, `finish`, or START's `SetSCL(1)`. -/
theorem positionStep_dispatchPos_sdaO {s t : State} (h : positionStep (dispatchPos s) = .next t) :
    t.sdaO = s.sdaO := by
  obtain he | ⟨ret, he⟩ | ⟨ph, he⟩ := dispatchPos_cases s <;> rw [he] at h <;>
    exact Host.Outcome.next.inj h ▸ rfl

/-- The same of an engine step: the dispatcher's checks set no line (R253). -/
theorem engineStep_sdaO {s t : State} (h : engineStep s = .next t) :
    t.sdaO = s.sdaO ∨ (s.pos = .initSDA ∧ t.sdaO = HIGH) ∨ ∃ u sub, AtSetSDA u sub t.sdaO s := by
  obtain he | ⟨-, he⟩ := engineStep_eq s <;> rw [he] at h
  · exact positionStep_sdaO h
  · exact .inl (positionStep_dispatchPos_sdaO h)

/-- Every `SetSDA` of the step lists: the clock is LOW by then, or the line has the level already, or it is START's
falling edge or STOP's rising edge (R152, R184). -/
theorem setSDA_highClock {u : MicroOp} {k sub : Nat} {b : Level} (i : Nat)
    (h : (bitSteps u k)[sub]? = some (.sda b)) :
    (linesAfter ((bitSteps u k).take sub) (entryLines u k i)).1 = LOW ∨
      (linesAfter ((bitSteps u k).take sub) (entryLines u k i)).2 = some b ∨
      (u = .start ∧ sub = 4 ∧ b = LOW) ∨ (u = .stop ∧ sub = 6 ∧ b = HIGH) := by
  replace h : (.sda b, sub) ∈ (bitSteps u k).zipIdx := List.mem_zipIdx_iff_getElem?.mpr h
  cases u with
  | start =>
    obtain ⟨rfl, rfl⟩ | ⟨rfl, rfl⟩ : (b = HIGH ∧ sub = 2) ∨ (b = LOW ∧ sub = 4) := by
      simpa [bitSteps, startSteps] using h
    · exact .inr (.inl rfl)
    · exact .inr (.inr (.inl ⟨rfl, rfl, rfl⟩))
  | stop =>
    obtain ⟨rfl, rfl⟩ | ⟨rfl, rfl⟩ : (b = LOW ∧ sub = 2) ∨ (b = HIGH ∧ sub = 6) := by
      simpa [bitSteps, stopSteps] using h
    · exact .inl rfl
    · exact .inr (.inr (.inr ⟨rfl, rfl, rfl⟩))
  | ack =>
    obtain ⟨rfl, rfl⟩ : b = LOW ∧ sub = 2 := by simpa [bitSteps, ackSteps] using h
    exact .inl rfl
  | nak =>
    obtain ⟨rfl, rfl⟩ : b = HIGH ∧ sub = 2 := by simpa [bitSteps, nakSteps] using h
    exact .inl rfl
  | waitAck =>
    obtain ⟨rfl, rfl⟩ : b = HIGH ∧ sub = 0 := by simpa [bitSteps, waitAckSteps] using h
    exact .inl rfl
  | sendByte v =>
    obtain ⟨rfl, rfl⟩ : b = v.getLsbD k ∧ sub = 0 := by simpa [bitSteps, sendBitSteps] using h
    exact .inl rfl
  | recvByte => simp [bitSteps, recvBitSteps] at h

/-- Settles O52: the step that changes the data line is a `SetSDA`, and R159's line states before it leave only the two
edges. -/
theorem dataEdgesUnderHighClock : Obligations.DataEdgesUnderHighClock := by
  intro s t hi h hscl _ hne
  obtain hkeep | ⟨hp, hset⟩ | ⟨u, sub, site, hp, hstep⟩ := engineStep_sdaO h
  · exact absurd hkeep hne
  · obtain ⟨-, hsda⟩ := hi.linesHigh (by simp only [expectedLines, hp])
    exact absurd (hset.trans hsda.symm) hne
  · obtain ⟨hclock, hdata⟩ := hi.lines
    simp only [expectedLines, hp, decodeUop_encodeUop] at hclock hdata
    obtain hlow | hlevel | ⟨rfl, rfl, hb⟩ | ⟨rfl, rfl, hb⟩ := setSDA_highClock s.i hstep
    · rw [hclock, hlow] at hscl
      cases hscl
    · exact absurd (hdata _ hlevel).symm hne
    · exact .inl ⟨site, hp, hb⟩
    · exact .inr ⟨site, hp, hb⟩

end Sys2Proof.Machine

namespace Sys2Proof.Machine

/-! ## The echo slave: what MEM_READ stores is what MEM_WRITE sent (spec/43_transactions.md R227) -/

/-! ### The successful procedures of MEM_WRITE and MEM_READ, as equations between whole states (R215, R220) -/

/-- START, the address byte and the register offset, both ACKNOWLEDGED: the write phase's head (R215, R220). -/
theorem registerPhase_acknowledged (v reg : Byte) (codeA codeR : Word) (rest : State → Flow) (s : State)
    (h0 : drawAt s 0 = LOW) (h1 : drawAt s 1 = LOW) :
    handshake v codeA (handshake reg codeR rest) (busStart s) =
      rest { skipDraws 2 s with
        ack := .acknowledged, sclO := LOW, sdaO := HIGH
        trace := s.trace ++ (Trace.address v LOW ++ Trace.byte reg LOW) } := by
  rw [addressPhase_acknowledged _ _ _ _ h0, handshake_acknowledged]
  · simp [skipDraws]
  · simpa [drawAt, skipDraws] using h1

/-- MEM_WRITE's procedure with every handshake ACKNOWLEDGED (R215, R218). -/
theorem memWriteProc_acknowledged (f : CmdFields) (s : State)
    (ha : argsOk s.ready s.latch.buf s.latch.count = true) (hr : s.raced = []) (hp : bufferAdmitted s)
    (hd : ∀ j, j ≤ bytesWanted s + 1 → drawAt s j = LOW) :
    memWriteProc f s = .ret s.latch.count { skipDraws (bytesWanted s + 2) s with
      ack := .acknowledged, sclO := HIGH, sdaO := HIGH
      trace := s.trace ++ (Trace.address (addrW f.dev) LOW ++ Trace.byte f.reg LOW ++
        Trace.sentAll s.latch.buf.toNat (loadBytes s.mem s.latch.buf.toNat (bytesWanted s)) ++ Trace.stop) } := by
  simp only [memWriteProc, checked, ha, if_true]
  rw [registerPhase_acknowledged _ _ _ _ _ _ (hd 0 (by omega)) (hd 1 (by omega)), sendLoop_acknowledged]
  · simp [skipDraws, effAddr, bytesWanted, addressByte, Nat.add_comm 2, Nat.add_assoc]
  · exact hr
  · intro j hj
    simpa using hp j hj
  · intro j hj
    have hdraw := hd (2 + j) (by simp only [bytesWanted]; omega)
    simpa [drawAt, skipDraws, Nat.add_assoc] using hdraw
  · rfl

/-- Where MEM_READ's delegated read starts: the write phase acknowledged and ended by its own STOP (R220, R225). -/
def writePhaseDone (f : CmdFields) (s : State) : State :=
  { skipDraws 2 s with
    ack := .acknowledged, sclO := HIGH, sdaO := HIGH
    trace := s.trace ++ (Trace.address (addrW f.dev) LOW ++ Trace.byte f.reg LOW ++ Trace.stop) }

/-- MEM_READ runs its delegated read from `writePhaseDone` (R220, R221). -/
theorem memReadProc_writePhase (f : CmdFields) (s : State)
    (ha : argsOk s.ready s.latch.buf s.latch.count = true) (h0 : drawAt s 0 = LOW) (h1 : drawAt s 1 = LOW) :
    memReadProc f s = afterDelegated (recvProc f (writePhaseDone f s)) := by
  simp only [memReadProc, checked, ha, if_true]
  rw [registerPhase_acknowledged _ _ _ _ _ _ h0 h1, busStop_eq]
  simp [writePhaseDone, addressByte]

theorem drawAt_writePhaseDone (f : CmdFields) (s : State) (j : Nat) :
    drawAt (writePhaseDone f s) j = drawAt s (2 + j) :=
  (drawAt_congr rfl rfl j).trans (drawAt_skipDraws 2 s j)

theorem drawnBytes_writePhaseDone (f : CmdFields) (s : State) (j n : Nat) :
    drawnBytes (writePhaseDone f s) j n = drawnBytes s (2 + j) n :=
  (drawnBytes_congr rfl rfl j n).trans (drawnBytes_skipDraws 2 s j n)

theorem drawnByte_writePhaseDone (f : CmdFields) (s : State) (j : Nat) :
    drawnByte (writePhaseDone f s) j = drawnByte s (2 + j) :=
  (drawnByte_congr rfl rfl j).trans (drawnByte_skipDraws 2 s j)

/-- MEM_READ's procedure with every handshake ACKNOWLEDGED: the delegated read takes its data draws from draw 3 on
(R220, R225, R226). -/
theorem memReadProc_acknowledged (f : CmdFields) (s : State)
    (ha : argsOk s.ready s.latch.buf s.latch.count = true) (hp : bufferAdmitted s)
    (h0 : drawAt s 0 = LOW) (h1 : drawAt s 1 = LOW) (h2 : drawAt s 2 = LOW) :
    ∃ rc, memReadProc f s = .ret s.latch.count { skipDraws (3 + 8 * bytesWanted s) s with
      ack := .acknowledged, acc := drawnByte s (3 + 8 * (bytesWanted s - 1)), sclO := HIGH, sdaO := HIGH
      raced := rc, mem := storeBytes s.mem s.latch.buf.toNat (drawnBytes s 3 (bytesWanted s))
      trace := s.trace ++ (Trace.address (addrW f.dev) LOW ++ Trace.byte f.reg LOW ++ Trace.stop ++
        (Trace.address (addrR f.dev) LOW ++
          Trace.receivedAll s.latch.buf.toNat (drawnBytes s 3 (bytesWanted s)) ++ Trace.stop)) } := by
  obtain ⟨rc, hrecv⟩ := recvProc_acknowledged f (writePhaseDone f s) ha hp ((drawAt_writePhaseDone f s 0).trans h2)
  refine ⟨rc, ?_⟩
  rw [memReadProc_writePhase f s ha h0 h1, hrecv, drawnByte_writePhaseDone, drawnBytes_writePhaseDone]
  simp [afterDelegated, shortReadResult, writePhaseDone, skipDraws, bytesWanted, ← Nat.add_assoc]

/-- Past the reserved-bit check MEM_WRITE runs its procedure (R253). -/
theorem exec_memWrite {f : CmdFields} (h : f.reserved = false) (s : State) :
    exec (.memWrite f) s = .next (finishFlow (memWriteProc f s)) := by
  show Host.Outcome.next (dispatchCommand f (memWriteProc f) s) = _
  simp [dispatchCommand, h]

/-- Past the reserved-bit check MEM_READ runs its procedure (R253). -/
theorem exec_memRead {f : CmdFields} (h : f.reserved = false) (s : State) :
    exec (.memRead f) s = .next (finishFlow (memReadProc f s)) := by
  show Host.Outcome.next (dispatchCommand f (memReadProc f) s) = _
  simp [dispatchCommand, h]

/-! ### The byte that the bits of `v`, most significant first, make (R183) -/

/-- Draw `b` of the eight is bit `7 - b` of the byte. -/
theorem drawnByte_getLsbD (s : State) (j : Nat) {b : Nat} (hb : b < 8) :
    (drawnByte s j).getLsbD (7 - b) = drawAt s (j + b) := by
  obtain ⟨h7, h6, h5, h4, h3, h2, h1, h0⟩ := byteOfBits_getLsbD (drawAt s j) (drawAt s (j + 1)) (drawAt s (j + 2))
    (drawAt s (j + 3)) (drawAt s (j + 4)) (drawAt s (j + 5)) (drawAt s (j + 6)) (drawAt s (j + 7))
  rw [drawnByte_eq]
  interval_cases b <;> assumption

theorem drawnByte_of_bits {s : State} {j : Nat} {v : Byte} (h : ∀ b, b < 8 → drawAt s (j + b) = v.getLsbD (7 - b)) :
    drawnByte s j = v := by
  apply BitVec.eq_of_getLsbD_eq
  intro i hi
  have hbit := (drawnByte_getLsbD s j (b := 7 - i) (by omega)).trans (h (7 - i) (by omega))
  rwa [show 7 - (7 - i) = i by omega] at hbit

/-- Draws that are the bits of the bytes at `a`, byte by byte, make those bytes. -/
theorem drawnBytes_of_bits {s : State} {j a n : Nat} {m : List Host.Cell}
    (h : ∀ i b, i < n → b < 8 → drawAt s (j + 8 * i + b) = (Memory.read m (a + i)).getLsbD (7 - b)) :
    drawnBytes s j n = loadBytes m a n :=
  List.map_congr_left fun i hi => drawnByte_of_bits fun b hb => h i b (List.mem_range.mp hi) hb

/-! ### Loading what was stored (R74) -/

/-- Bytes stored from address `a` on leave the bytes below `a` alone. -/
theorem read_storeBytes_below (m : List Host.Cell) {a b : Nat} (vs : List Byte) (hb : b < a) :
    Memory.read (storeBytes m a vs) b = Memory.read m b := by
  induction vs generalizing m a with
  | nil => rfl
  | cons v vs ih => rw [storeBytes, ih _ (by omega), Memory.read_write_other _ _ (by omega)]

/-- Bytes stored below 2^32 are the bytes loaded from the same address. -/
theorem loadBytes_storeBytes {m : List Host.Cell} (hm : Memory.wf m = true) {a : Nat} (vs : List Byte)
    (ha : a + vs.length ≤ 2 ^ 32) : loadBytes (storeBytes m a vs) a vs.length = vs := by
  induction vs generalizing m a with
  | nil => rfl
  | cons v vs ih =>
    rw [List.length_cons] at ha
    have hhead : Memory.read (storeBytes (Memory.write m a v) (a + 1) vs) a = v := by
      rw [read_storeBytes_below _ _ (by omega), Memory.read_write_same hm]
    rw [List.length_cons, loadBytes_succ, storeBytes, hhead, ih (Memory.write_wf hm (by omega) v) (by omega)]

@[simp] theorem loadBytes_length (m : List Host.Cell) (a n : Nat) : (loadBytes m a n).length = n := by
  simp [loadBytes]

/-- Settles O38: MEM_READ stores the bytes its draws make, the draws make the bytes MEM_WRITE sent, and bytes stored
are loaded back. -/
theorem echoSlaveRoundTrip : Obligations.EchoSlaveRoundTrip := by
  intro f g s u _ _ hcount ⟨hfres, hsargs, hsraced⟩ hsadm hacks ⟨hgres, huargs, _⟩ huadm hwf h0 h1 h2 hecho
  obtain ⟨rc, hread⟩ := memReadProc_acknowledged g u huargs huadm h0 h1 h2
  refine ⟨_, _, (exec_memWrite hfres s).trans (by rw [memWriteProc_acknowledged f s hsargs hsraced hsadm hacks]),
    (exec_memRead hgres u).trans (by rw [hread]), rfl, hcount, ?_⟩
  have hwanted : bytesWanted u = bytesWanted s := congrArg BitVec.toNat hcount
  obtain ⟨-, -, -, hend, -⟩ := argsOk_bounds huargs
  have hload := loadBytes_storeBytes hwf (a := u.latch.buf.toNat)
    (loadBytes s.mem s.latch.buf.toNat (bytesWanted s)) (by rw [loadBytes_length, ← hwanted]; exact hend)
  rw [loadBytes_length] at hload
  show loadBytes (storeBytes u.mem u.latch.buf.toNat (drawnBytes u 3 (bytesWanted u))) _ _ = _
  rw [hwanted, drawnBytes_of_bits hecho, hload]

end Sys2Proof.Machine

namespace Sys2Proof.Machine

/-! ## The CMD register while a command runs (R290) -/

/-- A write to CMD while BUSY = 1 faults, whatever the word (R290). -/
theorem writeReg_cmd_busy {s : State} (v : Word) (hb : s.busy = true) :
    writeReg offCmd v s = .fault .cmdWriteWhileBusy := by
  simp [writeReg, hb]

/-- Settles O9: CMD is the register at P_BASE itself, so the store is admitted and reaches `writeReg`, which faults
while BUSY = 1. -/
theorem cmdWriteWhileBusyFaults : Obligations.CmdWriteWhileBusyFaults := by
  intro s w hstuck hbusy
  have hbase : s.plat.base + offCmd = s.plat.base := BitVec.add_zero _
  have hstore := step_store s s.turns offCmd w hstuck (by decide) (by decide)
  rw [hbase] at hstore
  exact hstore.trans (writeReg_cmd_busy w hbusy)

end Sys2Proof.Machine

namespace Sys2Proof

/-! ## The encoding (spec/30_encoding.md R100 to R111) -/

/-- OP 0x6 and 0x7 select the second reserved row (R103). -/
theorem decodeOp_67 {op : BitVec 4} (f : CmdFields) (h : op.extractLsb' 1 3 = 0b011) :
    decodeOp op f = .reservedOp67 (op.extractLsb' 0 1) f := by
  have hop : op ≠ 0x0 ∧ op ≠ 0x1 ∧ op ≠ 0x2 ∧ op ≠ 0x3 ∧ op ≠ 0x4 ∧ op ≠ 0x5 := by
    revert op
    decide
  obtain ⟨h0, h1, h2, h3, h4, h5⟩ := hop
  simp only [decodeOp, h0, h1, h2, h3, h4, h5, h, if_true, if_false]

/-- OP 0x8 to 0xF select the third reserved row (R103). -/
theorem decodeOp_8F {op : BitVec 4} (f : CmdFields) (h : 8 ≤ op.toNat) :
    decodeOp op f = .reservedOp8F (op.extractLsb' 0 3) f := by
  have hop : op ≠ 0x0 ∧ op ≠ 0x1 ∧ op ≠ 0x2 ∧ op ≠ 0x3 ∧ op ≠ 0x4 ∧ op ≠ 0x5 ∧ op.extractLsb' 1 3 ≠ 0b011 := by
    revert op
    decide
  obtain ⟨h0, h1, h2, h3, h4, h5, h6⟩ := hop
  simp only [decodeOp, h0, h1, h2, h3, h4, h5, h6, if_false]

/-- The rows of R101 and R103 cover every OP value. -/
theorem op_rows (op : BitVec 4) :
    op = 0x0 ∨ op = 0x1 ∨ op = 0x2 ∨ op = 0x3 ∨ op = 0x4 ∨ op = 0x5 ∨ op.extractLsb' 1 3 = 0b011 ∨ 8 ≤ op.toNat := by
  revert op
  decide

/-- The bytes of a command word decode to the command of its OP and fields. -/
theorem decode_cmdWord (op : BitVec 4) (f : CmdFields) (rest : List Byte) :
    decode .cmd32 (bytesOfNat 4 (cmdWord op f).toNat ++ rest) = .ok (decodeOp op f, rest) := by
  rw [decode_cmdBytes, BitVec.ofNat_toNat, BitVec.setWidth_eq, decodeCmd_cmdWord]

/-- The bytes of a micro-operation's word decode to it. -/
theorem decode_encodeUop (u : MicroOp) (rest : List Byte) :
    decode .uop11 (bytesOfNat 2 (encodeUop u).toNat ++ rest) = .ok (u.toInstr, rest) := by
  rw [decode_uopBytes, decodeUop_encodeUop]

/-- Settles O1: a command's bytes give back its OP and fields, and the OP its row; a micro-operation's bytes give back
its word. -/
theorem decodeEncodeRoundTrip : Obligations.DecodeEncodeRoundTrip := by
  intro i rest
  cases i with
  | init f => exact decode_cmdWord 0x1 f rest
  | send f => exact decode_cmdWord 0x2 f rest
  | recv f => exact decode_cmdWord 0x3 f rest
  | memWrite f => exact decode_cmdWord 0x4 f rest
  | memRead f => exact decode_cmdWord 0x5 f rest
  | reservedOp0 f => exact decode_cmdWord 0x0 f rest
  | reservedOp67 low f =>
    have hlow : (0b011#3 ++ low : BitVec 4).extractLsb' 1 3 = 0b011 ∧
        (0b011#3 ++ low : BitVec 4).extractLsb' 0 1 = low := by
      revert low
      decide
    obtain ⟨hrow, hlow⟩ := hlow
    refine (decode_cmdWord (0b011#3 ++ low) f rest).trans ?_
    rw [decodeOp_67 f hrow, hlow]
  | reservedOp8F low f =>
    have hlow : 8 ≤ (0b1#1 ++ low : BitVec 4).toNat ∧ (0b1#1 ++ low : BitVec 4).extractLsb' 0 3 = low := by
      revert low
      decide
    obtain ⟨hrow, hlow⟩ := hlow
    refine (decode_cmdWord (0b1#1 ++ low) f rest).trans ?_
    rw [decodeOp_8F f hrow, hlow]
  | start => exact decode_encodeUop .start rest
  | stop => exact decode_encodeUop .stop rest
  | ack => exact decode_encodeUop .ack rest
  | nak => exact decode_encodeUop .nak rest
  | waitAck => exact decode_encodeUop .waitAck rest
  | sendByte v => exact decode_encodeUop (.sendByte v) rest
  | recvByte => exact decode_encodeUop .recvByte rest

/-- The command an OP selects is encoded as the command word of that OP (R101, R103). -/
theorem encodeNat_decodeOp (op : BitVec 4) (f : CmdFields) :
    (decodeOp op f).format = .cmd32 ∧ encodeNat (decodeOp op f) = (cmdWord op f).toNat := by
  obtain rfl | rfl | rfl | rfl | rfl | rfl | h | h := op_rows op
  case inr.inr.inr.inr.inr.inr.inl =>
    rw [decodeOp_67 f h]
    exact ⟨rfl, by rw [encodeNat, op67_of_low op h]⟩
  case inr.inr.inr.inr.inr.inr.inr =>
    rw [decodeOp_8F f h]
    exact ⟨rfl, by rw [encodeNat, op8F_of_low op h]⟩
  all_goals exact ⟨rfl, rfl⟩

/-- Settles O2: every command word is the word of its own OP and fields, and the refusals of R108 and R109 are the
branches of `decodeUop`. -/
theorem encodeDecodeRoundTrip : Obligations.EncodeDecodeRoundTrip := by
  refine ⟨fun w => ?_, fun w u h => Machine.encodeUop_of_decodeUop h, fun imm uop => ⟨?_, ?_, ?_⟩⟩
  · obtain ⟨hfmt, henc⟩ := encodeNat_decodeOp (opOf w) (cmdFieldsOf w)
    exact ⟨hfmt, henc.trans (by rw [cmdWord_of])⟩
  · rintro rfl
    simp [decodeUop, uopWord_uop]
  · rintro rfl
    simp [decodeUop, uopWord_uop, uopWord_imm]
  · intro himm h5 h7
    simp only [decodeUop, uopWord_uop, uopWord_imm]
    rw [if_neg h5, if_neg h7, if_pos himm]

theorem opOf_eq {w : Word} {n : Nat} (h : w.toNat % 16 = n) : opOf w = BitVec.ofNat 4 n := by
  apply BitVec.eq_of_toNat_eq
  rw [opOf_toNat, BitVec.toNat_ofNat]
  omega

/-- Settles O3: `decodeCmd` selects by OP alone, and OP is the word modulo 16. -/
theorem opSelectsCommand : Obligations.OpSelectsCommand := by
  intro w
  refine ⟨?_, ?_, ?_, ?_, ?_, ?_, ?_, ?_⟩
  case refine_7 =>
    intro h
    have hrow : (opOf w).extractLsb' 1 3 = 0b011 := by
      obtain h | h := h <;> rw [opOf_eq h] <;> decide
    refine ⟨_, decodeOp_67 _ hrow, ?_⟩
    rw [BitVec.extractLsb'_toNat, opOf_toNat]
    omega
  case refine_8 =>
    intro h
    refine ⟨_, decodeOp_8F _ ((opOf_toNat w).symm ▸ h), ?_⟩
    rw [BitVec.extractLsb'_toNat, opOf_toNat]
    omega
  all_goals
    intro h
    rw [decodeCmd, opOf_eq h]
    rfl

/-- Settles O4: the five words are closed terms, which the decoder evaluates. -/
theorem specWordsDecode : Obligations.SpecWordsDecode := by
  unfold Obligations.SpecWordsDecode
  decide

namespace Machine

/-- A pseudo-instruction's CMD word decodes to the command of its OP, with zero reserved fields (R111). -/
theorem decodeCmd_pseudoWord (op : BitVec 4) (dev reg : Byte) :
    decodeCmd (pseudoWord op dev reg) = decodeOp op { res1 := 0, reg := reg, dev := dev, res0 := 0 } := by
  rw [pseudoWord_eq, decodeCmd_cmdWord]

/-- Settles O5: the expansions are R111's by definition, and their CMD words are `pseudoWord`. -/
theorem pseudoInstructionExpansion : Obligations.PseudoInstructionExpansion := by
  intro base dev reg freq buf n
  exact ⟨rfl, ⟨_, rfl, decodeCmd_pseudoWord opSend dev 0⟩, ⟨_, rfl, decodeCmd_pseudoWord opRecv dev 0⟩,
    ⟨_, rfl, decodeCmd_pseudoWord opMemWrite dev reg⟩, ⟨_, rfl, decodeCmd_pseudoWord opMemRead dev reg⟩⟩

end Machine

end Sys2Proof

namespace Sys2Proof.Machine

/-! ## What the bus sequences neither read nor write

The sequencer's position and the host's own registers are no part of a bus sequence: a change of them commutes with
every step of one (spec/10_state.md R48, R50). -/

/-- No bus sequence reads or writes what `g` changes. -/
structure Unread (g : State → State) : Prop where
  prim : ∀ (p : Prim) s, p.run (g s) = g (p.run s)
  clearAcc : ∀ s, { g s with acc := 0 } = g { s with acc := 0 }
  read : ∀ a s, memReadByte a (g s) = ((memReadByte a s).1, g (memReadByte a s).2)
  write : ∀ a v s, memWriteByte a v (g s) = g (memWriteByte a v s)
  latch : ∀ s, (g s).latch = s.latch
  plat : ∀ s, (g s).plat = s.plat
  ack : ∀ s, (g s).ack = s.ack
  acc : ∀ s, (g s).acc = s.acc
  ready : ∀ s, (g s).ready = s.ready

theorem Unread.runPrims {g : State → State} (hg : Unread g) (ps : List Prim) (s : State) :
    runPrims ps (g s) = g (runPrims ps s) := by
  induction ps generalizing s with
  | nil => rfl
  | cons p ps ih => rw [Machine.runPrims, hg.prim, ih, Machine.runPrims]

/-- A race is resolved from the byte's own values, whatever else the state holds. -/
theorem resolveRace_congr {g : State → State} (hraces : ∀ s, (g s).races = s.races)
    (hset : ∀ s n, { g s with races := n } = g { s with races := n }) (now : Byte) (others : List Byte) (s : State) :
    resolveRace now others (g s) = ((resolveRace now others s).1, g (resolveRace now others s).2) := by
  cases others with
  | nil => rfl
  | cons v vs => simp only [resolveRace, hraces, hset]

theorem memReadByte_congr {g : State → State} (hmem : ∀ s, (g s).mem = s.mem) (hraced : ∀ s, (g s).raced = s.raced)
    (hraces : ∀ s, (g s).races = s.races) (hset : ∀ s n, { g s with races := n } = g { s with races := n })
    (hemit : ∀ e s, emit e (g s) = g (emit e s)) (a : Nat) (s : State) :
    memReadByte a (g s) = ((memReadByte a s).1, g (memReadByte a s).2) := by
  simp only [memReadByte, racedValues, hmem, hraced, resolveRace_congr hraces hset, hemit]

/-- The sequencer stands at position `p`, bit index `k`. -/
def stand (p : Pos) (k : Nat) (s : State) : State := { s with pos := p, k := k }

/-- The sequencer handles byte `i` of phase `ph`. -/
def inByte (i : Nat) (ph : Phase) (s : State) : State := { s with i := i, phase := ph }

theorem unread_stand (p : Pos) (k : Nat) : Unread (stand p k) where
  prim q _ := by cases q <;> rfl
  clearAcc _ := rfl
  read := memReadByte_congr (fun _ => rfl) (fun _ => rfl) (fun _ => rfl) (fun _ _ => rfl) (fun _ _ => rfl)
  write _ _ _ := rfl
  latch _ := rfl
  plat _ := rfl
  ack _ := rfl
  acc _ := rfl
  ready _ := rfl

theorem unread_inByte (i : Nat) (ph : Phase) : Unread (inByte i ph) where
  prim q _ := by cases q <;> rfl
  clearAcc _ := rfl
  read := memReadByte_congr (fun _ => rfl) (fun _ => rfl) (fun _ => rfl) (fun _ _ => rfl) (fun _ _ => rfl)
  write _ _ _ := rfl
  latch _ := rfl
  plat _ := rfl
  ack _ := rfl
  acc _ := rfl
  ready _ := rfl

theorem unread_withHostRegs (a b c d : Word) : Unread (withHostRegs a b c d) where
  prim q _ := by cases q <;> rfl
  clearAcc _ := rfl
  read := memReadByte_congr (fun _ => rfl) (fun _ => rfl) (fun _ => rfl) (fun _ _ => rfl) (fun _ _ => rfl)
  write _ _ _ := rfl
  latch _ := rfl
  plat _ := rfl
  ack _ := rfl
  acc _ := rfl
  ready _ := rfl

/-! ## Micro-operations as wholes -/

/-- The bus sequence of a micro-operation (R150, R180, R182). -/
def busOp : MicroOp → State → State
  | .start => busStart
  | .stop => busStop
  | .ack => busAck
  | .nak => busNak
  | .waitAck => busWaitAck
  | .sendByte v => busSendByte v
  | .recvByte => busRecvByte

theorem exec_microOp (u : MicroOp) (s : State) : exec u.toInstr s = .next (busOp u s) := by
  cases u <;> rfl

/-- The steps of bits `k` down to 0 of a micro-operation. -/
def bitLoop (u : MicroOp) : Nat → State → State
  | 0, s => runPrims (bitSteps u 0) s
  | k + 1, s => bitLoop u k (runPrims (bitSteps u (k + 1)) s)

/-- RECV_BYTE begins with `acc <- 0x00` (R182). -/
def enterMicro (u : MicroOp) (s : State) : State := if u = .recvByte then { s with acc := 0 } else s

theorem bitLoop_sendByte (v : Byte) (k : Nat) (s : State) : bitLoop (.sendByte v) k s = sendBits v k s := by
  induction k generalizing s with
  | zero => rfl
  | succ k ih => exact ih _

theorem bitLoop_recvByte (k : Nat) (s : State) : bitLoop .recvByte k s = recvBits k s := by
  induction k generalizing s with
  | zero => rfl
  | succ k ih => exact ih _

/-- A micro-operation's bus sequence is the steps of all its bits. -/
theorem busOp_eq_bitLoop (u : MicroOp) (s : State) : busOp u s = bitLoop u (topBit u) (enterMicro u s) := by
  cases u with
  | sendByte v => exact (bitLoop_sendByte v 7 s).symm
  | recvByte => exact (bitLoop_recvByte 7 _).symm
  | start | stop | ack | nak | waitAck => rfl

theorem Unread.bitLoop {g : State → State} (hg : Unread g) (u : MicroOp) (k : Nat) (s : State) :
    bitLoop u k (g s) = g (bitLoop u k s) := by
  induction k generalizing s with
  | zero => exact hg.runPrims _ s
  | succ k ih => rw [Machine.bitLoop, hg.runPrims, ih, Machine.bitLoop]

theorem Unread.busOp {g : State → State} (hg : Unread g) (u : MicroOp) (s : State) : busOp u (g s) = g (busOp u s) := by
  have henter : enterMicro u (g s) = g (enterMicro u s) := by
    unfold enterMicro
    split
    · exact hg.clearAcc s
    · rfl
  rw [busOp_eq_bitLoop, henter, hg.bitLoop, ← busOp_eq_bitLoop]

/-! ### The engine runs a micro-operation event by event -/

theorem bitSteps_length (u : MicroOp) (k : Nat) : (bitSteps u k).length = (bitSteps u 0).length := by
  cases u <;> rfl

theorem bitSteps_length_pos (u : MicroOp) (k : Nat) : 0 < (bitSteps u k).length := by
  cases u <;> exact Nat.succ_pos _

/-- From the first step of a bit, the engine runs its steps and leaves the bit. -/
theorem engineRun_oneBit {u : MicroOp} {w : BitVec 11} {site : CallSite} (hw : decodeUop w = .ok u) (s : State)
    (hp : s.pos = .micro w 0 site) (hc : clearAccAtEntry u 0 s = s) :
    engineRun (bitSteps u 0).length s = .next (afterBit w site (runPrims (bitSteps u s.k) s)) := by
  have hrun := engineRun_bit hw (bitSteps u s.k) (List.length_pos_iff.mp (bitSteps_length_pos u s.k)) 0 s hp rfl hc
  rwa [bitSteps_length] at hrun

theorem afterBit_zero {w : BitVec 11} {site : CallSite} {t : State} (hk : t.k = 0) :
    afterBit w site t = advance site t := by
  simp only [afterBit, hk, Nat.lt_irrefl, if_false]

theorem afterBit_succ {w : BitVec 11} {site : CallSite} {t : State} {k : Nat} (hk : t.k = k + 1) :
    afterBit w site t = stand (.micro w 0 site) k t := by
  simp only [afterBit, hk, Nat.succ_pos, if_true, Nat.add_sub_cancel]
  rfl

theorem advance_stand (site : CallSite) (p : Pos) (k : Nat) (s : State) :
    advance site (stand p k s) = advance site s := advance_control site p k s

/-- RECV_BYTE's accumulator is cleared at its first bit only (R182). -/
theorem clearAccAtEntry_lower {u : MicroOp} {sub : Nat} {s : State} (h : s.k < topBit u) :
    clearAccAtEntry u sub s = s := if_neg fun hc => Nat.ne_of_lt h hc.2.2

/-- From the first step of bit `k`, the engine runs bits `k` down to 0 and returns to the caller. -/
theorem engineRun_bitLoop {u : MicroOp} {w : BitVec 11} {site : CallSite} (hw : decodeUop w = .ok u) (k : Nat)
    (s : State) (hp : s.pos = .micro w 0 site) (hk : s.k = k) (hle : k ≤ topBit u) (hc : clearAccAtEntry u 0 s = s) :
    engineRun ((k + 1) * (bitSteps u 0).length) s = .next (advance site (bitLoop u k s)) := by
  induction k generalizing s with
  | zero =>
    have hbit := engineRun_oneBit hw s hp hc
    rw [afterBit_zero ((runPrims_control _ s).2.1.trans hk), hk] at hbit
    rw [Nat.zero_add, Nat.one_mul, hbit, bitLoop]
  | succ k ih =>
    have hbit := engineRun_oneBit hw s hp hc
    rw [afterBit_succ ((runPrims_control _ s).2.1.trans hk), hk] at hbit
    have hrest := ih (stand (.micro w 0 site) k (runPrims (bitSteps u (k + 1)) s)) rfl rfl (by omega)
      (clearAccAtEntry_lower (Nat.lt_of_succ_le hle))
    rw [Nat.succ_mul, Nat.add_comm, engineRun_next hbit, hrest, (unread_stand _ k).bitLoop, advance_stand, bitLoop]

theorem clearAccAtEntry_first {u : MicroOp} {s : State} (hk : s.k = topBit u) :
    clearAccAtEntry u 0 s = enterMicro u s := by
  simp only [clearAccAtEntry, enterMicro, hk, and_true]

theorem enterMicro_keeps (u : MicroOp) (s : State) :
    (enterMicro u s).pos = s.pos ∧ (enterMicro u s).k = s.k ∧ enterMicro u (enterMicro u s) = enterMicro u s := by
  unfold enterMicro
  split <;> exact ⟨rfl, rfl, rfl⟩

/-- From a micro-operation's first step, as many engine steps as it has events run it and return to its caller. -/
theorem engineRun_microOp {u : MicroOp} {w : BitVec 11} {site : CallSite} (hw : decodeUop w = .ok u) {s : State}
    (hp : s.pos = .micro w 0 site) (hk : s.k = topBit u) :
    engineRun ((topBit u + 1) * (bitSteps u 0).length) s = .next (advance site (busOp u s)) := by
  obtain ⟨hpos, hbit, htwice⟩ := enterMicro_keeps u s
  have hfirst : engineStep s = engineStep (enterMicro u s) := by
    rw [engineStep_micro hp hw, engineStep_micro (hpos.trans hp) hw, microStep, microStep,
      clearAccAtEntry_first hk, clearAccAtEntry_first (hbit.trans hk), htwice, hbit,
      List.getElem?_eq_getElem (bitSteps_length_pos u s.k)]
  have hrun := engineRun_bitLoop hw (topBit u) (enterMicro u s) (hpos.trans hp) (hbit.trans hk) (Nat.le_refl _)
    ((clearAccAtEntry_first (hbit.trans hk)).trans htwice)
  rw [← busOp_eq_bitLoop] at hrun
  obtain ⟨n, hn⟩ : ∃ n, (topBit u + 1) * (bitSteps u 0).length = n + 1 :=
    ⟨_, (Nat.succ_pred_eq_of_pos (Nat.mul_pos (Nat.succ_pos _) (bitSteps_length_pos u 0))).symm⟩
  rw [hn] at hrun ⊢
  rw [engineRun, hfirst]
  exact hrun

/-! ## Runs of the engine that reach a state -/

/-- Some number of engine steps alone leads from `s` to `t`. -/
def Reaches (s t : State) : Prop := ∃ n, engineRun n s = .next t

theorem Reaches.refl (s : State) : Reaches s s := ⟨0, rfl⟩

theorem Reaches.trans {s t u : State} (h : Reaches s t) (h' : Reaches t u) : Reaches s u := by
  obtain ⟨m, hm⟩ := h
  obtain ⟨n, hn⟩ := h'
  exact ⟨m + n, (engineRun_next hm).trans hn⟩

theorem Reaches.of_step {s t : State} (h : engineStep s = .next t) : Reaches s t := ⟨1, by rw [engineRun, h]; rfl⟩

/-- Calling a micro-operation runs it and returns to the call site. -/
theorem reaches_issue (u : MicroOp) (site : CallSite) (s : State) :
    Reaches (issue u site s) (advance site (busOp u s)) := by
  have hbus : busOp u (issue u site s) = stand (.micro (encodeUop u) 0 site) (topBit u) (busOp u s) :=
    (unread_stand _ _).busOp u s
  refine ⟨_, (engineRun_microOp (decodeUop_encodeUop u) rfl rfl).trans ?_⟩
  rw [hbus, advance_stand]

/-- A procedure that returned finishes the command. -/
theorem reaches_finish (ret : Word) (s : State) : Reaches (goto (.finish ret) s) (finishCommand ret s) :=
  .of_step (engineStep_finish rfl)

/-! ## What a transaction leaves alone (spec/43_transactions.md R202) -/

/-- The host's registers, the latched command, the host agent and the platform are as they were. -/
structure KeepsCommand (s t : State) : Prop where
  cmd : t.cmd = s.cmd
  busy : t.busy = s.busy
  ready : t.ready = s.ready
  freq : t.freq = s.freq
  tick : t.tick = s.tick
  buf : t.buf = s.buf
  count : t.count = s.count
  result : t.result = s.result
  latch : t.latch = s.latch
  turns : t.turns = s.turns
  reads : t.reads = s.reads
  hostStuck : t.hostStuck = s.hostStuck
  plat : t.plat = s.plat

theorem KeepsCommand.refl (s : State) : KeepsCommand s s := by
  constructor <;> rfl

theorem KeepsCommand.trans {s t u : State} (h : KeepsCommand s t) (h' : KeepsCommand t u) : KeepsCommand s u where
  cmd := h'.cmd.trans h.cmd
  busy := h'.busy.trans h.busy
  ready := h'.ready.trans h.ready
  freq := h'.freq.trans h.freq
  tick := h'.tick.trans h.tick
  buf := h'.buf.trans h.buf
  count := h'.count.trans h.count
  result := h'.result.trans h.result
  latch := h'.latch.trans h.latch
  turns := h'.turns.trans h.turns
  reads := h'.reads.trans h.reads
  hostStuck := h'.hostStuck.trans h.hostStuck
  plat := h'.plat.trans h.plat

theorem KeepsCommand.busOp (u : MicroOp) (s : State) : KeepsCommand s (busOp u s) := by
  cases u <;> simp only [Machine.busOp, busStart_eq, busStop_eq, busAck_eq, busNak_eq, busWaitAck_eq, busSendByte_eq,
    busRecvByte_eq] <;> constructor <;> rfl

theorem KeepsCommand.memReadByte (a : Nat) (s : State) : KeepsCommand s (memReadByte a s).2 := by
  obtain ⟨n, e, h⟩ := memReadByte_state a s
  rw [h]
  constructor <;> rfl

theorem KeepsCommand.memWriteByte (a : Nat) (v : Byte) (s : State) : KeepsCommand s (memWriteByte a v s) := by
  constructor <;> rfl

/-- Nothing a transaction does changes them (R202). -/
theorem recvClosed_keepsCommand (s : State) : RecvClosed (KeepsCommand s) where
  start t h := h.trans (.busOp .start t)
  stop t h := h.trans (.busOp .stop t)
  byte v t h := (h.trans (.busOp (.sendByte v) t)).trans (.busOp .waitAck _)
  read a t h := h.trans (.memReadByte a t)
  stuck _ _ _ t h := h.trans (by constructor <;> rfl)
  recv t h := h.trans (.busOp .recvByte t)
  write i t h _ _ := h.trans (.memWriteByte _ _ t)
  ack t h := h.trans (.busOp .ack t)
  nak t h := h.trans (.busOp .nak t)

/-! ## How a command's procedure ends (spec/60_exceptions.md R250, R251, spec/20_memory.md R81) -/

/-- What a procedure returns satisfies `R`; where it is stuck, the state satisfies `S`. -/
def Flow.Ends (R : Word → Prop) (S : State → Prop) : Flow → Prop
  | .ret res _ => R res
  | .stuck t => S t

/-- The engine stands at an access of a buffer byte that its port does not admit (R81). -/
structure AtUnadmitted (t : State) : Prop where
  pos : t.pos = .memRead ∨ t.pos = .memWrite
  byte : t.i < bytesWanted t
  refused : portAdmits t.plat (effAddr t.latch.buf t.i) = false

section
variable {R : Word → Prop} {S : State → Prop}

theorem checked_ends {body : State → Flow} {s : State} (hinvalid : R eInvalidArgument)
    (hbody : (body s).Ends R S) : (checked body s).Ends R S := by
  unfold checked
  split
  · exact hbody
  · exact hinvalid

theorem handshake_ends {v : Byte} {code : Word} {rest : State → Flow} {s : State} (hcode : R code)
    (hrest : ∀ t, t.latch = s.latch → (rest t).Ends R S) : (handshake v code rest s).Ends R S := by
  unfold handshake
  dsimp only
  split
  · exact hcode
  · exact hrest _ (handshake_latch v s)

/-- The first handshake of a transaction, after its START (R205, R210, R215, R220). -/
theorem address_ends {v : Byte} {rest : State → Flow} {s : State} (hcode : R eNoAckAddr)
    (hrest : ∀ t, t.latch = s.latch → (rest t).Ends R S) : (handshake v eNoAckAddr rest (busStart s)).Ends R S :=
  handshake_ends hcode fun t ht => hrest t (ht.trans (KeepsCommand.busOp .start s).latch)

theorem sendLoop_ends {n i : Nat} {s : State} (hn : i + n ≤ s.latch.count.toNat) (hcount : R s.latch.count)
    (hdata : R eNoAckData) : (sendLoop n i s).Ends R AtUnadmitted := by
  induction n generalizing i s with
  | zero => exact hcount
  | succ n ih =>
    rw [sendLoop]
    split
    · refine handshake_ends hdata fun t ht => ?_
      have hlatch : t.latch = s.latch := ht.trans (KeepsCommand.memReadByte _ s).latch
      exact ih (by rw [hlatch]; omega) (hlatch ▸ hcount)
    next h => exact ⟨.inl rfl, Nat.lt_of_lt_of_le (Nat.lt_add_of_pos_right (Nat.succ_pos n)) hn, by simpa using h⟩

theorem recvLoop_ends {n i : Nat} {s : State} (hn : i + n ≤ s.latch.count.toNat) (hcount : R s.latch.count) :
    (recvLoop n i s).Ends R AtUnadmitted := by
  induction n generalizing i s with
  | zero => exact hcount
  | succ n ih =>
    rw [recvLoop]
    have hlatch : (busRecvByte s).latch = s.latch := (KeepsCommand.busOp .recvByte s).latch
    generalize busRecvByte s = t at hlatch
    rw [← hlatch] at hn hcount
    dsimp only
    split
    · have hnext : ∀ u, u.latch = t.latch → (recvLoop n (i + 1) u).Ends R AtUnadmitted :=
        fun u hu => ih (by rw [hu]; omega) (hu ▸ hcount)
      split
      · exact hnext _ (KeepsCommand.busOp .ack _).latch
      · exact hnext _ (KeepsCommand.busOp .nak _).latch
    next h => exact ⟨.inr rfl, Nat.lt_of_lt_of_le (Nat.lt_add_of_pos_right (Nat.succ_pos n)) hn, by simpa using h⟩

theorem recvProc_ends {f : CmdFields} {s : State} (hcount : R s.latch.count) (hinvalid : R eInvalidArgument)
    (haddr : R eNoAckAddr) : (recvProc f s).Ends R AtUnadmitted :=
  checked_ends hinvalid <| address_ends haddr fun t ht =>
    recvLoop_ends (by rw [ht, Nat.zero_add]) (ht ▸ hcount)

theorem afterDelegated_ends {x : Flow} (hcount : R x.state.latch.count) (hshort : R eShortRead)
    (hx : x.Ends (fun _ => True) S) : (afterDelegated x).Ends R S := by
  cases x with
  | ret r s =>
    show R (shortReadResult r s.latch.count)
    unfold shortReadResult
    split
    · exact hcount
    · exact hshort
  | stuck s => exact hx

end

/-- The results of R250 that the rows of R251 give each OP. -/
def resultsOf (op : BitVec 4) (count : Word) : List Word :=
  if op = opInit then [0, eInvalidArgument]
  else if op = opSend then [count, eInvalidArgument, eNoAckAddr, eNoAckData]
  else if op = opRecv then [count, eInvalidArgument, eNoAckAddr]
  else if op = opMemWrite then [count, eInvalidArgument, eNoAckAddr, eNoAckReg, eNoAckData]
  else if op = opMemRead then [count, eInvalidArgument, eNoAckAddr, eNoAckReg, eShortRead]
  else [eInvalidArgument]

/-- A command's procedure returns one of its OP's results, or is stuck at a byte of its buffer (R81, R251). -/
theorem procOf_ends (op : BitVec 4) (f : CmdFields) (s : State) :
    (procOf op f s).Ends (· ∈ resultsOf op s.latch.count) AtUnadmitted := by
  unfold procOf resultsOf
  split_ifs
  · unfold initProc
    split <;> simp [Flow.Ends]
  · exact checked_ends (by simp) <| address_ends (by simp) fun t ht =>
      sendLoop_ends (by rw [ht, Nat.zero_add]) (by rw [ht]; simp) (by simp)
  · exact recvProc_ends (by simp) (by simp) (by simp)
  · exact checked_ends (by simp) <| address_ends (by simp) fun t ht => handshake_ends (by simp) fun u hu =>
      sendLoop_ends (by rw [hu, ht, Nat.zero_add]) (by rw [hu, ht]; simp) (by simp)
  · refine checked_ends (by simp) <| address_ends (by simp) fun t ht => handshake_ends (by simp) fun u hu => ?_
    refine afterDelegated_ends ?_ (by simp) (recvProc_ends trivial trivial trivial)
    have hstop : (busStop u).latch = s.latch := (KeepsCommand.busOp .stop u).latch.trans (hu.trans ht)
    rw [((recvClosed_keepsCommand (busStop u)).recvProc f _ (.refl _)).latch, hstop]
    simp
  · simp [reservedProc, Flow.Ends]

/-- At a buffer access that is not admitted an engine step changes nothing (R81). -/
theorem engineStep_unadmitted {s : State} (hp : s.pos = .memRead ∨ s.pos = .memWrite)
    (h : portAdmits s.plat (effAddr s.latch.buf s.i) = false) : engineStep s = .next s := by
  obtain hp | hp := hp
  · simp [engineStep, positionStep, hp, bufferReadStep, h]
  · simp [engineStep, positionStep, hp, bufferWriteStep, h]

/-- An idle engine's step changes nothing (R252). -/
theorem engineStep_idle {s : State} (hp : s.pos = .idle) : engineStep s = .next s := by
  simp only [engineStep, hp]

/-- Settles O56: the buffer steps guard their access by the port, and an idle engine has no step. -/
theorem engineStuckOrIdle : Obligations.EngineStuckOrIdle :=
  ⟨fun _ hp h => engineStep_unadmitted hp h, fun _ hp => engineStep_idle hp⟩

/-- Where a whole command ends the engine takes no further step: it is idle, or stuck (R81, R252). -/
theorem engineStep_dispatchCommand (op : BitVec 4) (f : CmdFields) (s : State) :
    engineStep (dispatchCommand f (procOf op f) s) = .next (dispatchCommand f (procOf op f) s) := by
  have hends := procOf_ends op f s
  unfold dispatchCommand
  split
  · exact engineStep_idle rfl
  · cases hx : procOf op f s with
    | ret res t => exact engineStep_idle rfl
    | stuck t =>
      rw [hx] at hends
      exact engineStep_unadmitted hends.pos hends.refused

/-! ## The transaction procedures, event by event (spec/43_transactions.md)

The engine in byte `i` of phase `ph` of a procedure, with the procedure's own state `s`, is `inByte i ph s`. What the
procedure's `Flow` becomes is `deliver`: MEM_READ compares what its delegated read returned (R220). -/

/-- What the dispatcher gets of the outcome `x` of the procedure that runs in phase `ph`. -/
def deliver (ph : Phase) (x : Flow) : Flow :=
  if x.state.latch.op = opMemRead ∧ ph = .read then afterDelegated x else x

@[simp] theorem deliver_write (x : Flow) : deliver .write x = x := if_neg (by simp)

@[simp] theorem deliver_stuck (ph : Phase) (s : State) : deliver ph (.stuck s) = .stuck s := by
  unfold deliver
  split <;> rfl

/-- From `e` the engine completes the command whose procedure, in phase `ph`, has outcome `x`. -/
def Completes (e : State) (ph : Phase) (x : Flow) : Prop := Reaches e (finishFlow (deliver ph x))

/-- Calling a micro-operation, at the procedure's own state. -/
theorem completes_issue {u : MicroOp} {site : CallSite} {i : Nat} {ph : Phase} {s : State} {x : Flow}
    (h : Completes (advance site (inByte i ph (busOp u s))) ph x) : Completes (issue u site (inByte i ph s)) ph x := by
  rw [← (unread_inByte i ph).busOp] at h
  exact (reaches_issue u site (inByte i ph s)).trans h

/-- A procedure's return of `ret` to the dispatcher, or to MEM_READ (R220). -/
theorem completes_afterReturn (ret : Word) (i : Nat) (ph : Phase) (s : State) :
    Completes (afterReturn ret (inByte i ph s)) ph (.ret ret s) := by
  unfold Completes
  by_cases h : s.latch.op = opMemRead ∧ ph = .read
  · have hflow : deliver ph (.ret ret s) = .ret (shortReadResult ret s.latch.count) s := if_pos h
    have hret : afterReturn ret (inByte i ph s) =
        goto (.finish (shortReadResult ret s.latch.count)) { inByte i ph s with r := ret } := if_pos h
    rw [hflow, hret]
    exact reaches_finish _ _
  · have hflow : deliver ph (.ret ret s) = .ret ret s := if_neg h
    have hret : afterReturn ret (inByte i ph s) = goto (.finish ret) (inByte i ph s) := if_neg h
    rw [hflow, hret]
    exact reaches_finish _ _

/-- The STOP before a procedure's return (R205, R210, R255). -/
theorem completes_lastStop (ret : Word) (i : Nat) (ph : Phase) (s : State) :
    Completes (issue .stop (.lastStop ret) (inByte i ph s)) ph (.ret ret (busStop s)) :=
  completes_issue (completes_afterReturn ret i ph (busStop s))

/-- The call sites of a byte and of its WAIT_ACK, with what follows each outcome: the abort with `code` (R255), or
`next`. -/
structure HandshakeSites (siteByte siteAck : CallSite) (code : Word) (next : State → State) : Prop where
  sent : ∀ s, advance siteByte s = issue .waitAck siteAck s
  refused : ∀ s, s.ack = .notAcknowledged → advance siteAck s = enterAbort code s
  accepted : ∀ s, s.ack = .acknowledged → advance siteAck s = next s

theorem addressSites : HandshakeSites .addr .addrAck eNoAckAddr afterAddress where
  sent _ := rfl
  refused s h := by simp only [advance, h]
  accepted s h := by simp only [advance, h]

theorem registerSites : HandshakeSites .reg .regAck eNoAckReg afterRegister where
  sent _ := rfl
  refused s h := by simp only [advance, h]
  accepted s h := by simp only [advance, h]

theorem dataSites : HandshakeSites .data .dataAck eNoAckData afterDataSent where
  sent _ := rfl
  refused s h := by simp only [advance, h]
  accepted s h := by simp only [advance, h]

/-- A byte and its handshake (R161): the abort, or what the rest of the procedure completes. -/
theorem HandshakeSites.completes {siteByte siteAck : CallSite} {code : Word} {next : State → State}
    (hs : HandshakeSites siteByte siteAck code next) {v : Byte} {rest : State → Flow} {i : Nat} {ph : Phase} {s : State}
    (hrest : ∀ t, t.latch = s.latch → Completes (next (inByte i ph t)) ph (rest t)) :
    Completes (issue (.sendByte v) siteByte (inByte i ph s)) ph (handshake v code rest s) := by
  refine completes_issue ?_
  rw [hs.sent]
  refine completes_issue (?_ : Completes (advance siteAck (inByte i ph (busWaitAck (busSendByte v s)))) ph _)
  have hrefused : ∀ t, t.ack = .notAcknowledged → advance siteAck (inByte i ph t) = enterAbort code (inByte i ph t) :=
    fun t ht => hs.refused (inByte i ph t) ht
  have haccepted : ∀ t, t.ack = .acknowledged → advance siteAck (inByte i ph t) = next (inByte i ph t) :=
    fun t ht => hs.accepted (inByte i ph t) ht
  unfold handshake
  dsimp only
  split
  next hack =>
    rw [hrefused _ hack]
    exact completes_lastStop code i ph _
  next hack =>
    rw [haccepted _ hack]
    exact hrest _ (handshake_latch v s)

/-- At an access its port does not admit the engine is where the procedure says (R81). -/
theorem completes_stuckAt (p : Pos) (i : Nat) (ph : Phase) (s : State) :
    Completes (goto p (inByte i ph s)) ph (stuckAt p ph i s) := by
  unfold Completes stuckAt
  rw [deliver_stuck]
  exact .refl _

/-! ### The byte loops -/

/-- `MemRead` of data byte `i` and the call of its SEND_BYTE (R205, R215). -/
theorem engineStep_memRead {i : Nat} {s : State} (ha : portAdmits s.plat (effAddr s.latch.buf i) = true) :
    engineStep (goto .memRead (inByte i .write s)) =
      .next (issue (.sendByte (memReadByte (effAddr s.latch.buf i) s).1) .data
        (inByte i .write (memReadByte (effAddr s.latch.buf i) s).2)) := by
  show Host.Outcome.next (bufferReadStep (stand .memRead 0 (inByte i .write s))) = _
  have hread := (unread_stand .memRead 0).read (effAddr s.latch.buf i) (inByte i .write s)
  rw [(unread_inByte i .write).read] at hread
  have hstep : bufferReadStep (stand .memRead 0 (inByte i .write s)) =
      issue (.sendByte (memReadByte (effAddr s.latch.buf i) (stand .memRead 0 (inByte i .write s))).1) .data
        (memReadByte (effAddr s.latch.buf i) (stand .memRead 0 (inByte i .write s))).2 := if_pos ha
  rw [hstep, hread]
  rfl

/-- One data byte of SEND or MEM_WRITE: no step where its address is not admitted (R81), else its handshake. -/
theorem completes_sendByte {n i : Nat} {s : State}
    (hnext : ∀ t, t.latch = s.latch → Completes (afterDataSent (inByte i .write t)) .write (sendLoop n (i + 1) t)) :
    Completes (goto .memRead (inByte i .write s)) .write (sendLoop (n + 1) i s) := by
  rw [sendLoop]
  split
  next ha =>
    refine (Reaches.of_step (engineStep_memRead ha)).trans (dataSites.completes fun t ht => hnext t ?_)
    exact ht.trans (KeepsCommand.memReadByte _ s).latch
  next => exact completes_stuckAt _ _ _ _

/-- The byte loop of SEND and MEM_WRITE, with `n + 1` bytes left of `L.count` (R205, R215). -/
theorem completes_sendLoop (n i : Nat) (s : State) (hn : i + (n + 1) = s.latch.count.toNat) :
    Completes (goto .memRead (inByte i .write s)) .write (sendLoop (n + 1) i s) := by
  induction n generalizing i s with
  | zero =>
    refine completes_sendByte fun t ht => ?_
    have hlast : afterDataSent (inByte i .write t) =
        issue .stop (.lastStop t.latch.count) (inByte (i + 1) .write t) :=
      if_neg (by rw [(unread_inByte i .write).latch, ht]; exact Nat.not_lt.mpr (Nat.le_of_eq hn.symm))
    rw [hlast]
    exact completes_lastStop t.latch.count (i + 1) .write t
  | succ n ih =>
    refine completes_sendByte fun t ht => ?_
    have hmore : afterDataSent (inByte i .write t) = goto .memRead (inByte (i + 1) .write t) :=
      if_pos (by rw [(unread_inByte i .write).latch, ht, ← hn]; simp only [inByte]; omega)
    rw [hmore]
    exact ih (i + 1) t (by rw [ht]; omega)

/-- `MemWrite` of received byte `i` and the call of its ACK or NAK (R210). -/
theorem engineStep_memWrite {i : Nat} {s : State} (ha : portAdmits s.plat (effAddr s.latch.buf i) = true) :
    engineStep (goto .memWrite (inByte i .read s)) =
      .next (if i + 1 < s.latch.count.toNat then
          issue .ack .ackSig (inByte i .read (memWriteByte (effAddr s.latch.buf i) s.acc s))
        else issue .nak .nakSig (inByte i .read (memWriteByte (effAddr s.latch.buf i) s.acc s))) := by
  show Host.Outcome.next (bufferWriteStep (goto .memWrite (inByte i .read s))) = _
  exact congrArg Host.Outcome.next (if_pos ha)

/-- One received byte of RECV_BODY: no step where its address is not admitted (R81), else the store and its ACK or
NAK. -/
theorem completes_recvByte {n i : Nat} {s : State}
    (hack : i + 1 < s.latch.count.toNat → ∀ t, t.latch = s.latch →
      Completes (issue .ack .ackSig (inByte i .read t)) .read (recvLoop n (i + 1) (busAck t)))
    (hnak : ¬ i + 1 < s.latch.count.toNat → ∀ t, t.latch = s.latch →
      Completes (issue .nak .nakSig (inByte i .read t)) .read (recvLoop n (i + 1) (busNak t))) :
    Completes (issue .recvByte .recv (inByte i .read s)) .read (recvLoop (n + 1) i s) := by
  refine completes_issue (?_ : Completes (goto .memWrite (inByte i .read (busRecvByte s))) .read _)
  rw [recvLoop]
  have hlatch : (busRecvByte s).latch = s.latch := (KeepsCommand.busOp .recvByte s).latch
  generalize busRecvByte s = t at hlatch
  dsimp only
  split
  next ha =>
    refine (Reaches.of_step (engineStep_memWrite ha)).trans ?_
    have hu : (memWriteByte (effAddr t.latch.buf i) t.acc t).latch = s.latch := hlatch
    rw [hu, hlatch]
    split
    next h => exact hack h _ hlatch
    next h => exact hnak h _ hlatch
  next => exact completes_stuckAt _ _ _ _

/-- The byte loop of RECV_BODY, with `n + 1` bytes left of `L.count` (R210). -/
theorem completes_recvLoop (n i : Nat) (s : State) (hn : i + (n + 1) = s.latch.count.toNat) :
    Completes (issue .recvByte .recv (inByte i .read s)) .read (recvLoop (n + 1) i s) := by
  induction n generalizing i s with
  | zero =>
    refine completes_recvByte (fun h => absurd h (by omega)) fun _ t _ => completes_issue ?_
    exact completes_lastStop (busNak t).latch.count (i + 1) .read (busNak t)
  | succ n ih =>
    refine completes_recvByte (fun _ t ht => completes_issue ?_) (fun h => absurd (by omega) h)
    exact ih (i + 1) (busAck t) (by rw [show (busAck t).latch = t.latch from (KeepsCommand.busOp .ack t).latch, ht]; omega)

/-! ### The procedures -/

/-- START and the address byte of phase `ph` (R205, R210, R215, R220). -/
theorem completes_address {ph : Phase} {rest : State → Flow} {s : State}
    (hrest : ∀ t, t.latch = s.latch → Completes (afterAddress (inByte 0 ph t)) ph (rest t)) :
    Completes (beginTransaction ph s) ph
      (handshake (addressByte ph s.latch.f.dev) eNoAckAddr rest (busStart s)) := by
  refine completes_issue (?_ : Completes (advance .start (inByte 0 ph (busStart s))) ph _)
  have hlatch : (busStart s).latch = s.latch := (KeepsCommand.busOp .start s).latch
  have hcall : advance .start (inByte 0 ph (busStart s)) =
      issue (.sendByte (addressByte ph s.latch.f.dev)) .addr (inByte 0 ph (busStart s)) := by
    rw [← hlatch]
    rfl
  rw [hcall]
  exact addressSites.completes fun t ht => hrest t (ht.trans hlatch)

/-- CHECK_ARGS on entry to a procedure (R200, R201). -/
theorem completes_enterTransaction {ph : Phase} {body : State → Flow} {s : State}
    (hbody : 0 < s.latch.count.toNat → Completes (beginTransaction ph s) ph (body s))
    (hinvalid : deliver ph (.ret eInvalidArgument s) = .ret eInvalidArgument s) :
    Completes (enterTransaction ph s) ph (checked body s) := by
  unfold enterTransaction checked
  split
  next h =>
    obtain ⟨hpos, -⟩ := argsOk_bounds h
    exact hbody hpos
  next =>
    unfold Completes
    rw [hinvalid]
    exact reaches_finish _ _

/-- The loop of SEND and MEM_WRITE, from its first byte. -/
theorem completes_sendAll {s : State} (hpos : 0 < s.latch.count.toNat) :
    Completes (goto .memRead (inByte 0 .write s)) .write (sendLoop s.latch.count.toNat 0 s) := by
  obtain ⟨n, hn⟩ := Nat.exists_eq_succ_of_ne_zero (Nat.ne_of_gt hpos)
  rw [hn]
  exact completes_sendLoop n 0 s (by omega)

/-- RECV_BODY, event by event (R210). -/
theorem completes_recvBody {s : State} (hpos : 0 < s.latch.count.toNat) :
    Completes (beginTransaction .read s) .read (recvBody s.latch.f s) := by
  refine completes_address fun t ht => ?_
  obtain ⟨n, hn⟩ := Nat.exists_eq_succ_of_ne_zero (Nat.ne_of_gt hpos)
  rw [hn]
  exact completes_recvLoop n 0 t (by rw [ht]; omega)

/-- SEND, event by event (R205). -/
theorem completes_send {s : State} (hop : s.latch.op = opSend) :
    Completes (enterTransaction .write s) .write (sendProc s.latch.f s) := by
  refine completes_enterTransaction (fun hpos => completes_address fun t ht => ?_) (deliver_write _)
  have hnext : afterAddress (inByte 0 .write t) = goto .memRead (inByte 0 .write t) := if_pos (ht ▸ hop)
  rw [hnext, ← ht]
  exact completes_sendAll (ht ▸ hpos)

/-- RECV, event by event (R210). -/
theorem completes_recv {s : State} (hop : s.latch.op = opRecv) :
    Reaches (enterTransaction .read s) (finishFlow (recvProc s.latch.f s)) := by
  have hdeliver : ∀ x : Flow, x.state.latch = s.latch → deliver .read x = x := by
    intro x hx
    refine if_neg fun h => ?_
    rw [hx, hop] at h
    exact absurd h.1 (by decide)
  have hrun : Completes (enterTransaction .read s) .read (recvProc s.latch.f s) :=
    completes_enterTransaction completes_recvBody (hdeliver _ rfl)
  unfold Completes at hrun
  rwa [hdeliver _ ((recvClosed_keepsCommand s).recvProc s.latch.f s (.refl s)).latch] at hrun

/-- The write phase's head in MEM_WRITE and MEM_READ (R215, R220). -/
theorem completes_register {rest : State → Flow} {s : State} (hop : s.latch.op ≠ opSend)
    (hrest : ∀ t, t.latch = s.latch → Completes (afterRegister (inByte 0 .write t)) .write (rest t)) :
    Completes (beginTransaction .write s) .write
      (handshake (addressByte .write s.latch.f.dev) eNoAckAddr (handshake s.latch.f.reg eNoAckReg rest) (busStart s)) := by
  refine completes_address fun t ht => ?_
  have hnext : afterAddress (inByte 0 .write t) = issue (.sendByte t.latch.f.reg) .reg (inByte 0 .write t) :=
    if_neg (ht ▸ hop)
  rw [hnext, ht]
  exact registerSites.completes fun u hu => hrest u (hu.trans ht)

/-- MEM_WRITE, event by event (R215). -/
theorem completes_memWrite {s : State} (hop : s.latch.op = opMemWrite) :
    Completes (enterTransaction .write s) .write (memWriteProc s.latch.f s) := by
  refine completes_enterTransaction (fun hpos => completes_register (by rw [hop]; decide) fun t ht => ?_)
    (deliver_write _)
  have hnext : afterRegister (inByte 0 .write t) = goto .memRead (inByte 0 .write t) :=
    if_neg (show t.latch.op ≠ opMemRead by rw [ht, hop]; decide)
  rw [hnext, ← ht]
  exact completes_sendAll (ht ▸ hpos)

/-- MEM_READ's delegated read, event by event, with its own CHECK_ARGS (R220, R221). -/
theorem completes_delegated {s : State} (hop : s.latch.op = opMemRead) :
    Completes (afterMidStop (inByte 0 .write s)) .write (afterDelegated (recvProc s.latch.f s)) := by
  unfold Completes
  rw [deliver_write]
  by_cases h : argsOk s.ready s.latch.buf s.latch.count = true
  · have hnext : afterMidStop (inByte 0 .write s) = beginTransaction .read s := if_pos h
    have hproc : recvProc s.latch.f s = recvBody s.latch.f s := if_pos h
    have hlatch := ((recvClosed_keepsCommand s).recvProc s.latch.f s (.refl s)).latch
    have hdeliver : deliver .read (recvProc s.latch.f s) = afterDelegated (recvProc s.latch.f s) :=
      if_pos ⟨by rw [hlatch, hop], rfl⟩
    rw [hnext, ← hdeliver, hproc]
    exact completes_recvBody (argsOk_bounds h).1
  · have hproc : recvProc s.latch.f s = .ret eInvalidArgument s := if_neg h
    have hnext : afterMidStop (inByte 0 .write s) = goto (.finish (shortReadResult eInvalidArgument s.latch.count))
        { inByte 0 .write s with phase := .read, r := eInvalidArgument } := if_neg h
    rw [hproc, hnext]
    exact reaches_finish _ _

/-- MEM_READ, event by event (R220, R225). -/
theorem completes_memRead {s : State} (hop : s.latch.op = opMemRead) :
    Completes (enterTransaction .write s) .write (memReadProc s.latch.f s) := by
  refine completes_enterTransaction (fun _ => completes_register (by rw [hop]; decide) fun t ht => ?_)
    (deliver_write _)
  have hnext : afterRegister (inByte 0 .write t) = issue .stop .midStop (inByte 0 .write t) :=
    if_pos (show t.latch.op = opMemRead by rw [ht, hop])
  have hstop : (busStop t).latch = s.latch := ((KeepsCommand.busOp .stop t).latch).trans ht
  rw [hnext, ← hstop]
  exact completes_issue (completes_delegated (hstop ▸ hop))

/-- INIT past its frequency check, event by event (R132, R133). -/
theorem reaches_init {s : State} :
    Reaches (goto .initConfig s) (finishCommand 0 (setSDA HIGH (setSCL HIGH (initConfigure s)))) :=
  .trans (.of_step (t := goto .initSCL (initConfigure (goto .initConfig s))) rfl) <|
    .trans (.of_step (engineStep_initSCL rfl)) <|
      .trans (.of_step (engineStep_initSDA rfl)) <| .of_step (engineStep_finish rfl)

/-- The procedure of a reserved OP (R103). -/
theorem procOf_reserved {op : BitVec 4} (f : CmdFields) (h : op = 0x0 ∨ op.extractLsb' 1 3 = 0b011 ∨ 8 ≤ op.toNat) :
    procOf op f = reservedProc := by
  have hne : op ≠ opInit ∧ op ≠ opSend ∧ op ≠ opRecv ∧ op ≠ opMemWrite ∧ op ≠ opMemRead := by
    revert op
    decide
  obtain ⟨h1, h2, h3, h4, h5⟩ := hne
  simp only [procOf, h1, h2, h3, h4, h5, if_false]

/-- A reserved OP goes straight to its `finish` (R103, R253). -/
theorem dispatchPos_reserved {s : State}
    (h : s.latch.op = 0x0 ∨ s.latch.op.extractLsb' 1 3 = 0b011 ∨ 8 ≤ s.latch.op.toNat) :
    dispatchPos s = goto (.finish eInvalidArgument) s := by
  unfold dispatchPos
  split
  · rfl
  · obtain hop | hop | hop := h
    · rw [hop]
      rfl
    · rw [decodeOp_67 _ hop]
    · rw [decodeOp_8F _ hop]

/-- INIT with an illegal frequency goes straight to its `finish` (R131, R253). -/
theorem dispatchPos_init_illegal {s : State} (hop : s.latch.op = opInit) (hf : freqLegal s.latch.freq = false) :
    dispatchPos s = goto (.finish eInvalidArgument) s := by
  have hinit : decodeOp s.latch.op s.latch.f = .init s.latch.f := by rw [hop]; rfl
  simp only [dispatchPos, hinit, hf, Bool.false_eq_true, if_false, ite_self]

/-- The phase in which a transaction begins (R205, R210, R215, R220). -/
def firstPhase (op : BitVec 4) : Phase := if op = opRecv then .read else .write

/-- A transaction goes to its CHECK_ARGS (R200, R253). -/
theorem dispatchPos_transaction {s : State} (hres : s.latch.f.reserved = false) (ht : isTransaction s.latch.op = true) :
    dispatchPos s = enterTransaction (firstPhase s.latch.op) s := by
  have hop : s.latch.op = opSend ∨ s.latch.op = opRecv ∨ s.latch.op = opMemWrite ∨ s.latch.op = opMemRead := by
    simpa only [isTransaction, Bool.or_eq_true, beq_iff_eq, or_assoc] using ht
  unfold dispatchPos
  rw [hres]
  obtain hop | hop | hop | hop := hop <;> rw [hop] <;> rfl

/-- The transaction of an OP, event by event. -/
theorem reaches_transaction {s : State} (ht : isTransaction s.latch.op = true) :
    Reaches (enterTransaction (firstPhase s.latch.op) s) (finishFlow (procOf s.latch.op s.latch.f s)) := by
  have hop : s.latch.op = opSend ∨ s.latch.op = opRecv ∨ s.latch.op = opMemWrite ∨ s.latch.op = opMemRead := by
    simpa only [isTransaction, Bool.or_eq_true, beq_iff_eq, or_assoc] using ht
  obtain hop | hop | hop | hop := hop
  · have hproc : procOf s.latch.op s.latch.f s = deliver .write (sendProc s.latch.f s) := by
      rw [hop, deliver_write]
      rfl
    rw [hproc, hop]
    exact completes_send hop
  · have hproc : procOf s.latch.op s.latch.f s = recvProc s.latch.f s := by rw [hop]; rfl
    rw [hproc, hop]
    exact completes_recv hop
  · have hproc : procOf s.latch.op s.latch.f s = deliver .write (memWriteProc s.latch.f s) := by
      rw [hop, deliver_write]
      rfl
    rw [hproc, hop]
    exact completes_memWrite hop
  · have hproc : procOf s.latch.op s.latch.f s = deliver .write (memReadProc s.latch.f s) := by
      rw [hop, deliver_write]
      rfl
    rw [hproc, hop]
    exact completes_memRead hop

/-- OP values: the reserved ones, INIT, and the transactions (R101, R103). -/
theorem op_kinds (op : BitVec 4) :
    (op = 0x0 ∨ op.extractLsb' 1 3 = 0b011 ∨ 8 ≤ op.toNat) ∨ op = opInit ∨ isTransaction op = true := by
  revert op
  decide

/-- From where the dispatcher's checks leave it, the engine completes the command (R252, R253). -/
theorem reaches_dispatchPos (s : State) :
    Reaches (dispatchPos s) (dispatchCommand s.latch.f (procOf s.latch.op s.latch.f) s) := by
  by_cases hres : s.latch.f.reserved = true
  · have hpos : dispatchPos s = goto (.finish eInvalidArgument) s := if_pos hres
    have hcmd : dispatchCommand s.latch.f (procOf s.latch.op s.latch.f) s = finishCommand eInvalidArgument s :=
      if_pos hres
    rw [hpos, hcmd]
    exact reaches_finish _ _
  · have hcmd : dispatchCommand s.latch.f (procOf s.latch.op s.latch.f) s =
        finishFlow (procOf s.latch.op s.latch.f s) := if_neg hres
    rw [Bool.not_eq_true] at hres
    rw [hcmd]
    obtain hop | hop | ht := op_kinds s.latch.op
    · rw [dispatchPos_reserved hop, procOf_reserved _ hop]
      exact reaches_finish _ _
    · have hproc : procOf s.latch.op s.latch.f = initProc := by rw [hop]; rfl
      rw [hproc, initProc]
      split
      next hf =>
        rw [dispatchPos_init hop hres hf]
        exact reaches_init
      next hf =>
        rw [dispatchPos_init_illegal hop (by simpa using hf)]
        exact reaches_finish _ _
    · rw [dispatchPos_transaction hres ht]
      exact reaches_transaction ht

/-! ### The two grains are one machine (spec/10_state.md R50) -/

/-- The dispatcher's checks take no step of their own (R253). -/
theorem engineStep_dispatchPos {s : State} (hp : s.pos = .dispatch) : engineStep s = engineStep (dispatchPos s) := by
  have hs : engineStep s = positionStep (dispatchPos s) := by simp only [engineStep, hp]
  obtain he | ⟨ret, he⟩ | ⟨ph, he⟩ := dispatchPos_cases s <;> rw [hs, he] <;> rfl

/-- From an accepted command the engine reaches what the whole command answers. -/
theorem engineRun_command {s : State} (hp : s.pos = .dispatch) :
    ∃ n, engineRun n s = .next (dispatchCommand s.latch.f (procOf s.latch.op s.latch.f) s) := by
  obtain ⟨n, hn⟩ := reaches_dispatchPos s
  have hmore : engineRun (n + 1) (dispatchPos s) =
      .next (dispatchCommand s.latch.f (procOf s.latch.op s.latch.f) s) := by
    rw [engineRun_next hn]
    simp only [engineRun, engineStep_dispatchCommand]
  refine ⟨n + 1, ?_⟩
  rw [engineRun, engineStep_dispatchPos hp]
  exact hmore

/-- Settles O46: the events of each micro-operation are its bus sequence, and the sequencer's moves between them are the
procedures' control flow. -/
theorem engineStepsRefineExec : Obligations.EngineStepsRefineExec := by
  refine ⟨fun s hp => ?_, fun u site s hp hk => ?_⟩
  · rw [exec_decodeOp]
    exact engineRun_command hp
  · rw [exec_microOp]
    exact engineRun_microOp (decodeUop_encodeUop u) hp hk

end Sys2Proof.Machine

namespace Sys2Proof.Machine

/-! ## A whole-instruction turn is a run of engine steps (spec/10_state.md R50, spec/20_memory.md R84) -/

/-- An instruction turn reaches what some number of engine steps alone reaches. -/
theorem instrStep_engineRun {s t : State} (h : instrStep s = .next t) : ∃ n, engineRun n s = .next t := by
  obtain h | ⟨hp, rfl⟩ | ⟨w, site, u, v, hp, hw, hk, hv, rfl⟩ := instrStep_cases h
  · exact Reaches.of_step h
  · exact engineRun_command hp
  · rw [exec_microOp] at hv
    injection hv with hv
    exact ⟨_, hv ▸ engineRun_microOp hw hp hk⟩

/-- Every step is some engine steps, a host access, or a reset (R84). -/
theorem step_kinds {s t : State} (h : step s = .next t) :
    (∃ n, engineRun n (takeTurn s) = .next t) ∨ (∃ act, hostStep act (takeTurn s) = .next t) ∨
      (resetNext s = true ∧ t = resetBlock (takeTurn s)) := by
  obtain ⟨-, h⟩ | ⟨-, h⟩ | ⟨act, -, h⟩ | ⟨ht, rfl⟩ := step_cases h
  · exact .inl (Reaches.of_step h)
  · exact .inl (instrStep_engineRun h)
  · exact .inr (.inl ⟨act, h⟩)
  · refine .inr (.inr ⟨?_, rfl⟩)
    obtain ⟨rest, hrest⟩ := List.head?_eq_some_iff.mp ht
    simp only [resetNext, hrest]

/-- What every engine step keeps holds after any number of them. -/
theorem engineRun_keeps {P : State → Prop} (hstep : ∀ s t, P s → engineStep s = .next t → P t) {n : Nat} {s t : State}
    (hs : P s) (h : engineRun n s = .next t) : P t := by
  induction n generalizing s with
  | zero =>
    injection h with h
    exact h ▸ hs
  | succ n ih =>
    rw [engineRun] at h
    cases hu : engineStep s with
    | next u =>
      rw [hu] at h
      exact ih (hstep s u hs hu) h
    | fault e =>
      rw [hu] at h
      cases h
    | refused e =>
      rw [hu] at h
      cases h

/-- A transitive relation between the states before and after an engine step holds across any number of them; `P` is
what the engine steps keep meanwhile. -/
theorem engineRun_relates {P : State → Prop} {R : State → State → Prop} (hkeep : ∀ s t, P s → engineStep s = .next t → P t)
    (hrefl : ∀ s, R s s) (htrans : ∀ s t u, R s t → R t u → R s u) (hstep : ∀ s t, P s → engineStep s = .next t → R s t)
    {n : Nat} {s t : State} (hs : P s) (h : engineRun n s = .next t) : R s t :=
  (engineRun_keeps (P := fun u => P u ∧ R s u)
    (fun u v hu hv => ⟨hkeep u v hu.1 hv, htrans _ _ _ hu.2 (hstep u v hu.1 hv)⟩) ⟨hs, hrefl s⟩ h).2

/-! ## What an engine step writes of the host's registers (spec/10_state.md R33, R39) -/

/-- CMD, STATUS, TICK, RESULT and the latched command are as they were. -/
structure KeepsRegisters (s t : State) : Prop where
  cmd : t.cmd = s.cmd
  busy : t.busy = s.busy
  ready : t.ready = s.ready
  tick : t.tick = s.tick
  result : t.result = s.result
  latch : t.latch = s.latch

theorem KeepsRegisters.refl (s : State) : KeepsRegisters s s := ⟨rfl, rfl, rfl, rfl, rfl, rfl⟩

theorem KeepsRegisters.trans {s t u : State} (h : KeepsRegisters s t) (h' : KeepsRegisters t u) : KeepsRegisters s u :=
  ⟨h'.cmd.trans h.cmd, h'.busy.trans h.busy, h'.ready.trans h.ready, h'.tick.trans h.tick, h'.result.trans h.result,
    h'.latch.trans h.latch⟩

theorem KeepsCommand.registers {s t : State} (h : KeepsCommand s t) : KeepsRegisters s t :=
  ⟨h.cmd, h.busy, h.ready, h.tick, h.result, h.latch⟩

theorem SameButControl.registers {s t : State} (h : SameButControl s t) : KeepsRegisters s t :=
  ⟨h.cmd, h.busy, h.ready, h.tick, h.result, h.latch⟩

theorem Prim.run_registers (p : Prim) (s : State) : KeepsRegisters s (p.run s) := by
  cases p <;> exact ⟨rfl, rfl, rfl, rfl, rfl, rfl⟩

theorem clearAccAtEntry_registers (u : MicroOp) (sub : Nat) (s : State) : KeepsRegisters s (clearAccAtEntry u sub s) := by
  unfold clearAccAtEntry
  split <;> exact ⟨rfl, rfl, rfl, rfl, rfl, rfl⟩

theorem nextMicro_registers (u : MicroOp) (w : BitVec 11) (sub : Nat) (site : CallSite) (s : State) :
    KeepsRegisters s (nextMicro u w sub site s) := by
  unfold nextMicro
  split_ifs
  · exact ⟨rfl, rfl, rfl, rfl, rfl, rfl⟩
  · exact ⟨rfl, rfl, rfl, rfl, rfl, rfl⟩
  · exact (SameButControl.advance site s).registers

theorem microStep_registers (u : MicroOp) (w : BitVec 11) (sub : Nat) (site : CallSite) (s : State) :
    KeepsRegisters s (microStep u w sub site s) := by
  unfold microStep
  split
  next p _ =>
    exact ((clearAccAtEntry_registers u sub s).trans (p.run_registers _)).trans (nextMicro_registers u w sub site _)
  next => exact .refl s

theorem bufferReadStep_registers (s : State) : KeepsRegisters s (bufferReadStep s) := by
  unfold bufferReadStep
  split
  · exact (KeepsCommand.memReadByte _ s).registers.trans (SameButControl.issue _ _ _).registers
  · exact .refl s

theorem bufferWriteStep_registers (s : State) : KeepsRegisters s (bufferWriteStep s) := by
  unfold bufferWriteStep
  dsimp only
  split_ifs <;> exact ⟨rfl, rfl, rfl, rfl, rfl, rfl⟩

/-- Only INIT's configuration step and `finish` write one of them. -/
theorem positionStep_registers {s t : State} (h : positionStep s = .next t) :
    KeepsRegisters s t ∨ (s.pos = .initConfig ∧ t = goto .initSCL (initConfigure s)) ∨
      ∃ ret, s.pos = .finish ret ∧ t = finishCommand ret s := by
  cases hp : s.pos with
  | micro w sub site =>
    simp only [positionStep, hp] at h
    split at h
    · injection h with h
      exact .inl (h ▸ microStep_registers _ w sub site s)
    · cases h
  | memRead =>
    simp only [positionStep, hp, Host.Outcome.next.injEq] at h
    exact .inl (h ▸ bufferReadStep_registers s)
  | memWrite =>
    simp only [positionStep, hp, Host.Outcome.next.injEq] at h
    exact .inl (h ▸ bufferWriteStep_registers s)
  | finish ret =>
    simp only [positionStep, hp, Host.Outcome.next.injEq] at h
    exact .inr (.inr ⟨ret, rfl, h.symm⟩)
  | initConfig =>
    simp only [positionStep, hp, Host.Outcome.next.injEq] at h
    exact .inr (.inl ⟨rfl, h.symm⟩)
  | idle | dispatch | initSCL | initSDA =>
    simp only [positionStep, hp, Host.Outcome.next.injEq] at h
    exact .inl (h ▸ ⟨rfl, rfl, rfl, rfl, rfl, rfl⟩)

/-! ## The invariant at every move of the sequencer -/

/-- The invariant of a running command, but for the lines and the position. -/
structure Running (s : State) : Prop where
  busy : s.busy = true
  handle : if s.ready = true then 1 ≤ s.tick.toNat ∧ s.tick.toNat ≤ 250000 else s.tick = 0
  latched : s.latch.op = opOf s.cmd ∧ s.latch.f = cmdFieldsOf s.cmd
  result : LegalResult s.result
  memory : Memory.wf s.mem = true

/-- The pins have the levels that `l` fixes. -/
def PinsAre (l : Level × Option Level) (s : State) : Prop := s.sclO = l.1 ∧ ∀ b, l.2 = some b → s.sdaO = b

theorem State.Inv.running {s : State} (h : s.Inv) (hp : s.pos ≠ .idle) : Running s :=
  ⟨h.lifecycle.mpr hp, h.handle, h.latched (h.lifecycle.mpr hp), h.result, h.memory⟩

theorem Running.inv {s : State} (h : Running s) (hp : s.pos ≠ .idle) (hl : PinsAre (expectedLines s) s) (hpos : posOk s) :
    s.Inv where
  handle := h.handle
  lifecycle := ⟨fun _ => hp, fun _ => h.busy⟩
  latched _ := h.latched
  lines := hl
  position := hpos
  result := h.result
  memory := h.memory
  races hb := absurd (h.busy.symm.trans hb) (by decide)

theorem Running.of_registers {s t : State} (h : Running s) (hr : KeepsRegisters s t) (hm : Memory.wf t.mem = true) :
    Running t := by
  obtain ⟨hcmd, hbusy, hready, htick, hresult, hlatch⟩ := hr
  refine ⟨hbusy.trans h.busy, ?_, ?_, ?_, hm⟩
  · rw [hready, htick]
    exact h.handle
  · rw [hlatch, hcmd]
    exact h.latched
  · rw [hresult]
    exact h.result

/-! ### The working state at a call site depends on the latched command, READY, the byte index and the phase only -/

/-- The fields that tell where a transaction is. -/
structure SamePlace (s t : State) : Prop where
  ready : t.ready = s.ready
  latch : t.latch = s.latch
  i : t.i = s.i
  phase : t.phase = s.phase

theorem SamePlace.inTransaction {s t : State} (h : SamePlace s t) (hs : InTransaction s) : InTransaction t := by
  unfold InTransaction
  rw [h.latch, h.ready, h.phase]
  exact hs

theorem SamePlace.inSendLoop {s t : State} (h : SamePlace s t) (hs : InSendLoop s) : InSendLoop t := by
  unfold InSendLoop bytesWanted
  rw [h.latch, h.i, h.phase]
  exact hs

theorem SamePlace.siteOk {s t : State} (h : SamePlace s t) {site : CallSite} (hs : siteOk s site) : siteOk t site := by
  cases site <;> simp only [Machine.siteOk, InSendLoop, InRecvLoop, bytesWanted, h.latch, h.i, h.phase] at hs ⊢ <;> exact hs

theorem SamePlace.siteRuns {s t : State} (h : SamePlace s t) {site : CallSite} {u : MicroOp} (hs : siteRuns s site u) :
    siteRuns t site u := by
  cases site <;> simp only [Machine.siteRuns, h.latch, h.phase] at hs ⊢ <;> exact hs

/-! ### Calls and moves -/

/-- A call meets the invariant where its site allows it and the lines are as the micro-operation finds them (R159). -/
theorem Running.issue {s : State} (h : Running s) (ht : InTransaction s) {u : MicroOp} {site : CallSite}
    (hsite : siteOk s site) (hruns : siteRuns s site u) (hl : PinsAre (entryLines u (topBit u) s.i) s) :
    (issue u site s).Inv := by
  have hsame : SamePlace s (Machine.issue u site s) := ⟨rfl, rfl, rfl, rfl⟩
  have hlines : expectedLines (Machine.issue u site s) = entryLines u (topBit u) s.i := by
    simp only [expectedLines, issue_pos, decodeUop_encodeUop, List.take_zero, linesAfter, issue_k, issue_i]
  refine (h.of_registers (SameButControl.issue u site s).registers h.memory).inv (by simp) ?_ ?_
  · rw [hlines]
    exact hl
  · exact ⟨hsame.inTransaction ht, hsame.siteOk hsite, u, decodeUop_encodeUop u, hsame.siteRuns hruns, Nat.le_refl _,
      bitSteps_length_pos u _⟩

theorem Running.finish {s : State} (h : Running s) {ret : Word} (hret : LegalResult ret) (hl : LinesHigh s) :
    (goto (.finish ret) s).Inv := by
  refine (h.of_registers (SameButControl.goto _ s).registers h.memory).inv (by simp) ⟨hl.1, fun b hb => ?_⟩ hret
  injection hb with hb
  exact hl.2.trans hb

theorem Running.memRead {s : State} (h : Running s) (ht : InTransaction s) (hloop : InSendLoop s)
    (hl : PinsAre (LOW, some HIGH) s) : (goto .memRead s).Inv :=
  (h.of_registers (SameButControl.goto _ s).registers h.memory).inv (by simp) hl ⟨ht, hloop⟩

theorem Running.memWrite {s : State} (h : Running s) (ht : InTransaction s) (hloop : InRecvLoop s)
    (hl : PinsAre (HIGH, some (s.i == 0)) s) : (goto .memWrite s).Inv :=
  (h.of_registers (SameButControl.goto _ s).registers h.memory).inv (by simp) hl ⟨ht, hloop⟩

theorem legalResult_count {s : State} (h : InTransaction s) : LegalResult s.latch.count := by
  obtain ⟨-, hargs, -⟩ := h
  exact .inl (argsOk_bounds hargs).2.1

theorem legalResult_shortRead {s : State} (h : InTransaction s) (ret : Word) :
    LegalResult (shortReadResult ret s.latch.count) := by
  unfold shortReadResult
  split
  · exact legalResult_count h
  · exact .inr (by decide)

theorem InTransaction.count_pos {s : State} (h : InTransaction s) : 0 < bytesWanted s := by
  obtain ⟨-, hargs, -⟩ := h
  exact (argsOk_bounds hargs).1

/-- The phases a transaction's OP has (R205, R210, R215, R220). -/
def PhaseOf (op : BitVec 4) (ph : Phase) : Prop :=
  (ph = .write → op = opSend ∨ op = opMemWrite ∨ op = opMemRead) ∧ (ph = .read → op = opRecv ∨ op = opMemRead)

/-- A phase's START, called with both lines HIGH (R159). -/
theorem Running.begin {s : State} (h : Running s) {ph : Phase} (hres : s.latch.f.reserved = false)
    (hargs : argsOk s.ready s.latch.buf s.latch.count = true) (hph : PhaseOf s.latch.op ph) (hl : LinesHigh s) :
    (beginTransaction ph s).Inv := by
  have hrun : Running { s with phase := ph, i := 0 } := h.of_registers ⟨rfl, rfl, rfl, rfl, rfl, rfl⟩ h.memory
  have ht : InTransaction { s with phase := ph, i := 0 } := ⟨hres, hargs, hph⟩
  refine hrun.issue ht (site := .start) (u := .start) rfl rfl ⟨hl.1, fun b hb => ?_⟩
  injection hb with hb
  exact hl.2.trans hb

section
variable {s : State} (h : Running s) (ht : InTransaction s)
include h ht

/-- The abort's STOP after a failed handshake (R255). -/
theorem enterAbort_inv {code : Word} (hcode : LegalResult code) (hl : PinsAre (LOW, some HIGH) s) :
    (enterAbort code s).Inv :=
  h.issue ht (site := .lastStop code) (u := .stop) hcode rfl hl

theorem afterAddress_inv (hi : s.i = 0) (hl : PinsAre (LOW, some HIGH) s) : (afterAddress s).Inv := by
  have hpos : s.i < bytesWanted s := hi ▸ ht.count_pos
  obtain ⟨-, -, hwrite, -⟩ := id ht
  unfold afterAddress
  split
  next hph =>
    refine h.issue ht (site := .recv) (u := .recvByte) ⟨hph, hpos⟩ rfl ?_
    rw [hi]
    exact hl
  next hph =>
    split
    next hop => exact h.memRead ht ⟨hph, .inl hop, hpos⟩ hl
    next hop =>
      have hops : s.latch.op = opMemWrite ∨ s.latch.op = opMemRead := (hwrite hph).resolve_left hop
      exact h.issue ht (site := .reg) ⟨hi, hph, hops⟩ rfl ⟨hl.1, fun _ hb => by cases hb⟩

theorem afterRegister_inv (hsite : siteOk s .regAck) (hl : PinsAre (LOW, some HIGH) s) : (afterRegister s).Inv := by
  obtain ⟨hi, hph, hop⟩ := hsite
  unfold afterRegister
  split
  next hread => exact h.issue ht (site := .midStop) (u := .stop) ⟨hi, hph, hread⟩ rfl hl
  next hread => exact h.memRead ht ⟨hph, .inr (hop.resolve_right hread), hi ▸ ht.count_pos⟩ hl

theorem afterDataSent_inv (hloop : InSendLoop s) (hl : PinsAre (LOW, some HIGH) s) : (afterDataSent s).Inv := by
  obtain ⟨hph, hop, -⟩ := hloop
  have hrun : Running { s with i := s.i + 1 } := h.of_registers ⟨rfl, rfl, rfl, rfl, rfl, rfl⟩ h.memory
  unfold afterDataSent
  split
  next hi => exact hrun.memRead ht ⟨hph, hop, hi⟩ hl
  next => exact hrun.issue ht (site := .lastStop s.latch.count) (u := .stop) (legalResult_count ht) rfl hl

theorem afterMidStop_inv (hsite : siteOk s .midStop) (hl : LinesHigh s) : (afterMidStop s).Inv := by
  obtain ⟨-, -, hop⟩ := hsite
  obtain ⟨hres, hargs, -⟩ := ht
  unfold afterMidStop
  rw [if_pos hargs]
  exact h.begin hres hargs ⟨(fun hph => by cases hph), fun _ => .inr hop⟩ hl

theorem afterReturn_inv {ret : Word} (hret : LegalResult ret) (hl : LinesHigh s) : (afterReturn ret s).Inv := by
  unfold afterReturn
  split
  · have hrun : Running { s with r := ret } := h.of_registers ⟨rfl, rfl, rfl, rfl, rfl, rfl⟩ h.memory
    exact hrun.finish (legalResult_shortRead ht ret) hl
  · exact h.finish hret hl

/-- The return of a micro-operation to its caller meets the invariant: the lines that it leaves are those that the
caller's next step finds (R159). -/
theorem advance_inv {site : CallSite} {u : MicroOp} (hsite : siteOk s site) (hruns : siteRuns s site u)
    (hl : PinsAre (linesAfter (bitSteps u 0) (entryLines u 0 s.i)) s) : (advance site s).Inv := by
  have hhigh : PinsAre (HIGH, some HIGH) s → LinesHigh s := fun hp => ⟨hp.1, hp.2 HIGH rfl⟩
  cases site with
  | start =>
    obtain rfl : u = .start := hruns
    exact h.issue ht (site := .addr) hsite rfl ⟨hl.1, fun _ hb => by cases hb⟩
  | addr =>
    obtain rfl := hruns
    exact h.issue ht (site := .addrAck) (u := .waitAck) hsite rfl ⟨hl.1, fun _ hb => by cases hb⟩
  | addrAck =>
    obtain rfl : u = .waitAck := hruns
    simp only [advance]
    split
    · exact enterAbort_inv h ht (.inr (by decide)) hl
    · exact afterAddress_inv h ht hsite hl
  | reg =>
    obtain rfl := hruns
    exact h.issue ht (site := .regAck) (u := .waitAck) hsite rfl ⟨hl.1, fun _ hb => by cases hb⟩
  | regAck =>
    obtain rfl : u = .waitAck := hruns
    simp only [advance]
    split
    · exact enterAbort_inv h ht (.inr (by decide)) hl
    · exact afterRegister_inv h ht hsite hl
  | data =>
    obtain ⟨v, rfl⟩ := hruns
    exact h.issue ht (site := .dataAck) (u := .waitAck) hsite rfl ⟨hl.1, fun _ hb => by cases hb⟩
  | dataAck =>
    obtain rfl : u = .waitAck := hruns
    simp only [advance]
    split
    · exact enterAbort_inv h ht (.inr (by decide)) hl
    · exact afterDataSent_inv h ht hsite hl
  | recv =>
    obtain rfl : u = .recvByte := hruns
    exact h.memWrite ht hsite hl
  | ackSig =>
    obtain rfl : u = .ack := hruns
    obtain ⟨⟨hph, -⟩, hi⟩ := hsite
    have hrun : Running { s with i := s.i + 1 } := h.of_registers ⟨rfl, rfl, rfl, rfl, rfl, rfl⟩ h.memory
    exact hrun.issue ht (site := .recv) (u := .recvByte) ⟨hph, hi⟩ rfl hl
  | nakSig =>
    obtain rfl : u = .nak := hruns
    have hrun : Running { s with i := s.i + 1 } := h.of_registers ⟨rfl, rfl, rfl, rfl, rfl, rfl⟩ h.memory
    exact hrun.issue ht (site := .lastStop s.latch.count) (u := .stop) (legalResult_count ht) rfl hl
  | midStop =>
    obtain rfl : u = .stop := hruns
    exact afterMidStop_inv h ht hsite (hhigh hl)
  | lastStop ret =>
    obtain rfl : u = .stop := hruns
    exact afterReturn_inv h ht hsite (hhigh hl)
  | bare => exact absurd hsite id

end

/-! ### Steps -/

theorem pinsAre_run {l : Level × Option Level} {s : State} (h : PinsAre l s) (p : Prim) : PinsAre (p.lines l) (p.run s) := by
  obtain ⟨hscl, hsda⟩ := h
  cases p with
  | scl b => exact ⟨rfl, hsda⟩
  | sda b => exact ⟨hscl, fun c hc => by injection hc⟩
  | delay | sampleAck | sampleBit => exact ⟨hscl, hsda⟩

/-- The lines that one bit of a byte leaves are those that the next bit down finds (R180, R182). -/
theorem pinsAre_nextBit {u : MicroOp} {k i : Nat} {s : State} (hk : 0 < k) (hle : k ≤ topBit u)
    (h : PinsAre (linesAfter (bitSteps u k) (entryLines u k i)) s) : PinsAre (entryLines u (k - 1) i) s := by
  cases u with
  | sendByte v => exact ⟨h.1, fun _ hb => by cases hb⟩
  | recvByte =>
    have hk7 : (k - 1 != 7) = true := by
      simp only [topBit] at hle
      simp only [bne_iff_ne]
      omega
    refine ⟨h.1.trans ?_, h.2⟩
    exact hk7.symm
  | start | stop | ack | nak | waitAck => exact absurd hk (Nat.not_lt.mpr hle)

theorem Prim.run_mem (p : Prim) (s : State) : (p.run s).mem = s.mem := by
  cases p <;> rfl

theorem clearAccAtEntry_place (u : MicroOp) (sub : Nat) (s : State) :
    SamePlace s (clearAccAtEntry u sub s) ∧ (clearAccAtEntry u sub s).k = s.k ∧ (clearAccAtEntry u sub s).mem = s.mem ∧
      ∀ l, PinsAre l s → PinsAre l (clearAccAtEntry u sub s) := by
  unfold clearAccAtEntry
  split <;> exact ⟨⟨rfl, rfl, rfl, rfl⟩, rfl, rfl, fun _ hl => hl⟩

theorem Prim.run_place (p : Prim) (s : State) : SamePlace s (p.run s) ∧ (p.run s).k = s.k := by
  obtain ⟨-, hk, hi, hph⟩ := p.run_control s
  obtain ⟨-, -, hready, -, -, hlatch⟩ := p.run_registers s
  exact ⟨⟨hready, hlatch, hi, hph⟩, hk⟩

/-- What the invariant says at a step of a micro-operation. -/
theorem State.Inv.atMicro {s : State} (h : s.Inv) {w : BitVec 11} {sub : Nat} {site : CallSite} {u : MicroOp}
    (hp : s.pos = .micro w sub site) (hw : decodeUop w = .ok u) :
    (InTransaction s ∧ siteOk s site ∧ siteRuns s site u ∧ s.k ≤ topBit u ∧ sub < (bitSteps u s.k).length) ∧
      PinsAre (linesAfter ((bitSteps u s.k).take sub) (entryLines u s.k s.i)) s := by
  have hpos := h.position
  have hl : PinsAre (expectedLines s) s := h.lines
  simp only [posOk, hp] at hpos
  simp only [expectedLines, hp, hw] at hl
  obtain ⟨ht, hsite, u', hw', hruns, hk, hsub⟩ := hpos
  obtain rfl : u' = u := Except.ok.inj (hw'.symm.trans hw)
  exact ⟨⟨ht, hsite, hruns, hk, hsub⟩, hl⟩

/-- The move after a micro-operation's step: to the next step, the next bit, or the caller. -/
theorem nextMicro_inv {s : State} (h : Running s) (ht : InTransaction s) {w : BitVec 11} {sub : Nat} {site : CallSite}
    {u : MicroOp} (hw : decodeUop w = .ok u) (hsite : siteOk s site) (hruns : siteRuns s site u) (hk : s.k ≤ topBit u)
    (hl : PinsAre (linesAfter ((bitSteps u s.k).take (sub + 1)) (entryLines u s.k s.i)) s) :
    (nextMicro u w sub site s).Inv := by
  have hstand : ∀ sub' k, k ≤ topBit u → sub' < (bitSteps u k).length →
      PinsAre (linesAfter ((bitSteps u k).take sub') (entryLines u k s.i)) s → (stand (.micro w sub' site) k s).Inv := by
    intro sub' k hk' hsub' hl'
    have hsame : SamePlace s (stand (.micro w sub' site) k s) := ⟨rfl, rfl, rfl, rfl⟩
    have hrun : Running (stand (.micro w sub' site) k s) := h.of_registers ⟨rfl, rfl, rfl, rfl, rfl, rfl⟩ h.memory
    have hlines : expectedLines (stand (.micro w sub' site) k s) =
        linesAfter ((bitSteps u k).take sub') (entryLines u k s.i) := by
      simp only [expectedLines, stand, hw]
    refine hrun.inv (by simp [stand]) ?_
      ⟨hsame.inTransaction ht, hsame.siteOk hsite, u, hw, hsame.siteRuns hruns, hk', hsub'⟩
    rw [hlines]
    exact hl'
  unfold nextMicro
  split_ifs with hsub hpos
  · exact hstand (sub + 1) s.k hk hsub hl
  · rw [List.take_of_length_le (Nat.not_lt.mp hsub)] at hl
    exact hstand 0 (s.k - 1) (Nat.le_trans (Nat.sub_le _ _) hk) (bitSteps_length_pos u _) (pinsAre_nextBit hpos hk hl)
  · rw [List.take_of_length_le (Nat.not_lt.mp hsub), Nat.eq_zero_of_not_pos hpos] at hl
    exact advance_inv h ht hsite hruns hl

theorem microStep_inv {s : State} (h : s.Inv) {w : BitVec 11} {sub : Nat} {site : CallSite} {u : MicroOp}
    (hp : s.pos = .micro w sub site) (hw : decodeUop w = .ok u) : (microStep u w sub site s).Inv := by
  obtain ⟨⟨ht, hsite, hruns, hk, hsub⟩, hl⟩ := h.atMicro hp hw
  have hget := List.getElem?_eq_getElem hsub
  obtain ⟨hplace, hkc, hmem, hpins⟩ := clearAccAtEntry_place u sub s
  have hreg := clearAccAtEntry_registers u sub s
  unfold microStep
  rw [hget]
  generalize (bitSteps u s.k)[sub] = p at hget
  generalize clearAccAtEntry u sub s = t at hplace hkc hmem hpins hreg
  obtain ⟨hplace', hkr⟩ := p.run_place t
  have hsame : SamePlace s (p.run t) := ⟨hplace'.ready.trans hplace.ready, hplace'.latch.trans hplace.latch,
    hplace'.i.trans hplace.i, hplace'.phase.trans hplace.phase⟩
  have hrun : Running (p.run t) := (h.running (by simp [hp])).of_registers (hreg.trans (p.run_registers t))
    (by rw [p.run_mem, hmem]; exact h.memory)
  refine nextMicro_inv hrun (hsame.inTransaction ht) hw (hsame.siteOk hsite) (hsame.siteRuns hruns)
    (by rw [hkr, hkc]; exact hk) ?_
  rw [hkr, hkc, hsame.i, linesAfter_take hget]
  exact pinsAre_run (hpins _ hl) p

theorem memReadByte_place (a : Nat) (s : State) :
    SamePlace s (memReadByte a s).2 ∧ (memReadByte a s).2.mem = s.mem ∧ (memReadByte a s).2.sclO = s.sclO := by
  obtain ⟨n, e, h⟩ := memReadByte_state a s
  rw [h]
  exact ⟨⟨rfl, rfl, rfl, rfl⟩, rfl, rfl⟩

theorem bufferReadStep_inv {s : State} (h : s.Inv) (hp : s.pos = .memRead) : (bufferReadStep s).Inv := by
  obtain ⟨ht, hloop⟩ : InTransaction s ∧ InSendLoop s := by simpa only [posOk, hp] using h.position
  have hclock : s.sclO = LOW := by
    have hl := h.lines.1
    rwa [show expectedLines s = (LOW, some HIGH) by simp only [expectedLines, hp]] at hl
  unfold bufferReadStep
  split
  next =>
    obtain ⟨hplace, hmem, hscl⟩ := memReadByte_place (effAddr s.latch.buf s.i) s
    have hrun := (h.running (by simp [hp])).of_registers (KeepsCommand.memReadByte (effAddr s.latch.buf s.i) s).registers
      (by rw [hmem]; exact h.memory)
    exact hrun.issue (hplace.inTransaction ht) (site := .data) (hplace.inSendLoop hloop) ⟨_, rfl⟩
      ⟨hscl.trans hclock, fun _ hb => by cases hb⟩
  next => exact h

theorem bufferWriteStep_inv {s : State} (h : s.Inv) (hp : s.pos = .memWrite) : (bufferWriteStep s).Inv := by
  obtain ⟨ht, hloop⟩ : InTransaction s ∧ InRecvLoop s := by simpa only [posOk, hp] using h.position
  have hl : PinsAre (HIGH, some (s.i == 0)) s := by
    have hl : PinsAre (expectedLines s) s := h.lines
    rwa [show expectedLines s = (HIGH, some (s.i == 0)) by simp only [expectedLines, hp]] at hl
  unfold bufferWriteStep
  split
  next ha =>
    have hrun : Running (memWriteByte (effAddr s.latch.buf s.i) s.acc s) := (h.running (by simp [hp])).of_registers
      (KeepsCommand.memWriteByte _ _ s).registers (Memory.write_wf h.memory (portAdmits_lt ha) _)
    dsimp only
    split
    next hi => exact hrun.issue ht (site := .ackSig) (u := .ack) ⟨hloop, hi⟩ rfl hl
    next hi =>
      have hlast : s.i + 1 = bytesWanted s := Nat.le_antisymm hloop.2 (Nat.not_lt.mp hi)
      exact hrun.issue ht (site := .nakSig) (u := .nak) ⟨hloop, hlast⟩ rfl hl
  next => exact h

theorem phaseOf_firstPhase {op : BitVec 4} (h : isTransaction op = true) : PhaseOf op (firstPhase op) := by
  unfold PhaseOf
  revert op
  decide

/-- The dispatcher's checks meet the invariant (R253). -/
theorem dispatchPos_inv {s : State} (h : s.Inv) (hp : s.pos = .dispatch) : (dispatchPos s).Inv := by
  have hrun : Running s := h.running (by simp [hp])
  have hl : LinesHigh s := h.linesHigh_dispatch hp
  have hfail : (goto (.finish eInvalidArgument) s).Inv := hrun.finish (.inr (by decide)) hl
  by_cases hres : s.latch.f.reserved = true
  · have hpos : dispatchPos s = goto (.finish eInvalidArgument) s := if_pos hres
    rwa [hpos]
  · rw [Bool.not_eq_true] at hres
    obtain hop | hop | hop := op_kinds s.latch.op
    · rwa [dispatchPos_reserved hop]
    · by_cases hf : freqLegal s.latch.freq = true
      · rw [dispatchPos_init hop hres hf]
        exact (hrun.of_registers (SameButControl.goto _ s).registers h.memory).inv (by simp)
          ⟨hl.1, fun b hb => hl.2.trans (Option.some.inj hb)⟩ ⟨hres, hop, hf⟩
      · rwa [dispatchPos_init_illegal hop (by simpa using hf)]
    · rw [dispatchPos_transaction hres hop, enterTransaction]
      split
      next hargs =>
        exact hrun.begin hres hargs (phaseOf_firstPhase hop) hl
      next => exact hfail

/-- `finish` meets the invariant (R252). -/
theorem finishCommand_inv {s : State} (h : Running s) {ret : Word} (hret : LegalResult ret) (hl : LinesHigh s) :
    (finishCommand ret s).Inv where
  handle := h.handle
  lifecycle := ⟨fun hb => Bool.noConfusion hb, fun hp => absurd rfl hp⟩
  latched hb := by cases hb
  lines := ⟨hl.1, fun b hb => hl.2.trans (Option.some.inj hb)⟩
  position := trivial
  result := hret
  memory := h.memory
  races _ := rfl

theorem positionStep_inv {s t : State} (h : s.Inv) (hst : positionStep s = .next t) : t.Inv := by
  have hhigh : expectedLines s = (HIGH, some HIGH) → PinsAre (HIGH, some HIGH) s := fun he => he ▸ h.lines
  cases hp : s.pos with
  | micro w sub site =>
    simp only [positionStep, hp] at hst
    split at hst
    next u hw =>
      injection hst with hst
      exact hst ▸ microStep_inv h hp hw
    next => cases hst
  | memRead =>
    simp only [positionStep, hp, Host.Outcome.next.injEq] at hst
    exact hst ▸ bufferReadStep_inv h hp
  | memWrite =>
    simp only [positionStep, hp, Host.Outcome.next.injEq] at hst
    exact hst ▸ bufferWriteStep_inv h hp
  | finish ret =>
    simp only [positionStep, hp, Host.Outcome.next.injEq] at hst
    have hret : LegalResult ret := by simpa only [posOk, hp] using h.position
    exact hst ▸ finishCommand_inv (h.running (by simp [hp])) hret (h.linesHigh_finish hp)
  | initConfig =>
    simp only [positionStep, hp, Host.Outcome.next.injEq] at hst
    subst hst
    have hrun : Running s := h.running (by simp [hp])
    have hl := hhigh (by simp only [expectedLines, hp])
    obtain ⟨hres, hop, hf⟩ : s.latch.f.reserved = false ∧ s.latch.op = opInit ∧ freqLegal s.latch.freq = true := by
      simpa only [posOk, hp] using h.position
    have hconf : Running (goto .initSCL (initConfigure s)) := ⟨hrun.busy, tickOf_range hf, hrun.latched, hrun.result, hrun.memory⟩
    exact hconf.inv (by simp) hl ⟨hres, hop, rfl⟩
  | initSCL =>
    simp only [positionStep, hp, Host.Outcome.next.injEq] at hst
    subst hst
    have hl := hhigh (by simp only [expectedLines, hp])
    have hpos : s.latch.f.reserved = false ∧ s.latch.op = opInit ∧ s.ready = true := by
      simpa only [posOk, hp] using h.position
    have hrun : Running (goto .initSDA (setSCL HIGH s)) :=
      (h.running (by simp [hp])).of_registers ⟨rfl, rfl, rfl, rfl, rfl, rfl⟩ h.memory
    exact hrun.inv (by simp) ⟨rfl, hl.2⟩ hpos
  | initSDA =>
    simp only [positionStep, hp, Host.Outcome.next.injEq] at hst
    subst hst
    have hl := hhigh (by simp only [expectedLines, hp])
    have hrun : Running (setSDA HIGH s) :=
      (h.running (by simp [hp])).of_registers ⟨rfl, rfl, rfl, rfl, rfl, rfl⟩ h.memory
    exact hrun.finish (.inl (by decide)) ⟨hl.1, rfl⟩
  | idle | dispatch =>
    simp only [positionStep, hp, Host.Outcome.next.injEq] at hst
    exact hst ▸ h

theorem engineStep_inv {s t : State} (h : s.Inv) (hst : engineStep s = .next t) : t.Inv := by
  obtain he | ⟨hp, he⟩ := engineStep_eq s <;> rw [he] at hst
  · exact positionStep_inv h hst
  · exact positionStep_inv (dispatchPos_inv h hp) hst

/-! ## The host's accesses and reset -/

/-- FREQ, BUF and COUNT, the schedule and what the host agent has of its own. -/
def withHostSide (f b c : Word) (ts : List Turn) (rd : List Word) (n : Nat) (stuck : Bool) (s : State) : State :=
  { s with freq := f, buf := b, count := c, turns := ts, reads := rd, races := n, hostStuck := stuck }

/-- A write to CMD while BUSY = 0 is accepted, whatever the word (R32, R252). -/
theorem writeReg_cmd_idle {s : State} (v : Word) (hb : s.busy = false) :
    writeReg offCmd v s = .next (acceptCommand v s) := by
  simp [writeReg, hb]

/-- A write to another register changes FREQ, BUF or COUNT at most (R41). -/
theorem writeReg_other {off : Word} (v : Word) (s : State) (h : off ≠ offCmd) :
    ∃ f b c, writeReg off v s = .next { s with freq := f, buf := b, count := c } := by
  unfold writeReg
  rw [if_neg h]
  split_ifs <;> exact ⟨_, _, _, rfl⟩

theorem windowOffset_eq_offCmd {s : State} {a : Word} (h : windowOffset s a = offCmd) : a = s.plat.base := by
  simp only [windowOffset, offCmd] at h
  bv_omega

/-- A host access that answers a next state is an accepted CMD write, or a byte store to system memory, or changes only
FREQ, BUF, COUNT and what the host agent has of its own (R32, R41, R51). -/
theorem hostStep_cases {act : HostAct} {s t : State} (h : hostStep act s = .next t) :
    (s.busy = false ∧ ∃ w, act = .store s.plat.base 4 w ∧ t = acceptCommand w s) ∨
      (∃ a v, act = .memStore a v ∧ s.hostStuck = false ∧ inWindow s a = false ∧ t = hostStoreByte a.toNat v s) ∨
      (∃ f b c ts rd n stuck, t = withHostSide f b c ts rd n stuck s) := by
  have hside : ∀ u, u = s ∨ u = hostStops s → ∃ f b c ts rd n stuck, u = withHostSide f b c ts rd n stuck s := by
    rintro u (rfl | rfl) <;> exact ⟨_, _, _, _, _, _, _, rfl⟩
  unfold hostStep at h
  split at h
  next => exact .inr (.inr (hside t (.inl (Host.Outcome.next.inj h).symm)))
  next hstuck =>
    cases act with
    | store a width v =>
      simp only [hostAccess] at h
      split at h
      next hadm =>
        obtain rfl : width = 4 := by
          simp only [windowAdmits, Bool.and_eq_true, decide_eq_true_eq] at hadm
          exact hadm.1.1
        by_cases hoff : windowOffset s a = offCmd
        · rw [hoff] at h
          cases hb : s.busy with
          | true => rw [writeReg_cmd_busy v hb] at h; cases h
          | false =>
            rw [writeReg_cmd_idle v hb] at h
            exact .inl ⟨rfl, v, by rw [windowOffset_eq_offCmd hoff], (Host.Outcome.next.inj h).symm⟩
        · obtain ⟨f, b, c, hw⟩ := writeReg_other v s hoff
          exact .inr (.inr ⟨_, _, _, _, _, _, _, Host.Outcome.next.inj (h.symm.trans hw)⟩)
      next => exact .inr (.inr (hside t (.inr (Host.Outcome.next.inj h).symm)))
    | load a width =>
      simp only [hostAccess] at h
      split at h <;> injection h with h
      · exact .inr (.inr ⟨_, _, _, _, _, _, _, h.symm⟩)
      · exact .inr (.inr (hside t (.inr h.symm)))
    | memStore a v =>
      simp only [hostAccess, Host.Outcome.next.injEq] at h
      split at h
      next => exact .inr (.inr (hside t (.inr h.symm)))
      next hw => exact .inr (.inl ⟨a, v, rfl, by simpa using hstuck, by simpa using hw, h.symm⟩)
    | memLoad a =>
      simp only [hostAccess, Host.Outcome.next.injEq] at h
      split at h
      next => exact .inr (.inr (hside t (.inr h.symm)))
      next =>
        obtain ⟨n, rd, hload⟩ := hostLoadByte_state a.toNat s
        exact .inr (.inr ⟨_, _, _, _, _, _, _, h.symm.trans hload⟩)
    | poll =>
      simp only [hostAccess, Host.Outcome.next.injEq] at h
      split at h <;> exact .inr (.inr ⟨_, _, _, _, _, _, _, h.symm⟩)

theorem withHostSide_inv {s : State} (h : s.Inv) (f b c : Word) (ts : List Turn) (rd : List Word) (n : Nat)
    (stuck : Bool) : (withHostSide f b c ts rd n stuck s).Inv :=
  ⟨h.handle, h.lifecycle, h.latched, h.lines, h.position, h.result, h.memory, h.races⟩

/-- Acceptance in an idle block meets the invariant: the latched command is CMD's (R48, R252). -/
theorem acceptCommand_inv {s : State} (h : s.Inv) (hb : s.busy = false) (w : Word) : (acceptCommand w s).Inv := by
  obtain ⟨hscl, hsda⟩ := h.idleHigh hb
  have hrun : Running (acceptCommand w s) := ⟨rfl, h.handle, ⟨rfl, rfl⟩, h.result, h.memory⟩
  exact hrun.inv (by simp) ⟨hscl, fun _ hlevel => hsda.trans (Option.some.inj hlevel)⟩ trivial

theorem hostStoreByte_inv {s : State} (h : s.Inv) (a : Word) (v : Byte) : (hostStoreByte a.toNat v s).Inv := by
  have hmem : Memory.wf (Memory.write s.mem a.toNat v) = true := Memory.write_wf h.memory a.isLt v
  unfold hostStoreByte
  dsimp only
  split
  next hact =>
    have hbusy : s.busy = true := by
      simp only [activeByte, Bool.and_eq_true] at hact
      exact hact.1.1.1
    exact ⟨h.handle, h.lifecycle, h.latched, h.lines, h.position, h.result, hmem,
      fun hb => absurd (hbusy.symm.trans hb) (by decide)⟩
  next => exact ⟨h.handle, h.lifecycle, h.latched, h.lines, h.position, h.result, hmem, h.races⟩

theorem hostStep_inv {act : HostAct} {s t : State} (h : s.Inv) (hst : hostStep act s = .next t) : t.Inv := by
  obtain ⟨hb, w, -, rfl⟩ | ⟨a, v, -, -, -, rfl⟩ | ⟨f, b, c, ts, rd, n, stuck, rfl⟩ := hostStep_cases hst
  · exact acceptCommand_inv h hb w
  · exact hostStoreByte_inv h a v
  · exact withHostSide_inv h f b c ts rd n stuck

/-- A reset meets the invariant (R54, R56). -/
theorem resetBlock_inv {s : State} (h : Memory.wf s.mem = true) : (resetBlock s).Inv where
  handle := rfl
  lifecycle := ⟨fun hb => Bool.noConfusion hb, fun hp => absurd rfl hp⟩
  latched hb := Bool.noConfusion hb
  lines := ⟨rfl, fun _ hb => Option.some.inj hb⟩
  position := trivial
  result := .inl (Nat.zero_le _)
  memory := h
  races _ := rfl

/-- Settles O47: engine steps keep it at every move of the sequencer, whole instructions are runs of engine steps, and a
host access touches the running command nowhere but in its buffer. -/
theorem stepKeepsInvariant : Obligations.StepKeepsInvariant := by
  intro s t h hst
  obtain ⟨n, hrun⟩ | ⟨act, hhost⟩ | ⟨-, rfl⟩ := step_kinds hst
  · exact engineRun_keeps (fun _ _ => engineStep_inv) h.takeTurn hrun
  · exact hostStep_inv h.takeTurn hhost
  · exact resetBlock_inv h.memory

/-- Settles O15: the offsets and lines are closed terms, and the state after reset is its own reset. -/
theorem resetStateWaits : Obligations.ResetStateWaits :=
  ⟨⟨rfl, rfl, rfl, rfl, rfl, rfl, rfl, rfl, rfl, rfl, rfl⟩, resetBlock_inv (s := State.reset) Memory.reset_wf, rfl⟩

end Sys2Proof.Machine

namespace Sys2Proof.Machine

/-! ## What a step appends to the trace (spec/00_scope.md R13, spec/10_state.md R46, R50) -/

/-- The event of a micro-operation's step. -/
def Prim.event (s : State) : Prim → Event
  | .scl b => .setSCL b
  | .sda b => .setSDA b
  | .delay => .delay
  | .sampleAck => .sample (drawAt s 0)
  | .sampleBit => .sample (drawAt s 0)

/-- The events that the step at the engine's position appends. -/
def stepEvents (s : State) : List Event :=
  match s.pos with
  | .initSCL => [.setSCL HIGH]
  | .initSDA => [.setSDA HIGH]
  | .micro w sub _ =>
    match decodeUop w with
    | .ok u => ((bitSteps u s.k)[sub]?.map (Prim.event s)).toList
    | .error _ => []
  | .memRead =>
    if portAdmits s.plat (effAddr s.latch.buf s.i) then
      [.memRead (effAddr s.latch.buf s.i) (memReadByte (effAddr s.latch.buf s.i) s).1]
    else []
  | .memWrite =>
    if portAdmits s.plat (effAddr s.latch.buf s.i) then [.memWrite (effAddr s.latch.buf s.i) s.acc] else []
  | .idle | .dispatch | .initConfig | .finish _ => []

/-- The trace grew by `e`, and the pins moved as the events of `e` say. -/
structure Appends (e : List Event) (s t : State) : Prop where
  trace : t.trace = s.trace ++ e
  pins : (t.sclO, t.sdaO) = Trace.replay e (s.sclO, s.sdaO)

theorem Appends.refl (s : State) : Appends [] s s := ⟨(List.append_nil _).symm, rfl⟩

theorem Appends.trans {e e' : List Event} {s t u : State} (h : Appends e s t) (h' : Appends e' t u) :
    Appends (e ++ e') s u :=
  ⟨by rw [h'.trace, h.trace, List.append_assoc], by rw [h'.pins, h.pins, Trace.replay_append]⟩

theorem SameButControl.appends {s t : State} (h : SameButControl s t) : Appends [] s t :=
  ⟨h.trace.trans (List.append_nil _).symm, by rw [h.sclO, h.sdaO]; rfl⟩

theorem Prim.run_appends (p : Prim) (s : State) : Appends [p.event s] s (p.run s) := by
  cases p <;> exact ⟨rfl, rfl⟩

theorem clearAccAtEntry_appends (u : MicroOp) (sub : Nat) (s : State) :
    Appends [] s (clearAccAtEntry u sub s) ∧ ∀ p : Prim, p.event (clearAccAtEntry u sub s) = p.event s := by
  unfold clearAccAtEntry
  split
  · exact ⟨⟨(List.append_nil _).symm, rfl⟩, fun p => by cases p <;> rfl⟩
  · exact ⟨.refl s, fun _ => rfl⟩

theorem nextMicro_appends (u : MicroOp) (w : BitVec 11) (sub : Nat) (site : CallSite) (s : State) :
    Appends [] s (nextMicro u w sub site s) := by
  unfold nextMicro
  split_ifs
  · exact ⟨(List.append_nil _).symm, rfl⟩
  · exact ⟨(List.append_nil _).symm, rfl⟩
  · exact (SameButControl.advance site s).appends

theorem microStep_appends (u : MicroOp) (w : BitVec 11) (sub : Nat) (site : CallSite) (s : State) :
    Appends ((bitSteps u s.k)[sub]?.map (Prim.event s)).toList s (microStep u w sub site s) := by
  unfold microStep
  cases (bitSteps u s.k)[sub]? with
  | none => exact .refl s
  | some p =>
    obtain ⟨hclear, hevent⟩ := clearAccAtEntry_appends u sub s
    have hrun := p.run_appends (clearAccAtEntry u sub s)
    rw [hevent] at hrun
    exact (hclear.trans hrun).trans (nextMicro_appends u w sub site _)

theorem memReadByte_appends (a : Nat) (s : State) : Appends [.memRead a (memReadByte a s).1] s (memReadByte a s).2 := by
  refine ⟨memReadByte_trace a s, ?_⟩
  obtain ⟨n, e, h⟩ := memReadByte_state a s
  rw [h]
  rfl

/-- The step at a position appends its events and moves the pins as they say. -/
theorem positionStep_appends {s t : State} (h : positionStep s = .next t) : Appends (stepEvents s) s t := by
  unfold stepEvents
  cases hp : s.pos with
  | micro w sub site =>
    simp only [positionStep, hp] at h
    dsimp only
    cases hw : decodeUop w with
    | ok u =>
      simp only [hw, Host.Outcome.next.injEq] at h
      exact h ▸ microStep_appends u w sub site s
    | error e =>
      simp only [hw, reduceCtorEq] at h
  | memRead =>
    simp only [positionStep, hp, Host.Outcome.next.injEq] at h
    subst h
    dsimp only [bufferReadStep]
    split
    · exact (memReadByte_appends _ s).trans (SameButControl.issue _ _ _).appends
    · exact .refl s
  | memWrite =>
    simp only [positionStep, hp, Host.Outcome.next.injEq] at h
    subst h
    dsimp only [bufferWriteStep]
    split
    · split <;> exact ⟨rfl, rfl⟩
    · exact .refl s
  | initSCL | initSDA =>
    simp only [positionStep, hp, Host.Outcome.next.injEq] at h
    exact h ▸ ⟨rfl, rfl⟩
  | idle | dispatch | initConfig | finish ret =>
    simp only [positionStep, hp, Host.Outcome.next.injEq] at h
    exact h ▸ ⟨(List.append_nil _).symm, rfl⟩

theorem engineStep_appends {s t : State} (h : engineStep s = .next t) : ∃ e, Appends e s t := by
  obtain he | ⟨-, he⟩ := engineStep_eq s <;> rw [he] at h
  · exact ⟨_, positionStep_appends h⟩
  · exact ⟨_, (SameButControl.dispatchPos s).appends.trans (positionStep_appends h)⟩

theorem hostStep_appends {act : HostAct} {s t : State} (h : hostStep act s = .next t) : Appends [] s t := by
  obtain ⟨-, w, -, rfl⟩ | ⟨a, v, -, -, -, rfl⟩ | ⟨f, b, c, ts, rd, n, stuck, rfl⟩ := hostStep_cases h
  · exact ⟨(List.append_nil _).symm, rfl⟩
  · obtain ⟨m, rc, hs⟩ := hostStoreByte_state a.toNat v s
    rw [hs]
    exact ⟨(List.append_nil _).symm, rfl⟩
  · exact ⟨(List.append_nil _).symm, rfl⟩

/-- Settles O53: every engine step replays the events that it appends, and a host access appends none. -/
theorem pinsFollowTrace : Obligations.PinsFollowTrace := by
  intro s t hreset hst
  have hsome : ∃ e, Appends e (takeTurn s) t := by
    obtain ⟨n, hrun⟩ | ⟨act, hhost⟩ | ⟨hr, -⟩ := step_kinds hst
    · exact engineRun_relates (P := fun _ => True) (R := fun s t => ∃ e, Appends e s t) (fun _ _ _ _ => trivial)
        (fun s => ⟨[], .refl s⟩) (fun _ _ _ ⟨e, he⟩ ⟨e', he'⟩ => ⟨e ++ e', he.trans he'⟩)
        (fun _ _ _ => engineStep_appends) trivial hrun
    · exact ⟨[], hostStep_appends hhost⟩
    · rw [hr] at hreset
      cases hreset
  obtain ⟨e, htrace, hpins⟩ := hsome
  exact ⟨e, htrace, hpins⟩

/-! ### One event at a time -/

/-- Under the invariant a step at a position appends one event, or is INIT's configuration step, `finish`, or no step. -/
theorem positionStep_oneEvent {s t : State} (h : s.Inv) (hp : s.pos ≠ .dispatch) (hst : positionStep s = .next t) :
    (∃ e, stepEvents s = [e]) ∨
      (stepEvents s = [] ∧ ((t.pos = .initSCL ∧ t.ready = true) ∨ (s.busy = true ∧ t.busy = false) ∨
        (t = s ∧ hasNoStep s = true))) := by
  unfold stepEvents hasNoStep
  cases hpos : s.pos with
  | dispatch => exact absurd hpos hp
  | idle =>
    simp only [positionStep, hpos, Host.Outcome.next.injEq] at hst
    exact .inr ⟨rfl, .inr (.inr ⟨hst.symm, rfl⟩)⟩
  | initConfig =>
    simp only [positionStep, hpos, Host.Outcome.next.injEq] at hst
    exact .inr ⟨rfl, .inl (hst ▸ ⟨rfl, rfl⟩)⟩
  | initSCL => exact .inl ⟨_, rfl⟩
  | initSDA => exact .inl ⟨_, rfl⟩
  | micro w sub site =>
    left
    obtain ⟨-, -, u, hw, -, -, hsub⟩ : _ ∧ _ ∧ ∃ u, decodeUop w = .ok u ∧ siteRuns s site u ∧ s.k ≤ topBit u ∧
        sub < (bitSteps u s.k).length := by simpa only [posOk, hpos] using h.position
    simp only [hw, List.getElem?_eq_getElem hsub]
    exact ⟨_, rfl⟩
  | memRead =>
    dsimp only
    split
    next => exact .inl ⟨_, rfl⟩
    next ha =>
      simp only [positionStep, hpos, bufferReadStep, ha, Host.Outcome.next.injEq] at hst
      exact .inr ⟨rfl, .inr (.inr ⟨hst.symm, by simpa using ha⟩)⟩
  | memWrite =>
    dsimp only
    split
    next => exact .inl ⟨_, rfl⟩
    next ha =>
      simp only [positionStep, hpos, bufferWriteStep, ha, Host.Outcome.next.injEq] at hst
      exact .inr ⟨rfl, .inr (.inr ⟨hst.symm, by simpa using ha⟩)⟩
  | finish ret =>
    simp only [positionStep, hpos, Host.Outcome.next.injEq] at hst
    exact .inr ⟨rfl, .inr (.inl ⟨h.lifecycle.mpr (by simp [hpos]), hst ▸ rfl⟩)⟩

/-- Where the dispatcher's checks leave it, the engine stands neither at a buffer access nor without a step (R253). -/
theorem dispatchPos_pos (s : State) :
    hasNoStep (dispatchPos s) = false ∧ (dispatchPos s).pos ≠ .dispatch ∧ (dispatchPos s).pos ≠ .memRead ∧
      (dispatchPos s).pos ≠ .memWrite := by
  obtain h | ⟨ret, h⟩ | ⟨ph, h⟩ := dispatchPos_cases s <;> rw [h] <;>
    exact ⟨rfl, nofun, nofun, nofun⟩

theorem hasNoStep_iff {s : State} :
    hasNoStep s = true ↔
      s.pos = .idle ∨ ((s.pos = .memRead ∨ s.pos = .memWrite) ∧ portAdmits s.plat (effAddr s.latch.buf s.i) = false) := by
  unfold hasNoStep
  cases s.pos <;> simp

/-- Settles O54: at each position of the sequencer the invariant leaves one event or one of the three steps without. -/
theorem engineStepOneEvent : Obligations.EngineStepOneEvent := by
  intro s t h hst
  by_cases hp : s.pos = .dispatch
  · obtain ⟨hno, hpos, -⟩ := dispatchPos_pos s
    have hbusy := (SameButControl.dispatchPos s).busy
    have htrace := (SameButControl.dispatchPos s).trace
    rw [show engineStep s = positionStep (dispatchPos s) by simp only [engineStep, hp]] at hst
    have happ := (positionStep_appends hst).trace
    obtain ⟨e, he⟩ | ⟨he, hinit | hfin | ⟨-, hstay⟩⟩ := positionStep_oneEvent (dispatchPos_inv h hp) hpos hst
    · exact .inl ⟨e, by rw [happ, he, htrace]⟩
    · exact .inr ⟨by rw [happ, he, htrace, List.append_nil], .inl hinit⟩
    · exact .inr ⟨by rw [happ, he, htrace, List.append_nil], .inr (.inl ⟨hbusy ▸ hfin.1, hfin.2⟩)⟩
    · rw [hno] at hstay
      cases hstay
  · obtain hst' | ⟨hd, -⟩ := engineStep_eq s
    · rw [hst'] at hst
      have happ := (positionStep_appends hst).trace
      obtain ⟨e, he⟩ | ⟨he, hkind⟩ := positionStep_oneEvent h hp hst
      · exact .inl ⟨e, by rw [happ, he]⟩
      · refine .inr ⟨by rw [happ, he, List.append_nil], ?_⟩
        rw [hasNoStep_iff] at hkind
        exact hkind
    · exact absurd hd hp

/-- The only events at a memory address are the buffer's byte `i`, at the two buffer positions (R75). -/
theorem stepEvents_access {s : State} {a : Nat} {v : Byte}
    (h : stepEvents s = [.memRead a v] ∨ stepEvents s = [.memWrite a v]) :
    a = effAddr s.latch.buf s.i ∧ (s.pos = .memRead ∨ s.pos = .memWrite) := by
  unfold stepEvents at h
  cases hp : s.pos with
  | micro w sub site =>
    rw [hp] at h
    dsimp only at h
    split at h
    next u hw =>
      cases hget : (bitSteps u s.k)[sub]? with
      | none => simp [hget] at h
      | some p => cases p <;> simp [hget, Prim.event] at h
    next => simp at h
  | memRead =>
    rw [hp] at h
    dsimp only at h
    split at h
    · simp only [List.cons.injEq, Event.memRead.injEq, reduceCtorEq, and_true, or_false] at h
      exact ⟨h.1.symm, .inl rfl⟩
    · simp at h
  | memWrite =>
    rw [hp] at h
    dsimp only at h
    split at h
    · simp only [List.cons.injEq, Event.memWrite.injEq, reduceCtorEq, and_true, false_or] at h
      exact ⟨h.1.symm, .inr rfl⟩
    · simp at h
  | _ => simp [hp] at h

/-- Byte `i` of the latched buffer lies between its ends, above the null address and below 2^32 (R75, R200). -/
theorem effAddr_bounds {s : State} (ht : InTransaction s) (hi : s.i < bytesWanted s) :
    s.latch.buf.toNat ≤ effAddr s.latch.buf s.i ∧ effAddr s.latch.buf s.i < s.latch.buf.toNat + bytesWanted s ∧
      1 ≤ effAddr s.latch.buf s.i ∧ effAddr s.latch.buf s.i < 2 ^ 32 := by
  obtain ⟨-, hargs, -⟩ := ht
  obtain ⟨-, -, hnull, hend, -⟩ := argsOk_bounds hargs
  have hbuf : s.latch.buf.toNat ≠ 0 := fun h0 => hnull (BitVec.eq_of_toNat_eq h0)
  simp only [effAddr, bytesWanted] at hi ⊢
  omega

/-- Settles O55: only the two buffer positions access memory, and the invariant puts their byte index inside the
buffer. -/
theorem accessesInsideBuffer : Obligations.AccessesInsideBuffer := by
  intro s t a v h hst hacc
  have hevents : ∀ s', s'.trace = s.trace → positionStep s' = .next t →
      stepEvents s' = [.memRead a v] ∨ stepEvents s' = [.memWrite a v] := by
    intro s' htrace hst'
    have happ := (positionStep_appends hst').trace
    rw [htrace] at happ
    exact hacc.imp (fun he => List.append_cancel_left (happ.symm.trans he))
      (fun he => List.append_cancel_left (happ.symm.trans he))
  obtain he | ⟨-, he⟩ := engineStep_eq s <;> rw [he] at hst
  · obtain ⟨rfl, hp⟩ := stepEvents_access (hevents s rfl hst)
    have hplace : InTransaction s ∧ s.i < bytesWanted s := by
      have hpos := h.position
      obtain hp | hp := hp <;> simp only [posOk, hp] at hpos
      · obtain ⟨ht, -, -, hi⟩ := hpos
        exact ⟨ht, hi⟩
      · obtain ⟨ht, -, hi⟩ := hpos
        exact ⟨ht, hi⟩
    exact ⟨rfl, effAddr_bounds hplace.1 hplace.2⟩
  · obtain ⟨-, hp⟩ := stepEvents_access (hevents _ (SameButControl.dispatchPos s).trace hst)
    obtain ⟨-, -, hread, hwrite⟩ := dispatchPos_pos s
    exact absurd hp (not_or.mpr ⟨hread, hwrite⟩)

/-! ## Who writes RESULT, TICK and READY (spec/10_state.md R33, R39) -/

/-- RESULT changes only where BUSY goes from 1 to 0; BUSY is not set. -/
def ResultByFinish (s t : State) : Prop :=
  (t.busy = s.busy ∧ t.result = s.result) ∨ (s.busy = true ∧ t.busy = false)

theorem ResultByFinish.trans {s t u : State} (h : ResultByFinish s t) (h' : ResultByFinish t u) : ResultByFinish s u := by
  obtain ⟨hb, hr⟩ | ⟨hb, hb'⟩ := h <;> obtain ⟨hc, hr'⟩ | ⟨hc, hc'⟩ := h'
  · exact .inl ⟨hc.trans hb, hr'.trans hr⟩
  · exact .inr ⟨hb ▸ hc, hc'⟩
  · exact .inr ⟨hb, hc.trans hb'⟩
  · rw [hb'] at hc
    cases hc

theorem engineStep_resultByFinish {s t : State} (h : s.Inv) (hst : engineStep s = .next t) : ResultByFinish s t := by
  have hpos : ∀ s', s'.Inv → positionStep s' = .next t → ResultByFinish s' t := by
    intro s' h' hst'
    obtain hk | ⟨-, rfl⟩ | ⟨ret, hp, rfl⟩ := positionStep_registers hst'
    · exact .inl ⟨hk.busy, hk.result⟩
    · exact .inl ⟨rfl, rfl⟩
    · exact .inr ⟨h'.lifecycle.mpr (by simp [hp]), rfl⟩
  obtain he | ⟨hp, he⟩ := engineStep_eq s <;> rw [he] at hst
  · exact hpos s h hst
  · have hc := SameButControl.dispatchPos s
    exact .trans (.inl ⟨hc.busy, hc.result⟩) (hpos _ (dispatchPos_inv h hp) hst)

theorem hostStep_keepsResults {act : HostAct} {s t : State} (h : hostStep act s = .next t) :
    t.result = s.result ∧ t.tick = s.tick ∧ t.ready = s.ready := by
  obtain ⟨-, w, -, rfl⟩ | ⟨a, v, -, -, -, rfl⟩ | ⟨f, b, c, ts, rd, n, stuck, rfl⟩ := hostStep_cases h
  · exact ⟨rfl, rfl, rfl⟩
  · obtain ⟨m, rc, hs⟩ := hostStoreByte_state a.toNat v s
    rw [hs]
    exact ⟨rfl, rfl, rfl⟩
  · exact ⟨rfl, rfl, rfl⟩

/-- Settles O12: of the engine's steps only `finish` writes RESULT, and a host access never does. -/
theorem resultWrittenOnlyByFinish : Obligations.ResultWrittenOnlyByFinish := by
  intro s t h hreset hst hne
  obtain ⟨n, hrun⟩ | ⟨act, hhost⟩ | ⟨hr, -⟩ := step_kinds hst
  · obtain ⟨-, hkeep⟩ | hfin := engineRun_relates (R := ResultByFinish) (fun _ _ => engineStep_inv)
      (fun _ => .inl ⟨rfl, rfl⟩) (fun _ _ _ => .trans) (fun _ _ => engineStep_resultByFinish) h.takeTurn hrun
    · exact absurd hkeep hne
    · exact hfin
  · exact absurd (hostStep_keepsResults hhost).1 hne
  · rw [hr] at hreset
    cases hreset

/-- A running INIT that passed its checks wrote TICK and READY (R131, R132). -/
structure InitWrote (s t : State) : Prop where
  busy : s.busy = true
  op : s.latch.op = opInit
  reserved : s.latch.f.reserved = false
  freq : freqLegal s.latch.freq = true
  tick : t.tick = tickOf s.latch.freq
  ready : t.ready = true

/-- TICK and READY are written only by INIT, of the latched command; BUSY is not set. -/
structure HandleByInit (s t : State) : Prop where
  latch : t.latch = s.latch
  busy : t.busy = true → s.busy = true
  handle : (t.tick = s.tick ∧ t.ready = s.ready) ∨ InitWrote s t

theorem HandleByInit.trans {s t u : State} (h : HandleByInit s t) (h' : HandleByInit t u) : HandleByInit s u := by
  refine ⟨h'.latch.trans h.latch, fun hb => h.busy (h'.busy hb), ?_⟩
  obtain ⟨htick, hready⟩ | hw := h'.handle
  · obtain ⟨htick', hready'⟩ | hw' := h.handle
    · exact .inl ⟨htick.trans htick', hready.trans hready'⟩
    · exact .inr { hw' with tick := htick.trans hw'.tick, ready := hready.trans hw'.ready }
  · obtain ⟨hbusy, hop, hres, hfreq, htick, hready⟩ := hw
    rw [h.latch] at hop hres hfreq htick
    exact .inr ⟨h.busy hbusy, hop, hres, hfreq, htick, hready⟩

theorem KeepsRegisters.handleByInit {s t : State} (h : KeepsRegisters s t) : HandleByInit s t :=
  ⟨h.latch, fun hb => h.busy ▸ hb, .inl ⟨h.tick, h.ready⟩⟩

theorem engineStep_handleByInit {s t : State} (h : s.Inv) (hst : engineStep s = .next t) : HandleByInit s t := by
  have hpos : ∀ s', s'.Inv → positionStep s' = .next t → HandleByInit s' t := by
    intro s' h' hst'
    obtain hk | ⟨hp, rfl⟩ | ⟨ret, -, rfl⟩ := positionStep_registers hst'
    · exact hk.handleByInit
    · obtain ⟨hres, hop, hf⟩ : s'.latch.f.reserved = false ∧ s'.latch.op = opInit ∧ freqLegal s'.latch.freq = true := by
        simpa only [posOk, hp] using h'.position
      exact ⟨rfl, id, .inr ⟨h'.lifecycle.mpr (by simp [hp]), hop, hres, hf, rfl, rfl⟩⟩
    · exact ⟨rfl, fun hb => Bool.noConfusion hb, .inl ⟨rfl, rfl⟩⟩
  obtain he | ⟨hp, he⟩ := engineStep_eq s <;> rw [he] at hst
  · exact hpos s h hst
  · exact (SameButControl.dispatchPos s).registers.handleByInit.trans (hpos _ (dispatchPos_inv h hp) hst)

/-- Settles O13: of the engine's steps only INIT's configuration step writes TICK and READY, and a host access never
does. -/
theorem handleWrittenOnlyByInit : Obligations.HandleWrittenOnlyByInit := by
  intro s t h hreset hst
  have hkinds : (t.tick = s.tick ∧ t.ready = s.ready) ∨ InitWrote s t := by
    obtain ⟨n, hrun⟩ | ⟨act, hhost⟩ | ⟨hr, -⟩ := step_kinds hst
    · obtain hkeep | hw := (engineRun_relates (R := HandleByInit) (fun _ _ => engineStep_inv)
        (fun s => (KeepsRegisters.refl s).handleByInit) (fun _ _ _ => .trans) (fun _ _ => engineStep_handleByInit)
        h.takeTurn hrun).handle
      · exact .inl hkeep
      · exact .inr ⟨hw.busy, hw.op, hw.reserved, hw.freq, hw.tick, hw.ready⟩
    · exact .inl (hostStep_keepsResults hhost).2
    · rw [hr] at hreset
      cases hreset
  obtain ⟨htick, hready⟩ | ⟨hbusy, hop, hres, hf, htick, hready⟩ := hkinds
  · exact ⟨fun hr => hready.trans hr, fun hne => absurd hne (not_or.mpr ⟨not_not.mpr htick, not_not.mpr hready⟩)⟩
  · obtain ⟨hpos, hmax⟩ := freqLegal_iff.mp hf
    exact ⟨fun _ => hready, fun _ => ⟨hbusy, hop, hres, hpos, hmax, by rw [htick, tickOf_toNat], hready⟩⟩

/-! ## The lines where a micro-operation starts, and during a receive (spec/41_primitives.md R159) -/

/-- Settles O50: the state after the step meets the invariant, whose lines are the entry column's at the first step. -/
theorem microOpEntryLines : Obligations.MicroOpEntryLines := by
  intro s t h hst
  have ht : t.Inv := stepKeepsInvariant s t h hst
  refine ⟨fun hp => ht.linesHigh_dispatch hp, fun u site hp hk => ?_⟩
  have hl := (ht.atMicro hp (decodeUop_encodeUop u)).2
  rw [hk] at hl
  refine ⟨?_, ?_, ?_, ?_, ?_, ?_, ?_⟩
  · rintro rfl
    exact ⟨hl.1, hl.2 _ rfl⟩
  · rintro rfl
    exact ⟨hl.1, hl.2 _ rfl⟩
  · rintro rfl
    exact hl.1
  · rintro rfl
    exact hl.1
  · rintro rfl
    exact hl.1
  · rintro v rfl
    exact hl.1
  · rintro rfl
    exact hl.1

/-- RECV_BYTE's steps do not set the data line (R182, R292). -/
theorem recvBitSteps_dataLine (sub : Nat) (l : Level × Option Level) :
    (linesAfter (recvBitSteps.take sub) l).2 = l.2 := by
  have hsteps : ∀ p ∈ recvBitSteps.take sub, ∀ l, (p.lines l).2 = l.2 := by
    intro p hp l
    have hmem : p ∈ recvBitSteps := List.mem_of_mem_take hp
    simp only [recvBitSteps, List.mem_cons, List.not_mem_nil, or_false] at hmem
    obtain rfl | rfl | rfl | rfl | rfl := hmem <;> rfl
  generalize recvBitSteps.take sub = ps at hsteps
  induction ps generalizing l with
  | nil => rfl
  | cons p ps ih =>
    rw [linesAfter, ih _ (fun q hq => hsteps q (List.mem_cons_of_mem p hq)), hsteps p List.mem_cons_self]

/-- Settles O51: the state after the step meets the invariant, and no step of RECV_BYTE sets the data line. -/
theorem dataLineDuringReceive : Obligations.DataLineDuringReceive := by
  intro s t sub site h hst hp
  have hl := ((stepKeepsInvariant s t h hst).atMicro hp (decodeUop_encodeUop .recvByte)).2.2 (t.i == 0)
    (recvBitSteps_dataLine sub _)
  refine ⟨fun hi => ?_, fun hi => ?_⟩
  · rw [hl, hi]
    rfl
  · rw [hl]
    exact beq_false_of_ne (Nat.ne_of_gt hi)

/-! ## What a step can fail at (spec/70_reset_and_hazards.md R290) -/

theorem positionStep_next {s : State} (h : s.Inv) : ∃ t, positionStep s = .next t := by
  cases hp : s.pos with
  | micro w sub site =>
    obtain ⟨-, -, u, hw, -⟩ : _ ∧ _ ∧ ∃ u, decodeUop w = .ok u ∧ _ := by simpa only [posOk, hp] using h.position
    exact ⟨_, by simp only [positionStep, hp, hw]; rfl⟩
  | _ => exact ⟨_, by simp only [positionStep, hp]; rfl⟩

theorem engineStep_next {s : State} (h : s.Inv) : ∃ t, engineStep s = .next t := by
  obtain he | ⟨hp, he⟩ := engineStep_eq s <;> rw [he]
  · exact positionStep_next h
  · exact positionStep_next (dispatchPos_inv h hp)

/-- The engine stands at a word that is no micro-operation only inside the sequencer (93 P10). -/
theorem fetch_error {s : State} {e : DecodeError} (h : fetch s = some (.error e)) :
    ∃ w site, s.pos = .micro w 0 site ∧ decodeUop w = .error e := by
  cases hp : s.pos with
  | micro w sub site =>
    cases sub with
    | zero =>
      simp only [fetch, hp] at h
      split at h
      next => split_ifs at h; cases h
      next e' hw =>
        simp only [Option.some.injEq, Except.error.injEq] at h
        exact ⟨w, site, rfl, h ▸ hw⟩
    | succ n =>
      simp only [fetch, hp] at h
      cases h
  | _ =>
    simp only [fetch, hp] at h
    cases h

/-- An instruction turn answers a next state: under the invariant the sequencer holds a micro-operation's word. -/
theorem instrStep_next {s : State} (h : s.Inv) : ∃ t, instrStep s = .next t := by
  unfold instrStep
  split
  next => exact engineStep_next h
  next e hf =>
    obtain ⟨w, site, hp, hw⟩ := fetch_error hf
    obtain ⟨-, -, u, hu, -⟩ : _ ∧ _ ∧ ∃ u, decodeUop w = .ok u ∧ _ := by simpa only [posOk, hp] using h.position
    rw [hw] at hu
    cases hu
  next i _ =>
    obtain ⟨t, ht⟩ := exec_next i s
    rw [ht]
    exact ⟨_, rfl⟩

theorem hostStep_answers (act : HostAct) (s : State) :
    (∃ t, hostStep act s = .next t) ∨ (hostStep act s = .fault .cmdWriteWhileBusy ∧ s.busy = true) := by
  unfold hostStep
  split
  · exact .inl ⟨_, rfl⟩
  · cases act with
    | store a width v =>
      simp only [hostAccess]
      split
      · by_cases hoff : windowOffset s a = offCmd
        · rw [hoff]
          cases hb : s.busy with
          | true => exact .inr ⟨writeReg_cmd_busy v hb, rfl⟩
          | false => exact .inl ⟨_, writeReg_cmd_idle v hb⟩
        · obtain ⟨f, b, c, hw⟩ := writeReg_other v s hoff
          exact .inl ⟨_, hw⟩
      · exact .inl ⟨_, rfl⟩
    | load a width =>
      simp only [hostAccess]
      split <;> exact .inl ⟨_, rfl⟩
    | memStore a v | memLoad a | poll => exact .inl ⟨_, rfl⟩

/-- Settles O48: under the invariant engine and instruction turns answer a next state, and a host access faults only at
a CMD write while BUSY = 1. -/
theorem onlyCmdWriteFaults : Obligations.OnlyCmdWriteFaults := by
  intro s h
  have hrest : ∀ rest, State.Inv { s with turns := rest } := fun rest =>
    withHostSide_inv h s.freq s.buf s.count rest s.reads s.races s.hostStuck
  unfold step
  split
  next => exact .inl (engineStep_next h)
  next act rest _ => exact hostStep_answers act { s with turns := rest }
  next rest _ => exact .inl (engineStep_next (hrest rest))
  next rest _ => exact .inl (instrStep_next (hrest rest))
  next => exact .inl ⟨_, rfl⟩

end Sys2Proof.Machine

namespace Sys2Proof.Machine

/-! ## The micro-operations (spec/41_primitives.md, spec/42_byte_shift.md) -/

/-- Settles O19: START's bus sequence, evaluated from any state. -/
theorem startSignal : Obligations.StartSignal := fun s => congrArg Host.Outcome.next (busStart_eq s)

/-- Settles O20: STOP's bus sequence, evaluated from any state. -/
theorem stopSignal : Obligations.StopSignal := fun s => congrArg Host.Outcome.next (busStop_eq s)

/-- Settles O21: the bus sequences of ACK and NAK, evaluated from any state. -/
theorem ackAndNakSignals : Obligations.AckAndNakSignals := fun s =>
  ⟨congrArg Host.Outcome.next (busAck_eq s), congrArg Host.Outcome.next (busNak_eq s)⟩

/-- Settles O22: WAIT_ACK's bus sequence, evaluated with the draw left open. -/
theorem waitAckSamples : Obligations.WaitAckSamples := fun s => congrArg Host.Outcome.next (busWaitAck_eq s)

/-- Settles O23: the eight bits of the bus sequence, one after the other. -/
theorem sendByteShiftsMsbFirst : Obligations.SendByteShiftsMsbFirst := fun v s =>
  ⟨congrArg Host.Outcome.next (busSendByte_eq v s), rfl, rfl, rfl, rfl⟩

/-- RECV_BYTE's events in the order of its draws (R182). -/
theorem rb_drawnByte (s : State) (j : Nat) :
    Trace.rb (drawnByte s j) = (List.range 8).flatMap fun t =>
      [.setSCL false, .delay, .setSCL true, .sample (drawAt s (j + t)), .delay] := by
  have hbit := fun b hb => drawnByte_getLsbD s j (b := b) hb
  have hrb : Trace.rb (drawnByte s j) = (List.range 8).flatMap fun t =>
      [.setSCL false, .delay, .setSCL true, .sample ((drawnByte s j).getLsbD (7 - t)), .delay] := rfl
  rw [hrb]
  refine List.flatMap_congr fun t ht => ?_
  rw [hbit t (List.mem_range.mp ht)]

/-- Settles O24: `busRecvByte` clears the accumulator first, and its byte is the one of the eight draws. -/
theorem recvByteAssemblesMsbFirst : Obligations.RecvByteAssemblesMsbFirst := by
  intro s
  refine ⟨?_, fun _ => rfl⟩
  have hbyte : drawnByte s 0 = BitVec.ofNat 8 (((List.range 8).map fun j => (drawAt s j).toNat * 2 ^ (7 - j)).sum) := by
    simp only [drawnByte, Nat.zero_add, Nat.shiftLeft_eq]
  have hevents := rb_drawnByte s 0
  simp only [Nat.zero_add] at hevents
  rw [← hbyte, ← hevents]
  exact congrArg Host.Outcome.next (busRecvByte_eq s)

/-! ## Commands that fail their checks (spec/30_encoding.md R102, R103, spec/43_transactions.md R200) -/

/-- A reserved bit finishes the command before every other check (R102, R254). -/
theorem dispatchCommand_reserved {f : CmdFields} (h : f.reserved = true) (proc : State → Flow) (s : State) :
    dispatchCommand f proc s = finishCommand eInvalidArgument s := if_pos h

theorem dispatchCommand_accepted {f : CmdFields} (h : f.reserved = false) (proc : State → Flow) (s : State) :
    dispatchCommand f proc s = finishFlow (proc s) := by
  simp [dispatchCommand, h]

/-- A procedure that only returns E_INVALID_ARGUMENT finishes with it, reserved bits or not. -/
theorem dispatchCommand_invalid {proc : State → Flow} {s : State} (h : proc s = .ret eInvalidArgument s) (f : CmdFields) :
    dispatchCommand f proc s = finishCommand eInvalidArgument s := by
  unfold dispatchCommand
  rw [h]
  exact ite_self _

/-- Settles O25: the dispatcher looks at the reserved fields before the OP's procedure. -/
theorem reservedBitsFinish : Obligations.ReservedBitsFinish := by
  intro op f s h
  rw [exec_decodeOp, dispatchCommand_reserved (by simpa [CmdFields.reserved] using h)]
  rfl

/-- Settles O18: the reserved bits are the dispatcher's check, the frequency is INIT's. -/
theorem initFailureChangesNothing : Obligations.InitFailureChangesNothing := by
  intro f s h
  show Host.Outcome.next (dispatchCommand f initProc s) = _
  obtain h | h := h
  · rw [dispatchCommand_reserved h]
    rfl
  · have hf : ¬ freqLegal s.latch.freq = true := by
      rw [freqLegal_iff]
      obtain h | h := h
      · simp [h]
      · omega
    rw [dispatchCommand_invalid (if_neg hf)]
    rfl

/-- Settles O16: past its two checks INIT configures, and sets the clock and the data line. -/
theorem initSucceeds : Obligations.InitSucceeds := by
  intro f s hres hpos hmax
  show Host.Outcome.next (dispatchCommand f initProc s) = _
  have htick : tickOf s.latch.freq = BitVec.ofNat 32 (1000000 / s.latch.freq.toNat / 4) := by
    rw [← tickOf_toNat, BitVec.ofNat_toNat, BitVec.setWidth_eq]
  have hproc : initProc s = .ret 0 (setSDA HIGH (setSCL HIGH (initConfigure s))) :=
    if_pos (freqLegal_iff.mpr ⟨hpos, hmax⟩)
  rw [dispatchCommand_accepted hres, hproc, ← htick]
  simp [finishFlow, setSDA, setSCL, emit, initConfigure]

/-- Settles O27: each of the five conditions makes CHECK_ARGS fail. -/
theorem argumentCheckFails : Obligations.ArgumentCheckFails := by
  intro f s h
  have hargs : ¬ argsOk s.ready s.latch.buf s.latch.count = true := by
    rw [Bool.not_eq_true]
    exact argsOk_eq_false.mpr h
  have hchecked : ∀ body, checked body s = .ret eInvalidArgument s := fun body => if_neg hargs
  have hfinish : ∀ body, Host.Outcome.next (dispatchCommand f (checked body) s) =
      (.next (finishCommand 0xFFFFFFFF s) : Host.Outcome State Fault Refusal) := fun body =>
    congrArg Host.Outcome.next (dispatchCommand_invalid (hchecked body) f)
  exact ⟨hfinish _, hfinish _, hfinish _, hfinish _⟩

theorem op_reserved {op : BitVec 4} (h : op = 0 ∨ 6 ≤ op.toNat) :
    op = 0x0 ∨ op.extractLsb' 1 3 = 0b011 ∨ 8 ≤ op.toNat := by
  revert op
  decide

/-- Settles O28: each failing check makes `finish` the first position of the command. -/
theorem failedCheckFinishesAtOnce : Obligations.FailedCheckFinishesAtOnce := by
  intro s hp h
  have hpos : dispatchPos s = goto (.finish eInvalidArgument) s := by
    by_cases hres : s.latch.f.reserved = true
    · exact if_pos hres
    · rw [Bool.not_eq_true] at hres
      obtain h | h | h | ⟨hop, hf⟩ | ⟨ht, hargs⟩ := h
      · rw [h] at hres
        cases hres
      · exact dispatchPos_reserved (op_reserved (.inl h))
      · exact dispatchPos_reserved (op_reserved (.inr h))
      · exact dispatchPos_init_illegal hop hf
      · rw [dispatchPos_transaction hres ht]
        exact if_neg (by rw [hargs]; decide)
  rw [engineStep_dispatchPos hp, hpos]
  exact engineStep_finish rfl

/-! ## Whole-instruction turns (assumption log 2) -/

/-- Where a command has been accepted the turn runs it whole. -/
theorem instrStep_dispatch {s : State} (hp : s.pos = .dispatch) :
    instrStep s = exec (decodeOp s.latch.op s.latch.f) s := by
  have hf : fetch s = some (.ok (decodeOp s.latch.op s.latch.f)) := by simp only [fetch, hp]
  simp only [instrStep, hf, exec_decodeOp, hp, afterInstr]

/-- Where a micro-operation begins the turn runs it whole and returns to its caller. -/
theorem instrStep_micro {s : State} {w : BitVec 11} {u : MicroOp} {site : CallSite} (hp : s.pos = .micro w 0 site)
    (hw : decodeUop w = .ok u) (hk : s.k = topBit u) : instrStep s = mapNext (advance site) (exec u.toInstr s) := by
  have hf : fetch s = some (.ok u.toInstr) := by simp only [fetch, hp, hw, hk, if_true]
  simp only [instrStep, hf, exec_microOp, hp, afterInstr, mapNext]

/-- Settles O45: a whole-instruction turn decodes the word where the engine stands. -/
theorem stepRunsDecodedInstruction : Obligations.StepRunsDecodedInstruction := by
  refine ⟨fun s w rest hturns hp hop hf => ?_, fun s w u site rest hturns hp hw hk => ?_⟩
  · have hstep : step s = instrStep { s with turns := rest } := by simp only [step, hturns]
    rw [hstep, instrStep_dispatch (by exact hp), decodeCmd, ← hop, ← hf]
  · have hstep : step s = instrStep { s with turns := rest } := by simp only [step, hturns]
    rw [hstep, instrStep_micro (by exact hp) hw (by exact hk)]

/-- Every command of a reserved OP finishes at once (R103). -/
theorem exec_reservedOp {op : BitVec 4} (h : op = 0x0 ∨ op.extractLsb' 1 3 = 0b011 ∨ 8 ≤ op.toNat) (f : CmdFields)
    (s : State) : exec (decodeOp op f) s = .next (finishCommand eInvalidArgument s) := by
  rw [exec_decodeOp, procOf_reserved f h, dispatchCommand_invalid (proc := reservedProc) rfl]

/-- A CMD write in an idle block is one step, the acceptance (R252). -/
theorem step_acceptCommand {s : State} (w : Word) (rest : List Turn) (hstuck : s.hostStuck = false) (hbusy : s.busy = false) :
    step { s with turns := .host (.store s.plat.base 4 w) :: rest } = .next (acceptCommand w { s with turns := rest }) := by
  have hbase : s.plat.base + offCmd = s.plat.base := BitVec.add_zero _
  have hstore := step_store s rest offCmd w hstuck (by decide) (by decide)
  rw [hbase] at hstore
  exact hstore.trans (writeReg_cmd_idle w hbusy)

/-- Settles O26: a reserved OP's procedure returns E_INVALID_ARGUMENT; its CMD write is accepted like any other, and the
next turn runs it. -/
theorem reservedOpFinishes : Obligations.ReservedOpFinishes := by
  refine ⟨fun s f b1 b3 => ?_, fun s w hstuck hbusy hop => ?_⟩
  · have hfinish := congrArg (Host.Outcome.next (φ := Fault) (ρ := Refusal))
      (dispatchCommand_invalid (proc := reservedProc) (s := s) rfl f)
    exact ⟨hfinish, hfinish, hfinish⟩
  · have hrow := op_reserved (op := opOf w) (hop.imp (fun h => BitVec.eq_of_toNat_eq ((opOf_toNat w).trans h))
      (fun h => (opOf_toNat w).symm ▸ h))
    have hrun : step (acceptCommand w { s with turns := .instr :: s.turns }) =
        .next (finishCommand eInvalidArgument (acceptCommand w s)) :=
      (stepRunsDecodedInstruction.1 _ w s.turns rfl rfl rfl rfl).trans (exec_reservedOp hrow _ _)
    exact ⟨_, _, step_acceptCommand w _ hstuck hbusy, rfl, rfl, hrun, rfl, rfl, rfl, rfl, rfl, rfl⟩

end Sys2Proof.Machine

namespace Sys2Proof.Machine

/-! ## The transactions (spec/43_transactions.md)

Each outcome is an equation of the procedure; past the reserved-bit check, `exec` finishes what the procedure returns. -/

/-- Past the reserved-bit check SEND runs its procedure (R253). -/
theorem exec_send {f : CmdFields} (h : f.reserved = false) (s : State) :
    exec (.send f) s = .next (finishFlow (sendProc f s)) :=
  congrArg Host.Outcome.next (dispatchCommand_accepted h (sendProc f) s)

/-- Past the reserved-bit check RECV runs its procedure (R253). -/
theorem exec_recv {f : CmdFields} (h : f.reserved = false) (s : State) :
    exec (.recv f) s = .next (finishFlow (recvProc f s)) :=
  congrArg Host.Outcome.next (dispatchCommand_accepted h (recvProc f) s)

/-! ### Failing handshakes before the data (R206, R211, R217, R223) -/

/-- Every transaction whose first address byte is not acknowledged: one STOP, E_NOACK_ADDR (R206, R211). -/
theorem checked_address_notAcknowledged {v : Byte} {rest : State → State → Flow} {s : State}
    (ha : argsOk s.ready s.latch.buf s.latch.count = true) (hd : drawAt s 0 = HIGH) :
    checked (fun s => handshake v eNoAckAddr (rest s) (busStart s)) s =
      .ret eNoAckAddr { skipDraws 1 s with
        ack := .notAcknowledged, sclO := HIGH, sdaO := HIGH
        trace := s.trace ++ (Trace.address v HIGH ++ Trace.stop) } :=
  (if_pos ha).trans (addressPhase_notAcknowledged v eNoAckAddr (rest s) s hd)

/-- Settles O31: the four transactions begin with START and an address byte, and abort alike. -/
theorem addressNoAck : Obligations.AddressNoAck := by
  intro f s hres ha hd
  refine ⟨(exec_send hres s).trans ?_, (exec_memWrite hres s).trans ?_, (exec_memRead hres s).trans ?_,
    (exec_recv hres s).trans ?_⟩ <;>
  exact congrArg (fun x => Host.Outcome.next (finishFlow x)) (checked_address_notAcknowledged ha hd)

/-- MEM_WRITE and MEM_READ whose register byte is not acknowledged: one STOP, E_NOACK_REG (R217). -/
theorem checked_register_notAcknowledged {v reg : Byte} {rest : State → State → Flow} {s : State}
    (ha : argsOk s.ready s.latch.buf s.latch.count = true) (h0 : drawAt s 0 = LOW) (h1 : drawAt s 1 = HIGH) :
    checked (fun s => handshake v eNoAckAddr (handshake reg eNoAckReg (rest s)) (busStart s)) s =
      .ret eNoAckReg { skipDraws 2 s with
        ack := .notAcknowledged, sclO := HIGH, sdaO := HIGH
        trace := s.trace ++ (Trace.address v LOW ++ Trace.byte reg HIGH ++ Trace.stop) } := by
  refine (if_pos ha).trans ?_
  dsimp only
  rw [addressPhase_acknowledged _ _ _ _ h0, handshake_notAcknowledged]
  · simp [skipDraws]
  · exact (drawAt_skipDraws 1 s 0).trans h1

/-- Settles O34: both write phases send the register byte after the address, and abort alike. -/
theorem registerNoAck : Obligations.RegisterNoAck := by
  intro f s hres ha h0 h1
  exact ⟨(exec_memWrite hres s).trans (congrArg (fun x => Host.Outcome.next (finishFlow x))
      (checked_register_notAcknowledged ha h0 h1)),
    (exec_memRead hres s).trans (congrArg (fun x => Host.Outcome.next (finishFlow x))
      (checked_register_notAcknowledged ha h0 h1))⟩

/-- MEM_READ whose read address is not acknowledged: the delegated read's E_NOACK_ADDR is not the count (R222, R223). -/
theorem memReadProc_shortRead (f : CmdFields) (s : State) (ha : argsOk s.ready s.latch.buf s.latch.count = true)
    (h0 : drawAt s 0 = LOW) (h1 : drawAt s 1 = LOW) (h2 : drawAt s 2 = HIGH) :
    memReadProc f s = .ret eShortRead { skipDraws 3 s with
      ack := .notAcknowledged, sclO := HIGH, sdaO := HIGH
      trace := s.trace ++ (Trace.address (addrW f.dev) LOW ++ Trace.byte f.reg LOW ++ Trace.stop ++
        (Trace.address (addrR f.dev) HIGH ++ Trace.stop)) } := by
  have hread : recvProc f (writePhaseDone f s) = _ :=
    checked_address_notAcknowledged (v := addrR f.dev) (rest := fun s => recvLoop s.latch.count.toNat 0)
      (s := writePhaseDone f s) ha ((drawAt_writePhaseDone f s 0).trans h2)
  have hshort : shortReadResult eNoAckAddr s.latch.count = eShortRead := by
    refine if_neg fun h => ?_
    obtain ⟨-, hmax, -⟩ := argsOk_bounds ha
    rw [← h] at hmax
    exact absurd hmax (by decide)
  rw [memReadProc_writePhase f s ha h0 h1, hread]
  simp [afterDelegated, hshort, writePhaseDone, skipDraws]

/-- Settles O37: the write phase is acknowledged, the read phase ends at its address. -/
theorem memReadShortRead : Obligations.MemReadShortRead := by
  intro f s hres ha h0 h1 h2
  rw [exec_memRead hres, memReadProc_shortRead f s ha h0 h1 h2]
  rfl

/-! ### The data phases (R205, R207, R215) -/

/-- SEND's data from its first byte, every handshake acknowledged (R205). -/
theorem sendProc_acknowledged (f : CmdFields) (s : State)
    (ha : argsOk s.ready s.latch.buf s.latch.count = true) (hr : s.raced = []) (hp : bufferAdmitted s)
    (hd : ∀ j, j ≤ bytesWanted s → drawAt s j = LOW) :
    sendProc f s = .ret s.latch.count { skipDraws (bytesWanted s + 1) s with
      ack := .acknowledged, sclO := HIGH, sdaO := HIGH
      trace := s.trace ++ (Trace.address (addrW f.dev) LOW ++
        Trace.sentAll s.latch.buf.toNat (loadBytes s.mem s.latch.buf.toNat (bytesWanted s)) ++ Trace.stop) } := by
  simp only [sendProc, checked, ha, if_true]
  rw [addressPhase_acknowledged _ _ _ _ (hd 0 (by omega)), sendLoop_acknowledged]
  · simp [skipDraws, effAddr, bytesWanted, addressByte, Nat.add_comm 1, Nat.add_assoc]
  · exact hr
  · intro j hj
    simpa using hp j hj
  · intro j hj
    exact (drawAt_skipDraws 1 s j).trans (hd (1 + j) (by simp only [bytesWanted]; omega))
  · rfl

/-- Settles O29: SEND's trace with every handshake acknowledged, then `finish`. -/
theorem sendSucceeds : Obligations.SendSucceeds := by
  rintro f s ⟨hres, ha, hr⟩ hp hd
  rw [exec_send hres, sendProc_acknowledged f s ha hr hp hd]
  rfl

/-- Settles O33: SEND's data phase after the register byte. -/
theorem memWriteSucceeds : Obligations.MemWriteSucceeds := by
  rintro f s ⟨hres, ha, hr⟩ hp hd
  rw [exec_memWrite hres, memWriteProc_acknowledged f s ha hr hp hd]
  rfl

/-- Settles O32: `finish` drops the race list that the stores left. -/
theorem recvSucceeds : Obligations.RecvSucceeds := by
  rintro f s ⟨hres, ha, -⟩ hp hd
  obtain ⟨rc, hrecv⟩ := recvProc_acknowledged f s ha hp hd
  rw [exec_recv hres, hrecv]
  rfl

/-- Settles O36: as RECV, after the write phase. -/
theorem memReadSucceeds : Obligations.MemReadSucceeds := by
  rintro f s ⟨hres, ha, -⟩ hp h0 h1 h2
  obtain ⟨rc, hread⟩ := memReadProc_acknowledged f s ha hp h0 h1 h2
  rw [exec_memRead hres, hread]
  rfl

/-- SEND's data with the handshake of byte `j` refused (R207). -/
theorem sendProc_notAcknowledged (f : CmdFields) (s : State) {j : Nat}
    (ha : argsOk s.ready s.latch.buf s.latch.count = true) (hr : s.raced = []) (hj : j < bytesWanted s)
    (hp : ∀ i, i ≤ j → portAdmits s.plat (s.latch.buf.toNat + i) = true)
    (hd : ∀ i, i ≤ j → drawAt s i = LOW) (hn : drawAt s (j + 1) = HIGH) :
    sendProc f s = .ret eNoAckData { skipDraws (j + 2) s with
      ack := .notAcknowledged, sclO := HIGH, sdaO := HIGH
      trace := s.trace ++ (Trace.address (addrW f.dev) LOW ++
        Trace.sentAll s.latch.buf.toNat (loadBytes s.mem s.latch.buf.toNat j) ++
        Trace.sent (s.latch.buf.toNat + j) (Memory.read s.mem (s.latch.buf.toNat + j)) HIGH ++ Trace.stop) } := by
  simp only [sendProc, checked, ha, if_true]
  rw [addressPhase_acknowledged _ _ _ _ (hd 0 (by omega)), sendLoop_notAcknowledged _ 0 j]
  · simp [skipDraws, effAddr, addressByte, Nat.add_comm 1, Nat.add_assoc]
  · exact hj
  · exact hr
  · intro i hi
    simpa [effAddr] using hp i hi
  · intro i hi
    exact (drawAt_skipDraws 1 s i).trans (hd (1 + i) (by omega))
  · exact (drawAt_skipDraws 1 s j).trans (by rw [Nat.add_comm]; exact hn)

/-- Settles O30: the bytes before `j` go through as in a success; byte `j` leaves the loop. -/
theorem sendDataNoAck : Obligations.SendDataNoAck := by
  rintro f s j ⟨hres, ha, hr⟩ hj hp hd hn
  rw [exec_send hres, sendProc_notAcknowledged f s ha hr hj hp hd hn]
  rfl

/-- MEM_WRITE's data with the handshake of byte `j` refused (R215, R218). -/
theorem memWriteProc_notAcknowledged (f : CmdFields) (s : State) {j : Nat}
    (ha : argsOk s.ready s.latch.buf s.latch.count = true) (hr : s.raced = []) (hj : j < bytesWanted s)
    (hp : ∀ i, i ≤ j → portAdmits s.plat (s.latch.buf.toNat + i) = true)
    (hd : ∀ i, i ≤ j + 1 → drawAt s i = LOW) (hn : drawAt s (j + 2) = HIGH) :
    memWriteProc f s = .ret eNoAckData { skipDraws (j + 3) s with
      ack := .notAcknowledged, sclO := HIGH, sdaO := HIGH
      trace := s.trace ++ (Trace.address (addrW f.dev) LOW ++ Trace.byte f.reg LOW ++
        Trace.sentAll s.latch.buf.toNat (loadBytes s.mem s.latch.buf.toNat j) ++
        Trace.sent (s.latch.buf.toNat + j) (Memory.read s.mem (s.latch.buf.toNat + j)) HIGH ++ Trace.stop) } := by
  simp only [memWriteProc, checked, ha, if_true]
  rw [registerPhase_acknowledged _ _ _ _ _ _ (hd 0 (by omega)) (hd 1 (by omega)), sendLoop_notAcknowledged _ 0 j]
  · simp [skipDraws, effAddr, addressByte, Nat.add_comm 2, Nat.add_assoc]
  · exact hj
  · exact hr
  · intro i hi
    simpa [effAddr] using hp i hi
  · intro i hi
    exact (drawAt_skipDraws 2 s i).trans (hd (2 + i) (by omega))
  · exact (drawAt_skipDraws 2 s j).trans (by rw [Nat.add_comm]; exact hn)

/-- Settles O35: SEND's data phase up to byte `j`, after the register byte. -/
theorem memWriteDataNoAck : Obligations.MemWriteDataNoAck := by
  rintro f s j ⟨hres, ha, hr⟩ hj hp hd hn
  rw [exec_memWrite hres, memWriteProc_notAcknowledged f s ha hr hj hp hd hn]
  rfl

/-! ### Counts (spec/70_reset_and_hazards.md R297) -/

/-- A trace of `events` events, `ticks` of them delays and `samples` of them samples. -/
structure Trace.Counts (e : List Event) (ticks events samples : Nat) : Prop where
  ticks : Trace.ticks e = ticks
  events : e.length = events
  samples : Trace.samples e = samples

theorem Trace.Counts.append {a b : List Event} {t n m t' n' m' : Nat} (ha : Trace.Counts a t n m)
    (hb : Trace.Counts b t' n' m') : Trace.Counts (a ++ b) (t + t') (n + n') (m + m') := by
  refine ⟨?_, ?_, ?_⟩
  · rw [← ha.ticks, ← hb.ticks, Trace.ticks, List.countP_append, Trace.ticks, Trace.ticks]
  · rw [List.length_append, ha.events, hb.events]
  · rw [← ha.samples, ← hb.samples, Trace.samples, List.countP_append, Trace.samples, Trace.samples]

theorem counts_start : Trace.Counts Trace.start 4 8 0 := ⟨rfl, rfl, rfl⟩

theorem counts_stop : Trace.Counts Trace.stop 4 8 0 := ⟨rfl, rfl, rfl⟩

theorem counts_ack : Trace.Counts Trace.ack 4 8 0 := ⟨rfl, rfl, rfl⟩

theorem counts_nak : Trace.Counts Trace.nak 4 8 0 := ⟨rfl, rfl, rfl⟩

theorem counts_wa (b : Level) : Trace.Counts (Trace.wa b) 4 8 1 := by
  cases b <;> exact ⟨rfl, rfl, rfl⟩

theorem counts_sb (v : Byte) : Trace.Counts (Trace.sb v) 24 48 0 := ⟨rfl, rfl, rfl⟩

theorem counts_memRead (a : Nat) (v : Byte) : Trace.Counts [.memRead a v] 0 1 0 := ⟨rfl, rfl, rfl⟩

theorem counts_memWrite (a : Nat) (v : Byte) : Trace.Counts [.memWrite a v] 0 1 0 := ⟨rfl, rfl, rfl⟩

/-- One bit of RECV_BYTE (R182). -/
theorem counts_recvBit (b : Level) :
    Trace.Counts [.setSCL false, .delay, .setSCL true, .sample b, .delay] 2 5 1 := by
  cases b <;> exact ⟨rfl, rfl, rfl⟩

theorem Trace.Counts.cast {e : List Event} {t n m t' n' m' : Nat} (h : Trace.Counts e t n m) (ht : t = t') (hn : n = n')
    (hm : m = m') : Trace.Counts e t' n' m' := by
  subst ht hn hm
  exact h

theorem counts_rb (v : Byte) : Trace.Counts (Trace.rb v) 16 40 8 := by
  have hbits : ∀ ks : List Nat, Trace.Counts (ks.flatMap fun k =>
      [.setSCL false, .delay, .setSCL true, .sample (v.getLsbD k), .delay]) (2 * ks.length) (5 * ks.length) ks.length := by
    intro ks
    induction ks with
    | nil => exact ⟨rfl, rfl, rfl⟩
    | cons k ks ih =>
      refine ((counts_recvBit (v.getLsbD k)).append ih).cast ?_ ?_ ?_ <;> rw [List.length_cons] <;> omega
  exact hbits [7, 6, 5, 4, 3, 2, 1, 0]

theorem counts_byte (v : Byte) (b : Level) : Trace.Counts (Trace.byte v b) 28 56 1 := (counts_sb v).append (counts_wa b)

theorem counts_address (v : Byte) (b : Level) : Trace.Counts (Trace.address v b) 32 64 1 :=
  counts_start.append (counts_byte v b)

theorem counts_sent (a : Nat) (v : Byte) (b : Level) : Trace.Counts (Trace.sent a v b) 28 57 1 :=
  (counts_memRead a v).append (counts_byte v b)

theorem counts_sentAll (a : Nat) (vs : List Byte) :
    Trace.Counts (Trace.sentAll a vs) (28 * vs.length) (57 * vs.length) vs.length := by
  induction vs generalizing a with
  | nil => exact ⟨rfl, rfl, rfl⟩
  | cons v vs ih =>
    refine ((counts_sent a v false).append (ih (a + 1))).cast ?_ ?_ ?_ <;> rw [List.length_cons] <;> omega

/-- A received byte, its store, and its ACK or NAK (R210). -/
theorem counts_received (a : Nat) (v : Byte) {sig : List Event} (h : Trace.Counts sig 4 8 0) :
    Trace.Counts (Trace.rb v ++ .memWrite a v :: sig) 20 49 8 :=
  (counts_rb v).append ((counts_memWrite a v).append h)

theorem counts_receivedAll (a : Nat) (vs : List Byte) :
    Trace.Counts (Trace.receivedAll a vs) (20 * vs.length) (49 * vs.length) (8 * vs.length) := by
  induction vs generalizing a with
  | nil => exact ⟨rfl, rfl, rfl⟩
  | cons v vs ih =>
    cases vs with
    | nil => exact counts_received a v counts_nak
    | cons w vs =>
      have hassoc : Trace.receivedAll a (v :: w :: vs) =
          (Trace.rb v ++ .memWrite a v :: Trace.ack) ++ Trace.receivedAll (a + 1) (w :: vs) := by
        simp only [Trace.receivedAll, List.append_assoc, List.cons_append]
      rw [hassoc]
      refine ((counts_received a v counts_ack).append (ih (a + 1))).cast ?_ ?_ ?_ <;> rw [List.length_cons (a := v)] <;>
        omega

@[simp] theorem drawnBytes_length (s : State) (j n : Nat) : (drawnBytes s j n).length = n := by
  simp [drawnBytes]

/-- What a finished command appended to the trace, counted. -/
theorem exec_counts {i : Instr} {s u : State} {res : Word} {e : List Event} {ticks events samples : Nat}
    (h : exec i s = .next (finishCommand res u)) (htrace : u.trace = s.trace ++ e)
    (hc : Trace.Counts e ticks events samples) :
    ∃ t e, exec i s = .next t ∧ t.trace = s.trace ++ e ∧ Trace.ticks e = ticks ∧ e.length = events ∧
      Trace.samples e = samples :=
  ⟨_, e, h, htrace, hc.ticks, hc.events, hc.samples⟩

/-- Settles O43: the traces of the four successes, counted. -/
theorem successCounts : Obligations.SuccessCounts := by
  intro f s hready hadm
  refine ⟨fun hd => exec_counts (sendSucceeds f s hready hadm hd) rfl ?_,
    fun hd => exec_counts (recvSucceeds f s hready hadm hd) rfl ?_,
    fun hd => exec_counts (memWriteSucceeds f s hready hadm hd) rfl ?_,
    fun hd => exec_counts (memReadSucceeds f s hready hadm (hd 0 (by omega)) (hd 1 (by omega)) (hd 2 (by omega))) rfl ?_⟩
  · refine (((counts_address _ _).append (counts_sentAll _ _)).append counts_stop).cast ?_ ?_ ?_ <;>
      rw [loadBytes_length] <;> omega
  · refine (((counts_address _ _).append (counts_receivedAll _ _)).append counts_stop).cast ?_ ?_ ?_ <;>
      rw [drawnBytes_length] <;> omega
  · refine ((((counts_address _ _).append (counts_byte _ _)).append (counts_sentAll _ _)).append counts_stop).cast
      ?_ ?_ ?_ <;> rw [loadBytes_length] <;> omega
  · refine ((((counts_address _ _).append (counts_byte _ _)).append counts_stop).append
      (((counts_address _ _).append (counts_receivedAll _ _)).append counts_stop)).cast ?_ ?_ ?_ <;>
      rw [drawnBytes_length] <;> omega

/-- Settles O44: the traces of the failures, counted. -/
theorem failureCounts : Obligations.FailureCounts := by
  rintro f s hready hadm
  obtain ⟨hres, ha, -⟩ := id hready
  have hadmTo : ∀ j, j < bytesWanted s → ∀ i, i ≤ j → portAdmits s.plat (s.latch.buf.toNat + i) = true :=
    fun j hj i hi => hadm i (by omega)
  refine ⟨fun h0 => ?_, fun h0 h1 => ?_, fun h0 h1 h2 => ?_, fun j hj hd hn => ?_, fun j hj hd hn => ?_⟩
  · obtain ⟨hsend, hwrite, hread, hrecv⟩ := addressNoAck f s hres ha h0
    have hc := fun v => (counts_address v HIGH).append counts_stop
    exact ⟨exec_counts hsend rfl (hc _), exec_counts hrecv rfl (hc _), exec_counts hwrite rfl (hc _),
      exec_counts hread rfl (hc _)⟩
  · obtain ⟨hwrite, hread⟩ := registerNoAck f s hres ha h0 h1
    have hc := ((counts_address (f.dev &&& 0xFE) LOW).append (counts_byte f.reg HIGH)).append counts_stop
    exact ⟨exec_counts hwrite rfl hc, exec_counts hread rfl hc⟩
  · exact exec_counts (memReadShortRead f s hres ha h0 h1 h2) rfl
      ((((counts_address _ _).append (counts_byte _ _)).append counts_stop).append
        ((counts_address _ _).append counts_stop))
  · refine exec_counts (sendDataNoAck f s j hready hj (hadmTo j hj) hd hn) rfl ?_
    refine ((((counts_address _ _).append (counts_sentAll _ _)).append (counts_sent _ _ _)).append counts_stop).cast
      ?_ ?_ ?_ <;> rw [loadBytes_length] <;> omega
  · refine exec_counts (memWriteDataNoAck f s j hready hj (hadmTo j hj) hd hn) rfl ?_
    refine (((((counts_address _ _).append (counts_byte _ _)).append (counts_sentAll _ _)).append
      (counts_sent _ _ _)).append counts_stop).cast ?_ ?_ ?_ <;> rw [loadBytes_length] <;> omega

end Sys2Proof.Machine

namespace Sys2Proof.Machine

/-! ## What holds of every outcome of a command (spec/43_transactions.md R202, spec/60_exceptions.md R251, R261) -/

/-- The dispatcher finishes the command at once, or with what its procedure returned, or leaves it stuck (R253). -/
theorem dispatchCommand_cases (f : CmdFields) (proc : State → Flow) (s : State) :
    dispatchCommand f proc s = finishCommand eInvalidArgument s ∨
      (∃ res t, proc s = .ret res t ∧ dispatchCommand f proc s = finishCommand res t) ∨
      ∃ t, proc s = .stuck t ∧ dispatchCommand f proc s = t := by
  unfold dispatchCommand
  split
  · exact .inl rfl
  · cases hx : proc s with
    | ret res t => exact .inr (.inl ⟨res, t, rfl, rfl⟩)
    | stuck t => exact .inr (.inr ⟨t, rfl, rfl⟩)

/-- A transaction's procedure keeps the host's registers, the latched command, the host agent and the platform. -/
theorem procOf_keepsCommand {op : BitVec 4} (h : isTransaction op = true) (f : CmdFields) (s : State) :
    KeepsCommand s (procOf op f s).state := by
  have hc := recvClosed_keepsCommand s
  unfold procOf
  split_ifs with hinit
  · rw [hinit] at h
    cases h
  · exact hc.sendProc f s (.refl s)
  · exact hc.recvProc f s (.refl s)
  · exact hc.memWriteProc f s (.refl s)
  · exact hc.memReadProc f s (.refl s)
  · exact .refl s

/-- The four transactions as the commands of their OPs. -/
theorem transaction_op {f : CmdFields} {i : Instr} (h : i = .send f ∨ i = .recv f ∨ i = .memWrite f ∨ i = .memRead f) :
    ∃ op, isTransaction op = true ∧ i = decodeOp op f := by
  obtain rfl | rfl | rfl | rfl := h
  · exact ⟨opSend, rfl, rfl⟩
  · exact ⟨opRecv, rfl, rfl⟩
  · exact ⟨opMemWrite, rfl, rfl⟩
  · exact ⟨opMemRead, rfl, rfl⟩

/-- Settles O39: the procedures keep all of it, and `finish` writes none of it. -/
theorem transactionFrame : Obligations.TransactionFrame := by
  intro f s t i hi h
  obtain ⟨op, hop, rfl⟩ := transaction_op hi
  rw [exec_decodeOp, Host.Outcome.next.injEq] at h
  obtain ⟨u, hk, hlike⟩ : ∃ u, KeepsCommand s u ∧ (t = u ∨ ∃ res, t = finishCommand res u) := by
    have hk := procOf_keepsCommand hop f s
    obtain hd | ⟨res, u, hx, hd⟩ | ⟨u, hx, hd⟩ := dispatchCommand_cases f (procOf op f) s
    · exact ⟨s, .refl s, .inr ⟨_, h.symm.trans hd⟩⟩
    · rw [hx] at hk
      exact ⟨u, hk, .inr ⟨res, h.symm.trans hd⟩⟩
    · rw [hx] at hk
      exact ⟨u, hk, .inl (h.symm.trans hd)⟩
  obtain rfl | ⟨res, rfl⟩ := hlike <;>
    exact ⟨hk.tick, hk.ready, hk.cmd, hk.freq, hk.buf, hk.count, hk.latch, hk.plat, hk.turns, hk.reads, hk.hostStuck⟩

/-! ### Memory (R75, R208, R213) -/

theorem busOp_mem (u : MicroOp) (s : State) : (busOp u s).mem = s.mem := by
  cases u <;> simp only [busOp, busStart_eq, busStop_eq, busAck_eq, busNak_eq, busWaitAck_eq, busSendByte_eq,
    busRecvByte_eq, skipDraws_mem]

/-- Memory outside the latched buffer reads as before. -/
structure KeepsOutside (s t : State) : Prop where
  latch : t.latch = s.latch
  read : ∀ a, (∀ k, k < bytesWanted s → a ≠ effAddr s.latch.buf k) → Memory.read t.mem a = Memory.read s.mem a

theorem KeepsOutside.of_mem {s t u : State} (h : KeepsOutside s t) (hlatch : u.latch = t.latch) (hmem : u.mem = t.mem) :
    KeepsOutside s u :=
  ⟨hlatch.trans h.latch, fun a ha => by rw [hmem]; exact h.read a ha⟩

theorem KeepsOutside.busOp {s t : State} (h : KeepsOutside s t) (u : MicroOp) : KeepsOutside s (busOp u t) :=
  h.of_mem (KeepsCommand.busOp u t).latch (busOp_mem u t)

theorem recvClosed_keepsOutside (s : State) : RecvClosed (KeepsOutside s) where
  start _ h := h.busOp .start
  stop _ h := h.busOp .stop
  byte v _ h := (h.busOp (.sendByte v)).busOp .waitAck
  read a t h := h.of_mem (KeepsCommand.memReadByte a t).latch (memReadByte_place a t).2.1
  stuck _ _ _ _ h := h.of_mem rfl rfl
  recv _ h := h.busOp .recvByte
  write i t h hi _ := by
    refine ⟨h.latch, fun a ha => ?_⟩
    rw [h.latch] at hi ⊢
    exact (Memory.read_write_other t.mem t.acc (ha i hi)).trans (h.read a ha)
  ack _ h := h.busOp .ack
  nak _ h := h.busOp .nak

/-- SEND and MEM_WRITE store nothing (R208, R257). -/
theorem busClosed_mem (m : List Host.Cell) : BusClosed (fun t => t.mem = m) where
  start t h := (busOp_mem .start t).trans h
  stop t h := (busOp_mem .stop t).trans h
  byte v t h := ((busOp_mem .waitAck _).trans (busOp_mem (.sendByte v) t)).trans h
  read a t h := (memReadByte_place a t).2.1.trans h
  stuck _ _ _ _ h := h

/-- A command's memory is the one it found, or the one its procedure left. -/
theorem dispatchCommand_mem (f : CmdFields) (proc : State → Flow) (s : State) :
    (dispatchCommand f proc s).mem = s.mem ∨ (dispatchCommand f proc s).mem = (proc s).state.mem := by
  obtain h | ⟨res, t, hx, h⟩ | ⟨t, hx, h⟩ := dispatchCommand_cases f proc s <;> rw [h]
  · exact .inl rfl
  · exact .inr (by rw [hx]; rfl)
  · exact .inr (by rw [hx]; rfl)

/-- Settles O40: SEND and MEM_WRITE store nothing, and every store of RECV and MEM_READ is at a byte of the buffer. -/
theorem transactionMemoryFrame : Obligations.TransactionMemoryFrame := by
  intro f s t
  have hkeep : ∀ proc, (proc s).state.mem = s.mem → Host.Outcome.next (φ := Fault) (ρ := Refusal)
      (dispatchCommand f proc s) = .next t → ∀ a, Memory.read t.mem a = Memory.read s.mem a := by
    intro proc hproc h a
    obtain rfl := Host.Outcome.next.inj h
    obtain hm | hm := dispatchCommand_mem f proc s
    · rw [hm]
    · rw [hm, hproc]
  have houtside : ∀ proc, KeepsOutside s (proc s).state → Host.Outcome.next (φ := Fault) (ρ := Refusal)
      (dispatchCommand f proc s) = .next t → ∀ a, (∀ k, k < bytesWanted s → a ≠ effAddr s.latch.buf k) →
        Memory.read t.mem a = Memory.read s.mem a := by
    intro proc hproc h a ha
    obtain rfl := Host.Outcome.next.inj h
    obtain hm | hm := dispatchCommand_mem f proc s
    · rw [hm]
    · rw [hm]
      exact hproc.read a ha
  have hs : KeepsOutside s s := ⟨rfl, fun _ _ => rfl⟩
  refine ⟨fun h => ?_, fun h => ?_⟩
  · obtain h | h := h
    · exact hkeep (sendProc f) ((busClosed_mem s.mem).sendProc f s rfl) h
    · exact hkeep (memWriteProc f) ((busClosed_mem s.mem).memWriteProc f s rfl) h
  · obtain h | h := h
    · exact houtside (recvProc f) ((recvClosed_keepsOutside s).recvProc f s hs) h
    · exact houtside (memReadProc f) ((recvClosed_keepsOutside s).memReadProc f s hs) h

/-! ### Results, and running to the end -/

theorem eInvalidArgument_mem_resultsOf (op : BitVec 4) (count : Word) : eInvalidArgument ∈ resultsOf op count := by
  unfold resultsOf
  split_ifs <;> simp

/-- A command that has finished has one of its OP's results (R251). -/
theorem exec_result {op : BitVec 4} {f : CmdFields} {s t : State} (h : exec (decodeOp op f) s = .next t)
    (hb : s.busy = true) (hb' : t.busy = false) : t.result ∈ resultsOf op s.latch.count := by
  rw [exec_decodeOp, Host.Outcome.next.injEq] at h
  subst h
  have hends := procOf_ends op f s
  have hbusy := procOf_busy op f s
  obtain h | ⟨res, u, hx, h⟩ | ⟨u, hx, h⟩ := dispatchCommand_cases f (procOf op f) s
  · rw [h]
    exact eInvalidArgument_mem_resultsOf op s.latch.count
  · rw [hx] at hends
    rw [h]
    exact hends
  · rw [hx] at hbusy
    rw [h, show u.busy = true from hbusy.trans hb] at hb'
    cases hb'

/-- Settles O41: the results of each OP's rows, one by one. -/
theorem commandResults : Obligations.CommandResults := by
  intro f s t hb hb'
  have hresult := fun op (h : exec (decodeOp op f) s = .next t) => exec_result h hb hb'
  refine ⟨fun h => ?_, fun h => ?_, fun h => ?_, fun h => ?_, fun h => ?_⟩
  · exact List.mem_pair.mp (hresult opInit h)
  · have hm : t.result ∈ [s.latch.count, 0xFFFFFFFF, 0xFFFFFFFE, 0xFFFFFFFC] := hresult opSend h
    simpa using hm
  · have hm : t.result ∈ [s.latch.count, 0xFFFFFFFF, 0xFFFFFFFE] := hresult opRecv h
    simpa using hm
  · have hm : t.result ∈ [s.latch.count, 0xFFFFFFFF, 0xFFFFFFFE, 0xFFFFFFFD, 0xFFFFFFFC] :=
      hresult opMemWrite h
    simpa using hm
  · have hm : t.result ∈ [s.latch.count, 0xFFFFFFFF, 0xFFFFFFFE, 0xFFFFFFFD, 0xFFFFFFFB] :=
      hresult opMemRead h
    simpa using hm

/-- No procedure moves the buffer or changes what the port admits. -/
theorem procOf_keepsBuffer (op : BitVec 4) (f : CmdFields) (s : State) :
    (procOf op f s).state.latch = s.latch ∧ (procOf op f s).state.plat = s.plat := by
  obtain hop | hop | hop := op_kinds op
  · rw [procOf_reserved f hop]
    exact ⟨rfl, rfl⟩
  · have hproc : procOf op f = initProc := by rw [hop]; rfl
    rw [hproc, initProc]
    split <;> exact ⟨rfl, rfl⟩
  · have hk := procOf_keepsCommand hop f s
    exact ⟨hk.latch, hk.plat⟩

/-- Settles O42: a command that is not finished is stuck at a byte of its buffer that is not admitted. -/
theorem commandsRunToFinish : Obligations.CommandsRunToFinish := by
  intro op f s hadm
  refine ⟨_, exec_decodeOp op f s, ?_⟩
  obtain h | ⟨res, u, -, h⟩ | ⟨u, hx, h⟩ := dispatchCommand_cases f (procOf op f) s
  · rw [h]
    exact ⟨rfl, rfl⟩
  · rw [h]
    exact ⟨rfl, rfl⟩
  · exfalso
    have hends := procOf_ends op f s
    have hkeep := procOf_keepsBuffer op f s
    rw [hx] at hends hkeep
    obtain ⟨hlatch, hplat⟩ : u.latch = s.latch ∧ u.plat = s.plat := hkeep
    obtain ⟨-, hbyte, hrefused⟩ := hends
    have hbyte' := hadm u.i (by rw [bytesWanted, ← hlatch]; exact hbyte)
    rw [← hlatch, ← hplat, hrefused] at hbyte'
    cases hbyte'

/-! ## The host's registers are not the running command's (spec/10_state.md R41, R48) -/

/-- A procedure's outcome with its state changed by `g`. -/
def Flow.map (g : State → State) : Flow → Flow
  | .ret res s => .ret res (g s)
  | .stuck s => .stuck (g s)

section
variable (a b c d : Word)

/-- The procedure does the same whatever the host writes to CMD, FREQ, BUF and COUNT. -/
def IgnoresHost (proc : State → Flow) : Prop :=
  ∀ s, proc (withHostRegs a b c d s) = (proc s).map (withHostRegs a b c d)

variable {a b c d}

theorem IgnoresHost.handshake {v : Byte} {code : Word} {rest : State → Flow} (hrest : IgnoresHost a b c d rest) :
    IgnoresHost a b c d (handshake v code rest) := by
  intro s
  have hg := unread_withHostRegs a b c d
  have hbyte : busWaitAck (busSendByte v (withHostRegs a b c d s)) =
      withHostRegs a b c d (busWaitAck (busSendByte v s)) :=
    (congrArg busWaitAck (hg.busOp (.sendByte v) s)).trans (hg.busOp .waitAck _)
  unfold Machine.handshake
  dsimp only
  rw [hbyte, hg.ack]
  split
  · exact congrArg (Flow.ret code) (hg.busOp .stop _)
  · exact hrest _

theorem IgnoresHost.sendLoop (n i : Nat) : IgnoresHost a b c d (sendLoop n i) := by
  induction n generalizing i with
  | zero => exact fun s => congrArg (Flow.ret s.latch.count) ((unread_withHostRegs a b c d).busOp .stop s)
  | succ n ih =>
    intro s
    have hg := unread_withHostRegs a b c d
    rw [Machine.sendLoop, Machine.sendLoop, hg.plat, hg.latch, hg.read]
    split
    · exact IgnoresHost.handshake (ih (i + 1)) _
    · rfl

theorem IgnoresHost.recvLoop (n i : Nat) : IgnoresHost a b c d (recvLoop n i) := by
  induction n generalizing i with
  | zero => exact fun s => congrArg (Flow.ret s.latch.count) ((unread_withHostRegs a b c d).busOp .stop s)
  | succ n ih =>
    intro s
    have hg := unread_withHostRegs a b c d
    have hrecv : busRecvByte (withHostRegs a b c d s) = withHostRegs a b c d (busRecvByte s) := hg.busOp .recvByte s
    rw [Machine.recvLoop, Machine.recvLoop, hrecv]
    dsimp only
    rw [hg.plat, hg.latch, hg.acc, hg.write, hg.latch]
    split
    · split
      · exact (congrArg _ (hg.busOp .ack _)).trans (ih (i + 1) _)
      · exact (congrArg _ (hg.busOp .nak _)).trans (ih (i + 1) _)
    · rfl

/-- CHECK_ARGS reads READY and the latched command. -/
theorem IgnoresHost.checked {body : State → State → Flow} (hbody : ∀ s, IgnoresHost a b c d (body s))
    (hsame : ∀ s, body (withHostRegs a b c d s) = body s) :
    IgnoresHost a b c d (checked fun s => body s (busStart s)) := by
  intro s
  have hg := unread_withHostRegs a b c d
  have hstart : busStart (withHostRegs a b c d s) = withHostRegs a b c d (busStart s) := hg.busOp .start s
  unfold Machine.checked
  rw [hg.ready, hg.latch]
  split
  · dsimp only
    rw [hsame, hstart]
    exact hbody s _
  · rfl

theorem IgnoresHost.recvProc (f : CmdFields) : IgnoresHost a b c d (recvProc f) :=
  .checked (body := fun s => Machine.handshake (addressByte .read f.dev) eNoAckAddr (Machine.recvLoop s.latch.count.toNat 0))
    (fun _ => .handshake (.recvLoop _ 0)) (fun _ => rfl)

theorem IgnoresHost.procOf (op : BitVec 4) (f : CmdFields) : IgnoresHost a b c d (procOf op f) := by
  unfold Machine.procOf
  split_ifs
  · intro s
    unfold initProc
    rw [(unread_withHostRegs a b c d).latch]
    split <;> rfl
  · exact .checked (body := fun s => Machine.handshake (addressByte .write f.dev) eNoAckAddr
      (Machine.sendLoop s.latch.count.toNat 0)) (fun _ => .handshake (.sendLoop _ 0)) (fun _ => rfl)
  · exact .recvProc f
  · exact .checked (body := fun s => Machine.handshake (addressByte .write f.dev) eNoAckAddr
      (Machine.handshake f.reg eNoAckReg (Machine.sendLoop s.latch.count.toNat 0)))
      (fun _ => .handshake (.handshake (.sendLoop _ 0))) (fun _ => rfl)
  · refine .checked (body := fun _ => Machine.handshake (addressByte .write f.dev) eNoAckAddr
      (Machine.handshake f.reg eNoAckReg fun t => afterDelegated (Machine.recvProc f (busStop t))))
      (fun _ => .handshake (.handshake fun t => ?_)) (fun _ => rfl)
    have hstop : busStop (withHostRegs a b c d t) = withHostRegs a b c d (busStop t) :=
      (unread_withHostRegs a b c d).busOp .stop t
    rw [hstop, IgnoresHost.recvProc f (busStop t)]
    cases Machine.recvProc f (busStop t) <;> rfl
  · exact fun _ => rfl

theorem dispatchCommand_ignoresHost {proc : State → Flow} (h : IgnoresHost a b c d proc) (f : CmdFields) (s : State) :
    dispatchCommand f proc (withHostRegs a b c d s) = withHostRegs a b c d (dispatchCommand f proc s) := by
  unfold dispatchCommand
  split
  · rfl
  · rw [h s]
    cases proc s <;> rfl

theorem exec_ignoresHost (i : Instr) (s : State) :
    exec i (withHostRegs a b c d s) = mapNext (withHostRegs a b c d) (exec i s) := by
  have hcommand : ∀ op f, exec (decodeOp op f) (withHostRegs a b c d s) =
      mapNext (withHostRegs a b c d) (exec (decodeOp op f) s) := by
    intro op f
    rw [exec_decodeOp, exec_decodeOp, dispatchCommand_ignoresHost (.procOf op f)]
    rfl
  have hmicro : ∀ u : MicroOp, exec u.toInstr (withHostRegs a b c d s) =
      mapNext (withHostRegs a b c d) (exec u.toInstr s) := by
    intro u
    rw [exec_microOp, exec_microOp, (unread_withHostRegs a b c d).busOp]
    rfl
  cases i with
  | init f => exact hcommand opInit f
  | send f => exact hcommand opSend f
  | recv f => exact hcommand opRecv f
  | memWrite f => exact hcommand opMemWrite f
  | memRead f => exact hcommand opMemRead f
  | reservedOp0 f => exact hcommand 0 f
  | reservedOp67 low f =>
    exact congrArg Host.Outcome.next (dispatchCommand_ignoresHost (proc := reservedProc) (fun _ => rfl) f s)
  | reservedOp8F low f =>
    exact congrArg Host.Outcome.next (dispatchCommand_ignoresHost (proc := reservedProc) (fun _ => rfl) f s)
  | start => exact hmicro .start
  | stop => exact hmicro .stop
  | ack => exact hmicro .ack
  | nak => exact hmicro .nak
  | waitAck => exact hmicro .waitAck
  | sendByte v => exact hmicro (.sendByte v)
  | recvByte => exact hmicro .recvByte

/-! ### The engine's steps -/

theorem advance_ignoresHost (site : CallSite) (s : State) :
    advance site (withHostRegs a b c d s) = withHostRegs a b c d (advance site s) := by
  have hg := unread_withHostRegs a b c d
  cases site <;> simp only [advance]
  case addrAck =>
    rw [hg.ack]
    split
    · rfl
    · unfold afterAddress
      rw [hg.latch, show (withHostRegs a b c d s).phase = s.phase from rfl]
      split <;> [rfl; (split <;> rfl)]
  case regAck =>
    rw [hg.ack]
    split
    · rfl
    · unfold afterRegister
      rw [hg.latch]
      split <;> rfl
  case dataAck =>
    rw [hg.ack]
    split
    · rfl
    · unfold afterDataSent
      rw [hg.latch, show (withHostRegs a b c d s).i = s.i from rfl]
      split <;> rfl
  case midStop =>
    unfold afterMidStop
    rw [hg.latch, hg.ready]
    split <;> rfl
  case lastStop =>
    unfold afterReturn
    rw [hg.latch, show (withHostRegs a b c d s).phase = s.phase from rfl]
    split <;> rfl
  all_goals rfl

theorem dispatchPos_ignoresHost (s : State) :
    dispatchPos (withHostRegs a b c d s) = withHostRegs a b c d (dispatchPos s) := by
  have henter : ∀ ph, enterTransaction ph (withHostRegs a b c d s) = withHostRegs a b c d (enterTransaction ph s) := by
    intro ph
    unfold enterTransaction
    rw [(unread_withHostRegs a b c d).latch, (unread_withHostRegs a b c d).ready]
    split <;> rfl
  unfold dispatchPos
  rw [(unread_withHostRegs a b c d).latch]
  split
  · rfl
  · cases decodeOp s.latch.op s.latch.f with
    | init f => dsimp only; split <;> rfl
    | send f | recv f | memWrite f | memRead f => exact henter _
    | _ => rfl

theorem microStep_ignoresHost (u : MicroOp) (w : BitVec 11) (sub : Nat) (site : CallSite) (s : State) :
    microStep u w sub site (withHostRegs a b c d s) = withHostRegs a b c d (microStep u w sub site s) := by
  have hclear : clearAccAtEntry u sub (withHostRegs a b c d s) = withHostRegs a b c d (clearAccAtEntry u sub s) := by
    unfold clearAccAtEntry
    rw [show (withHostRegs a b c d s).k = s.k from rfl]
    split <;> rfl
  have hmove : ∀ t, nextMicro u w sub site (withHostRegs a b c d t) = withHostRegs a b c d (nextMicro u w sub site t) := by
    intro t
    unfold nextMicro
    rw [show (withHostRegs a b c d t).k = t.k from rfl]
    split_ifs
    · rfl
    · rfl
    · exact advance_ignoresHost site t
  unfold microStep
  rw [hclear, show (withHostRegs a b c d s).k = s.k from rfl]
  split
  · rw [(unread_withHostRegs a b c d).prim, hmove]
  · rfl

theorem positionStep_ignoresHost (s : State) :
    positionStep (withHostRegs a b c d s) = mapNext (withHostRegs a b c d) (positionStep s) := by
  have hg := unread_withHostRegs a b c d
  unfold positionStep
  rw [show (withHostRegs a b c d s).pos = s.pos from rfl]
  cases s.pos with
  | micro w sub site =>
    dsimp only
    cases decodeUop w with
    | ok u => exact congrArg Host.Outcome.next (microStep_ignoresHost u w sub site s)
    | error e => rfl
  | memRead =>
    refine congrArg Host.Outcome.next (?_ : bufferReadStep _ = withHostRegs a b c d (bufferReadStep s))
    unfold bufferReadStep
    rw [hg.plat, hg.latch, show (withHostRegs a b c d s).i = s.i from rfl, hg.read]
    split <;> rfl
  | memWrite =>
    refine congrArg Host.Outcome.next (?_ : bufferWriteStep _ = withHostRegs a b c d (bufferWriteStep s))
    unfold bufferWriteStep
    rw [hg.plat, hg.latch, show (withHostRegs a b c d s).i = s.i from rfl, hg.acc, hg.write]
    dsimp only
    split
    · rw [hg.latch, show ∀ t, (withHostRegs a b c d t).i = t.i from fun _ => rfl]
      split <;> rfl
    · rfl
  | _ => rfl

theorem engineStep_ignoresHost (s : State) :
    engineStep (withHostRegs a b c d s) = mapNext (withHostRegs a b c d) (engineStep s) := by
  by_cases hp : s.pos = .dispatch
  · have hdispatch : ∀ t : State, t.pos = .dispatch → engineStep t = positionStep (dispatchPos t) := by
      intro t ht
      simp only [engineStep, ht]
    rw [hdispatch s hp, hdispatch (withHostRegs a b c d s) hp, dispatchPos_ignoresHost, positionStep_ignoresHost]
  · have hother : ∀ t : State, t.pos ≠ .dispatch → engineStep t = positionStep t := fun t ht =>
      (engineStep_eq t).resolve_right fun h => ht h.1
    rw [hother s hp, hother (withHostRegs a b c d s) hp, positionStep_ignoresHost]

end

/-- Settles O11: no bus sequence, no check and no move of the sequencer reads or writes the four registers. -/
theorem engineReadsOnlyLatched : Obligations.EngineReadsOnlyLatched := fun s _ _ _ _ =>
  ⟨fun i => exec_ignoresHost i s, engineStep_ignoresHost s⟩

end Sys2Proof.Machine

namespace Sys2Proof.Machine

/-! ## The host's register window (spec/10_state.md R31, R41, spec/20_memory.md R72) -/

/-- Settles O6: `readReg` at each offset. -/
theorem hostLoadReturnsRegister : Obligations.HostLoadReturnsRegister := by
  intro s hstuck
  have hload := fun off => step_load s s.turns off hstuck
  refine ⟨hload 0x00 (by decide) (by decide), ?_, hload 0x08 (by decide) (by decide), hload 0x0C (by decide) (by decide),
    hload 0x10 (by decide) (by decide), hload 0x14 (by decide) (by decide), hload 0x18 (by decide) (by decide),
    hload 0x1C (by decide) (by decide)⟩
  have hstatus := hload 0x04 (by decide) (by decide)
  rw [show readReg 0x04 s = statusWord s.busy s.ready from rfl, statusWord_eq] at hstatus
  exact hstatus

/-- Settles O7: `writeReg` at each offset. -/
theorem hostStoreEffects : Obligations.HostStoreEffects := by
  intro s v hstuck
  have hstore := fun off => step_store s s.turns off v hstuck
  exact ⟨hstore 0x08 (by decide) (by decide), hstore 0x10 (by decide) (by decide), hstore 0x14 (by decide) (by decide),
    hstore 0x04 (by decide) (by decide), hstore 0x0C (by decide) (by decide), hstore 0x18 (by decide) (by decide),
    hstore 0x1C (by decide) (by decide)⟩

/-- Settles O8: the store is `acceptCommand`, which writes only these fields. -/
theorem cmdWriteAccepted : Obligations.CmdWriteAccepted := by
  intro s w hstuck hbusy
  exact ⟨_, step_acceptCommand w s.turns hstuck hbusy, rfl, rfl, rfl, rfl, rfl, rfl, rfl, rfl, rfl, rfl, rfl, rfl, rfl, rfl,
    rfl, rfl, rfl, rfl, rfl, rfl, rfl⟩

/-- Settles O10: such an access is not one that the window admits. -/
theorem unadmittedHostAccessSticks : Obligations.UnadmittedHostAccessSticks := by
  refine ⟨fun s off width v hstuck hoff hbad => ?_, fun s act hstuck => ?_⟩
  · have hadm : ¬ windowAdmits s (s.plat.base + BitVec.ofNat 32 off) width = true := by
      rw [windowAdmits_base, BitVec.toNat_ofNat, Nat.mod_eq_of_lt (by omega)]
      simp only [Bool.and_eq_true, decide_eq_true_eq]
      omega
    refine ⟨(step_host _ s s.turns).trans ((hostStep_notStuck _ _ hstuck).trans (if_neg hadm)),
      (step_host _ s s.turns).trans ((hostStep_notStuck _ _ hstuck).trans (if_neg hadm))⟩
  · exact (step_host act s s.turns).trans (if_pos hstuck)

/-! ## Races (spec/20_memory.md R88) -/

/-- Settles O57: the race list holds the one earlier value, and memory the byte stored. -/
theorem racedReadOldOrNew : Obligations.RacedReadOldOrNew := by
  intro s a v hwf hactive hraced
  have hstore : hostStoreByte a v s =
      { s with mem := Memory.write s.mem a v, raced := (a, Memory.read s.mem a) :: s.raced } := if_pos hactive
  have hvalues : racedValues a (hostStoreByte a v s) = [Memory.read s.mem a] := by
    have hnone : s.raced.filter (fun c => c.1 == a) = [] := List.map_eq_nil_iff.mp hraced
    simp [racedValues, hstore, hnone]
  have hnow : Memory.read (hostStoreByte a v s).mem a = v := by
    rw [hstore]
    exact Memory.read_write_same hwf a v
  have hrace := resolveRace_value (Memory.read (hostStoreByte a v s).mem a) (racedValues a (hostStoreByte a v s))
    (hostStoreByte a v s)
  rw [hvalues, hnow, List.mem_singleton] at hrace
  show (memReadByte a (hostStoreByte a v s)).1 = v ∨ (memReadByte a (hostStoreByte a v s)).1 = Memory.read s.mem a
  unfold memReadByte
  dsimp only
  rwa [hvalues, hnow]

/-- The other values of a byte are those of a receive's buffer: its earlier ones, and, if it has not been received yet,
the one to come. -/
theorem mem_otherValues {a : Nat} {s : State} {x : Byte} (h : x ∈ otherValues a s) :
    (activeByte s a && isReceive s.latch.op) = true ∧
      (x ∈ racedValues a s ∨
        (effAddr s.latch.buf (bytesReceived s) ≤ a ∧ byteToCome a (stepsToFinish s) s = some x)) := by
  unfold otherValues at h
  split at h
  next hactive =>
    refine ⟨hactive, (List.mem_append.mp h).imp_right fun hcome => ?_⟩
    split at hcome
    next hle => exact ⟨hle, Option.mem_toList.mp hcome⟩
    next => cases hcome
  next => cases h

/-- Settles O58: the byte seen is the one now in memory or one of `otherValues`, and the byte to come is one that engine
steps write. -/
theorem hostLoadOldOrNew : Obligations.HostLoadOldOrNew := by
  intro s a
  obtain ⟨n, hstate⟩ := resolveRace_state (Memory.read s.mem a) (otherValues a s) s
  have hx := (resolveRace_value (Memory.read s.mem a) (otherValues a s) s).imp_right mem_otherValues
  refine ⟨(resolveRace (Memory.read s.mem a) (otherValues a s) s).1, ?_, ?_, fun hout => ?_, fun hdone => ?_, ?_⟩
  · simp only [hostLoadByte, hstate, hostSees]
  · simp only [hostLoadByte, hstate, hostSees]
  · obtain hx | ⟨hin, -⟩ := hx
    · exact hx
    · rw [hout] at hin
      cases hin
  · obtain hx | ⟨-, hx | ⟨hle, -⟩⟩ := hx
    · exact .inl hx
    · exact .inr hx
    · exact absurd hle (Nat.not_le.mpr hdone)
  · obtain hx | ⟨-, hx | ⟨-, hx⟩⟩ := hx
    · exact .inl hx
    · exact .inr (.inl hx)
    · exact .inr (.inr (byteToCome_written hx))

/-! ## What a host turn leaves alone (spec/10_state.md R41, R53, spec/20_memory.md R84) -/

theorem hostStoreByte_mem (a : Nat) (v : Byte) (s : State) : (hostStoreByte a v s).mem = Memory.write s.mem a v := by
  unfold hostStoreByte
  dsimp only
  split <;> rfl

theorem hostStep_memStore {s : State} {a : Word} (v : Byte) (hstuck : s.hostStuck = false) (hwin : inWindow s a = false) :
    hostStep (.memStore a v) s = .next (hostStoreByte a.toNat v s) := by
  simp [hostStep, hostAccess, hstuck, hwin]

/-- Settles O59: a host access is an accepted CMD write, a byte store, or neither touches the engine or memory. -/
theorem hostLeavesEngineAlone : Obligations.HostLeavesEngineAlone := by
  intro s t act rest hturns hst
  have hhost : hostStep act { s with turns := rest } = .next t := by rwa [step, hturns] at hst
  have hframe : ∀ u : State, (∃ m rc, u = { s with turns := rest, mem := m, raced := rc }) →
      (u.sclO = s.sclO ∧ u.sdaO = s.sdaO ∧ u.trace = s.trace ∧ u.tick = s.tick ∧ u.ready = s.ready ∧
        u.result = s.result ∧ u.k = s.k ∧ u.i = s.i ∧ u.acc = s.acc ∧ u.ack = s.ack ∧ u.phase = s.phase ∧ u.r = s.r ∧
        u.plat = s.plat ∧ u.sdaIn = s.sdaIn ∧ u.drawn = s.drawn) := by
    rintro u ⟨m, rc, rfl⟩
    exact ⟨rfl, rfl, rfl, rfl, rfl, rfl, rfl, rfl, rfl, rfl, rfl, rfl, rfl, rfl, rfl⟩
  have hstored : ∀ (a : Word) (v : Byte), act = .memStore a v → s.hostStuck = false → inWindow s a = false →
      t.mem = Memory.write s.mem a.toNat v := by
    rintro a v rfl hstuck hwin
    have heq := hhost.symm.trans (hostStep_memStore v (s := { s with turns := rest }) hstuck hwin)
    rw [Host.Outcome.next.inj heq]
    exact hostStoreByte_mem a.toNat v _
  refine ⟨?_, fun hno => ?_, fun a v hact hstuck hwin hwf => ?_, fun hno => ?_⟩
  · obtain ⟨-, w, -, rfl⟩ | ⟨a, v, -, -, -, rfl⟩ | ⟨f, b, c, ts, rd, n, stuck, rfl⟩ := hostStep_cases hhost
    · exact ⟨rfl, rfl, rfl, rfl, rfl, rfl, rfl, rfl, rfl, rfl, rfl, rfl, rfl, rfl, rfl⟩
    · exact hframe _ (hostStoreByte_state a.toNat v { s with turns := rest })
    · exact ⟨rfl, rfl, rfl, rfl, rfl, rfl, rfl, rfl, rfl, rfl, rfl, rfl, rfl, rfl, rfl⟩
  · obtain ⟨hb, w, hact, rfl⟩ | ⟨a, v, -, -, -, rfl⟩ | ⟨f, b, c, ts, rd, n, stuck, rfl⟩ := hostStep_cases hhost
    · obtain hbusy | hne := hno
      · exact absurd (hbusy.symm.trans hb) (by decide)
      · exact absurd hact (hne w)
    · obtain ⟨m, rc, hs⟩ := hostStoreByte_state a.toNat v { s with turns := rest }
      rw [hs]
      exact ⟨rfl, rfl, rfl, rfl⟩
    · exact ⟨rfl, rfl, rfl, rfl⟩
  · rw [hstored a v hact hstuck hwin]
    exact ⟨Memory.read_write_same hwf _ v, fun b hb => Memory.read_write_other s.mem v hb⟩
  · obtain ⟨-, w, -, rfl⟩ | ⟨a, v, hact, hstuck, hwin, -⟩ | ⟨f, b, c, ts, rd, n, stuck, rfl⟩ := hostStep_cases hhost
    · rfl
    · obtain hs | hw := hno a v hact
      · exact absurd (hs.symm.trans hstuck) (by decide)
      · exact absurd (hw.symm.trans hwin) (by decide)
    · rfl

/-! ## The boot program (spec/70_reset_and_hazards.md R282, R300) -/

theorem core_run_next {k : Nat} {s t : State} (h : step s = .next t) :
    Host.Core.run Sys2Proof.core (k + 1) s = Host.Core.run Sys2Proof.core k t := by
  have hcore : Sys2Proof.core.step s = .next t := h
  simp only [Host.Core.run, hcore]

/-- The host has read STATUS, and the schedule is `ts`. -/
def polled (ts : List Turn) (s : State) : State := { hostSees (readReg offStatus s) s with turns := ts }

theorem step_poll {s : State} (hturns : s.turns = [poll]) (hstuck : s.hostStuck = false) :
    step s = .next (polled (if s.busy then [.engine, poll] else []) s) := by
  have hhost : step s = hostStep .poll { s with turns := [] } := by rw [step, hturns]; rfl
  rw [hhost, hostStep_notStuck _ _ (by exact hstuck)]
  cases hb : s.busy <;> simp [hostAccess, hb, polled, hostSees, readReg, poll]

/-- One round of POLL while BUSY = 1: a STATUS read and an engine step (R110, assumption log 16). -/
theorem core_run_pollRound {k : Nat} {s t : State} (hturns : s.turns = [poll]) (hstuck : s.hostStuck = false)
    (hb : s.busy = true) (h : engineStep (polled [poll] s) = .next t) :
    Host.Core.run Sys2Proof.core (k + 2) s = Host.Core.run Sys2Proof.core k t := by
  have hpoll := step_poll hturns hstuck
  rw [hb, if_pos rfl] at hpoll
  rw [core_run_next hpoll]
  exact core_run_next h

/-- The boot program has written FREQ and CMD: INIT is accepted, and the host polls (R111, R252). -/
def bootAccepted (f : Word) (s : State) : State := acceptCommand 1 { s with freq := f, turns := [poll] }

/-- The state at the end of the boot program. -/
def bootDone (f : Word) (s : State) : State :=
  polled [] <| finishCommand 0 <| polled [poll] <| goto (.finish 0) <| setSDA HIGH <| polled [poll] <|
    goto .initSDA <| setSCL HIGH <| polled [poll] <| goto .initSCL <| initConfigure <| goto .initConfig <|
      polled [poll] <| bootAccepted f s

theorem core_run_boot {s : State} {f : Word} (hbusy : s.busy = false) (hstuck : s.hostStuck = false)
    (hf : freqLegal f = true) (hturns : s.turns = pseudoInit s.plat.base f) :
    Host.Core.run Sys2Proof.core 11 s = .next (bootDone f s) := by
  have hfreq : step s = .next { s with freq := f, turns := [wr s.plat.base offCmd 1, poll] } := by
    have hstore := step_store s [wr s.plat.base offCmd 1, poll] offFreq f hstuck (by decide) (by decide)
    have hs : { s with turns := pseudoInit s.plat.base f } = s := by rw [← hturns]
    exact (congrArg step hs).symm.trans hstore
  have hcmd : step { s with freq := f, turns := [wr s.plat.base offCmd 1, poll] } = .next (bootAccepted f s) := by
    have hstore := step_store { s with freq := f } [poll] offCmd 1 hstuck (by decide) (by decide)
    exact hstore.trans (writeReg_cmd_idle 1 hbusy)
  calc Host.Core.run Sys2Proof.core 11 s
    _ = Host.Core.run Sys2Proof.core 9 (bootAccepted f s) := (core_run_next hfreq).trans (core_run_next hcmd)
    _ = Host.Core.run Sys2Proof.core 7 _ := core_run_pollRound rfl hstuck rfl (engineStep_init rfl rfl rfl hf)
    _ = Host.Core.run Sys2Proof.core 5 _ := core_run_pollRound rfl hstuck rfl (engineStep_initSCL rfl)
    _ = Host.Core.run Sys2Proof.core 3 _ := core_run_pollRound rfl hstuck rfl (engineStep_initSDA rfl)
    _ = Host.Core.run Sys2Proof.core 1 _ := core_run_pollRound rfl hstuck rfl (engineStep_finish rfl)
    _ = .next (bootDone f s) := core_run_next (step_poll rfl hstuck)

/-- Settles O60: the program's eleven steps, one by one. -/
theorem bootSequence : Obligations.BootSequence := by
  intro s f hbusy _ hstuck hpos hmax hturns
  have hrun := core_run_boot hbusy hstuck (freqLegal_iff.mpr ⟨hpos, hmax⟩) hturns
  have htrace : (bootDone f s).trace = s.trace ++ [.setSCL true, .setSDA true] := List.append_assoc _ _ _
  have hstatus : statusWord (bootDone f s).busy (bootDone f s).ready = 2 := (by decide : statusWord false true = 2)
  have hnotStuck : (bootDone f s).hostStuck = false := hstuck
  refine ⟨bootDone f s, hrun, rfl, rfl, rfl, tickOf_toNat f, rfl, htrace, hstatus, ?_, ?_⟩
  · rw [hrun]
    simp only [endedWell, hostEnded, hnotStuck]
    rfl
  · simp only [observe, htrace, List.drop_left, hstatus]
    rfl

end Sys2Proof.Machine
